-- ==== Sys2Proof/Word.lean ====
section
/-! DEFINITION. The widths of the host bus: 32-bit data words, 16-bit word addresses (R40), and the
byte in which one memory cell is held. -/

namespace Sys2Proof

/-- One word of the host bus: a register, a buffer word, a command word, a binary32 pattern (R40, R80). -/
abbrev Word := BitVec 32

/-- A host-bus word address (R40). -/
abbrev Addr := BitVec 16

/-- A quarter of a buffer word: the unit in which the model's memory lists its contents. -/
abbrev Byte := BitVec 8

end Sys2Proof
end

