-- ==== Sys2Proof/Machine/Binary32.lean ====
section
/-! DEFINITION. The binary32 datapath of 40_numerics.md: format (R80), rounding (R82), subnormal
flushing (R83, R84), the canonical NaN (R85), the arithmetic operations (R87 to R91), comparisons
(R92), classification (R93), clamping (R94) and the constants (R95).

A finite magnitude is counted exactly, as a natural number of units of 2^-149 (the spacing of the
subnormals), so every operation computes its exact result on integers and rounds once at the end. -/

namespace Sys2Proof.Machine

/-! ## Format (R80) -/

/-- Bit 31, the sign s (R80). -/
def signBit (a : Word) : Bool := a.msb

/-- Bits 30:23, the biased exponent e (R80). -/
def expField (a : Word) : BitVec 8 := a.extractLsb' 23 8

/-- Bits 22:0, the fraction f (R80). -/
def fracField (a : Word) : BitVec 23 := a.extractLsb' 0 23

/-- The canonical quiet NaN (R85). -/
def qnan : Word := 0x7FC00000#32

/-- The pattern with sign s and the 31-bit magnitude pattern m (R80). -/
def packSign (s : Bool) (m : Nat) : Word := BitVec.ofNat 32 ((if s then 2 ^ 31 else 0) + m)

/-- The zero of sign s (R80). -/
def signedZero (s : Bool) : Word := packSign s 0

/-- The infinity of sign s (R80). -/
def signedInf (s : Bool) : Word := packSign s 0x7F800000

/-- `isnan(a)` (R93): exponent all ones, fraction not zero; the raw pattern is tested. -/
def isNaN (a : Word) : Bool := expField a == 255#8 && fracField a != 0#23

/-- `isfinite(a)` (R93): exponent not all ones; the raw pattern is tested. -/
def isFinite (a : Word) : Bool := expField a != 255#8

/-- ±∞ (R80). -/
def isInf (a : Word) : Bool := expField a == 255#8 && fracField a == 0#23

/-- A subnormal: e = 0, f ≠ 0 (R80). -/
def isSubnormal (a : Word) : Bool := expField a == 0#8 && fracField a != 0#23

/-- ±0 (R80). -/
def isZero (a : Word) : Bool := expField a == 0#8 && fracField a == 0#23

/-- A subnormal replaced by the zero of its sign: the operand rule R83 and the result rule R84. -/
def flush (a : Word) : Word := if isSubnormal a then signedZero (signBit a) else a

/-- The magnitude of a finite pattern in units of 2^-149 (R80). -/
def units (a : Word) : Nat :=
  if expField a = 0#8 then (fracField a).toNat
  else (2 ^ 23 + (fracField a).toNat) * 2 ^ ((expField a).toNat - 1)

/-- The value of a finite pattern in units of 2^-149 (R80). -/
def signedUnits (a : Word) : Int := if signBit a then -(units a : Int) else (units a : Int)

/-! ## Rounding (R82, R84) -/

/-- num / den rounded to the nearest integer, ties to even (R82). -/
def roundNearestEven (num den : Nat) : Nat :=
  let q := num / den
  let r := num % den
  if 2 * r < den then q else if den < 2 * r then q + 1 else q + q % 2

/-- The magnitude pattern of the exact value num / den (in units of 2^-149), rounded to 24
significant bits with gradual underflow (R82). Consecutive patterns are consecutive values, so a
significand that rounds up to 2^24 carries into the exponent by itself. -/
def roundMag (num den : Nat) : Nat :=
  let sh := (num / den).log2 - 23
  sh * 2 ^ 23 + roundNearestEven num (den * 2 ^ sh)

/-- The binary32 result whose exact magnitude is num / den units of 2^-149 and whose sign is s:
rounded (R82), infinite from 2^128 on (R82), flushed when subnormal (R84). -/
def roundResult (s : Bool) (num den : Nat) : Word :=
  flush (packSign s (min (roundMag num den) 0x7F800000))

/-! ## Arithmetic (R87 to R91) -/

/-- `fneg` (R91): the canonical NaN for a NaN, otherwise bit 31 inverted; it does not flush. -/
def fneg (a : Word) : Word := if isNaN a then qnan else a ^^^ 0x80000000#32

/-- IEEE addition of two operands that are already flushed (R87). -/
def addFlushed (a b : Word) : Word :=
  if isNaN a || isNaN b then qnan
  else if isInf a then (if isInf b && signBit a != signBit b then qnan else a)
  else if isInf b then b
  else
    let k := signedUnits a + signedUnits b
    if k = 0 then signedZero (signBit a && signBit b)
    else roundResult (decide (k < 0)) k.natAbs 1

/-- `fadd` (R87). -/
def fadd (a b : Word) : Word := addFlushed (flush a) (flush b)

/-- `fsub` (R87): addition of the negated second operand; a NaN operand stays NaN. -/
def fsub (a b : Word) : Word := fadd a (fneg b)

/-- IEEE multiplication of two operands that are already flushed (R88). -/
def mulFlushed (a b : Word) : Word :=
  let s := signBit a ^^ signBit b
  if isNaN a || isNaN b then qnan
  else if isInf a then (if isZero b then qnan else signedInf s)
  else if isInf b then (if isZero a then qnan else signedInf s)
  else roundResult s (units a * units b) (2 ^ 149)

/-- `fmul` (R88). -/
def fmul (a b : Word) : Word := mulFlushed (flush a) (flush b)

/-- IEEE division of two operands that are already flushed (R89). -/
def divFlushed (a b : Word) : Word :=
  let s := signBit a ^^ signBit b
  if isNaN a || isNaN b then qnan
  else if isInf a then (if isInf b then qnan else signedInf s)
  else if isInf b then signedZero s
  else if isZero b then (if isZero a then qnan else signedInf s)
  else roundResult s (units a * 2 ^ 149) (units b)

/-- `fdiv` (R89). -/
def fdiv (a b : Word) : Word := divFlushed (flush a) (flush b)

/-- Integer square root, one result bit a step: the largest r with r * r ≤ n that extends the bits
already found by the k bits below. -/
def isqrtBits : Nat → Nat → Nat → Nat
  | 0, _, r => r
  | k + 1, n, r =>
    if (r + 2 ^ k) * (r + 2 ^ k) ≤ n then isqrtBits k n (r + 2 ^ k) else isqrtBits k n r

/-- The integer square root, rounded down. -/
def isqrt (n : Nat) : Nat := isqrtBits (n.log2 / 2 + 1) n 0

/-- IEEE square root of an operand that is already flushed (R90). With n the radicand in units of
2^-298, the root in units of 2^-149 has more than 80 bits, so a root that is not exact may be
rounded as its integer part plus one half: no rounding boundary lies between the two. -/
def sqrtFlushed (a : Word) : Word :=
  if isNaN a then qnan
  else if isZero a then a
  else if signBit a then qnan
  else if isInf a then a
  else
    let n := units a * 2 ^ 149
    let r := isqrt n
    roundResult false (2 * r + (if r * r = n then 0 else 1)) 2

/-- `fsqrt` (R90). -/
def fsqrt (a : Word) : Word := sqrtFlushed (flush a)

/-! ## Comparisons (R92) and clamping (R94) -/

/-- The place of a non-NaN pattern in the order of the extended reals; both zeros have place 0. -/
def orderKey (a : Word) : Int :=
  if signBit a then -((a.extractLsb' 0 31).toNat : Int) else ((a.extractLsb' 0 31).toNat : Int)

/-- `flt(a, b)`: a < b, false on a NaN (R92). -/
def flt (a b : Word) : Bool :=
  !isNaN a && !isNaN b && decide (orderKey (flush a) < orderKey (flush b))

/-- `fle(a, b)`: a ≤ b, false on a NaN (R92). -/
def fle (a b : Word) : Bool :=
  !isNaN a && !isNaN b && decide (orderKey (flush a) ≤ orderKey (flush b))

/-- `feq(a, b)`: a = b, false on a NaN; +0 and -0 are equal (R92). -/
def feq (a b : Word) : Bool :=
  !isNaN a && !isNaN b && decide (orderKey (flush a) = orderKey (flush b))

/-- `clampf(v, lo, hi)` (R94): the third branch returns the pattern of v unchanged. -/
def clampf (v lo hi : Word) : Word := if flt v lo then lo else if flt hi v then hi else v

/-! ## Constants (R95) -/

/-- +0.0 (R9). -/
def posZero : Word := 0x00000000#32
/-- -0.0 (R9). -/
def negZero : Word := 0x80000000#32
/-- 0.5 (R95). -/
def half : Word := 0x3F000000#32
/-- 1 (R95). -/
def one : Word := 0x3F800000#32
/-- -1, the negation of `one`. -/
def negOne : Word := 0xBF800000#32
/-- 2 (R95). -/
def two : Word := 0x40000000#32
/-- 20 (R95). -/
def twenty : Word := 0x41A00000#32
/-- 2π (R95). -/
def twoPi : Word := 0x40C90FDB#32
/-- SHELF_Q = 0.707 (R95, C1). -/
def shelfQ : Word := 0x3F34FDF4#32
/-- F_LOW = 200 Hz (R95). -/
def fLow : Word := 0x43480000#32
/-- F_MID = 4000 Hz (R95). -/
def fMid : Word := 0x457A0000#32
/-- F_HIGH = 12000 Hz (R95). -/
def fHigh : Word := 0x463B8000#32
/-- GAIN_MIN = -12 dB (R95). -/
def gainMin : Word := 0xC1400000#32
/-- GAIN_MAX = 12 dB (R95). -/
def gainMax : Word := 0x41400000#32
/-- Q_MIN = 0.1 (R95). -/
def qMin : Word := 0x3DCCCCCD#32
/-- Q_MAX = 5 (R95). -/
def qMax : Word := 0x40A00000#32
/-- SR_MIN_EXCL = 24000 Hz (R95). -/
def srMinExcl : Word := 0x46BB8000#32
/-- MAXLT1 = 1 - 2^-24, the largest binary32 below 1 (R95). -/
def maxLt1 : Word := 0x3F7FFFFF#32

/-! ## The fields as numbers

Each test on a pattern in terms of the pattern's number, so that a proof about patterns becomes
linear arithmetic. -/

theorem expField_toNat (a : Word) : (expField a).toNat = a.toNat / 2 ^ 23 % 256 := by
  simp [expField, Nat.shiftRight_eq_div_pow]

theorem fracField_toNat (a : Word) : (fracField a).toNat = a.toNat % 2 ^ 23 := by
  simp [fracField]

theorem signBit_iff (a : Word) : signBit a = true ↔ 2 ^ 31 ≤ a.toNat := by
  simp [signBit, BitVec.msb_eq_decide]

theorem expField_eq_iff (a : Word) (e : BitVec 8) :
    expField a = e ↔ a.toNat / 2 ^ 23 % 256 = e.toNat := by
  rw [← expField_toNat, BitVec.toNat_inj]

theorem fracField_eq_iff (a : Word) (f : BitVec 23) :
    fracField a = f ↔ a.toNat % 2 ^ 23 = f.toNat := by
  rw [← fracField_toNat, BitVec.toNat_inj]

theorem isNaN_iff (a : Word) : isNaN a = true ↔ 0x7F800000 < a.toNat % 2 ^ 31 := by
  rw [isNaN, Bool.and_eq_true, beq_iff_eq, bne_iff_ne, ne_eq, expField_eq_iff, fracField_eq_iff]
  norm_num
  omega

theorem isFinite_iff (a : Word) : isFinite a = true ↔ a.toNat % 2 ^ 31 < 0x7F800000 := by
  rw [isFinite, bne_iff_ne, ne_eq, expField_eq_iff]
  norm_num
  omega

theorem isInf_iff (a : Word) : isInf a = true ↔ a.toNat % 2 ^ 31 = 0x7F800000 := by
  rw [isInf, Bool.and_eq_true, beq_iff_eq, beq_iff_eq, expField_eq_iff, fracField_eq_iff]
  norm_num
  omega

theorem isSubnormal_iff (a : Word) :
    isSubnormal a = true ↔ 0 < a.toNat % 2 ^ 31 ∧ a.toNat % 2 ^ 31 < 0x00800000 := by
  rw [isSubnormal, Bool.and_eq_true, beq_iff_eq, bne_iff_ne, ne_eq, expField_eq_iff,
    fracField_eq_iff]
  norm_num
  omega

theorem isZero_iff (a : Word) : isZero a = true ↔ a.toNat % 2 ^ 31 = 0 := by
  rw [isZero, Bool.and_eq_true, beq_iff_eq, beq_iff_eq, expField_eq_iff, fracField_eq_iff]
  norm_num
  omega

theorem packSign_toNat (s : Bool) (m : Nat) (h : m < 2 ^ 31) :
    (packSign s m).toNat = (if s then 2 ^ 31 else 0) + m := by
  rw [packSign, BitVec.toNat_ofNat]
  apply Nat.mod_eq_of_lt
  split <;> omega

theorem orderKey_eq (a : Word) :
    orderKey a = if signBit a then -((a.toNat % 2 ^ 31 : Nat) : Int)
      else ((a.toNat % 2 ^ 31 : Nat) : Int) := by
  simp [orderKey]

/-! ## Flushing -/

theorem flush_of_not_subnormal {v : Word} (h : isSubnormal v = false) : flush v = v := by
  simp [flush, h]

theorem flush_of_subnormal {v : Word} (h : isSubnormal v = true) :
    flush v = signedZero (signBit v) := by
  simp [flush, h]

theorem isSubnormal_signedZero (s : Bool) : isSubnormal (signedZero s) = false := by
  cases s <;> decide

theorem isZero_signedZero (s : Bool) : isZero (signedZero s) = true := by
  cases s <;> decide

theorem isSubnormal_flush (v : Word) : isSubnormal (flush v) = false := by
  cases h : isSubnormal v
  · rw [flush_of_not_subnormal h, h]
  · rw [flush_of_subnormal h, isSubnormal_signedZero]

theorem flush_flush (v : Word) : flush (flush v) = flush v :=
  flush_of_not_subnormal (isSubnormal_flush v)

theorem isNaN_of_isSubnormal {v : Word} (h : isSubnormal v = true) : isNaN v = false := by
  rw [Bool.eq_false_iff, ne_eq, isNaN_iff]
  rw [isSubnormal_iff] at h
  omega

theorem isInf_of_isSubnormal {v : Word} (h : isSubnormal v = true) : isInf v = false := by
  rw [Bool.eq_false_iff, ne_eq, isInf_iff]
  rw [isSubnormal_iff] at h
  omega

theorem isNaN_flush (v : Word) : isNaN (flush v) = isNaN v := by
  cases h : isSubnormal v
  · rw [flush_of_not_subnormal h]
  · rw [flush_of_subnormal h, isNaN_of_isSubnormal h]
    cases signBit v <;> decide

theorem signBit_flush (v : Word) : signBit (flush v) = signBit v := by
  cases h : isSubnormal v
  · rw [flush_of_not_subnormal h]
  · rw [flush_of_subnormal h]
    cases signBit v <;> decide

theorem isInf_flush (v : Word) : isInf (flush v) = isInf v := by
  cases h : isSubnormal v
  · rw [flush_of_not_subnormal h]
  · rw [flush_of_subnormal h, isInf_of_isSubnormal h]
    cases signBit v <;> decide

/-- A zero is the zero of its sign. -/
theorem eq_signedZero_of_isZero {v : Word} (h : isZero v = true) : v = signedZero (signBit v) := by
  apply BitVec.eq_of_toNat_eq
  rw [isZero_iff] at h
  rw [signedZero, packSign_toNat _ _ (by norm_num)]
  have hs := signBit_iff v
  have := v.isLt
  cases hb : signBit v <;> simp only [hb] at hs <;> norm_num at * <;> omega

/-- An infinity is the infinity of its sign. -/
theorem eq_signedInf_of_isInf {v : Word} (h : isInf v = true) : v = signedInf (signBit v) := by
  apply BitVec.eq_of_toNat_eq
  rw [isInf_iff] at h
  rw [signedInf, packSign_toNat _ _ (by norm_num)]
  have hs := signBit_iff v
  have := v.isLt
  cases hb : signBit v <;> simp only [hb] at hs <;> norm_num at * <;> omega

/-! ## Negation -/

theorem fneg_of_isNaN {v : Word} (h : isNaN v = true) : fneg v = qnan := by
  simp [fneg, h]

theorem fneg_of_not_isNaN {v : Word} (h : isNaN v = false) : fneg v = v ^^^ 0x80000000#32 := by
  simp [fneg, h]

theorem fneg_toNat_mod {v : Word} (h : isNaN v = false) :
    (fneg v).toNat % 2 ^ 31 = v.toNat % 2 ^ 31 := by
  rw [fneg_of_not_isNaN h, BitVec.toNat_xor, Nat.xor_mod_two_pow]
  simp

theorem signBit_fneg {v : Word} (h : isNaN v = false) : signBit (fneg v) = !signBit v := by
  rw [fneg_of_not_isNaN h, signBit, BitVec.msb_xor]
  have : (0x80000000#32).msb = true := by decide
  rw [this, Bool.xor_true]
  rfl

/-- Two patterns with the same sign and the same magnitude are the same pattern. -/
theorem word_ext {u v : Word} (hs : signBit u = signBit v)
    (hm : u.toNat % 2 ^ 31 = v.toNat % 2 ^ 31) : u = v := by
  apply BitVec.eq_of_toNat_eq
  have := u.isLt
  have := v.isLt
  have hu := signBit_iff u
  have hv := signBit_iff v
  cases h : signBit v <;> simp only [hs, h] at hu hv <;> norm_num at * <;> omega

theorem isNaN_fneg (v : Word) : isNaN (fneg v) = isNaN v := by
  cases h : isNaN v
  · rw [Bool.eq_false_iff, ne_eq, isNaN_iff, fneg_toNat_mod h, ← isNaN_iff, h]; decide
  · rw [fneg_of_isNaN h]; decide

theorem isSubnormal_fneg (v : Word) : isSubnormal (fneg v) = isSubnormal v := by
  cases h : isNaN v
  · rw [Bool.eq_iff_iff, isSubnormal_iff, isSubnormal_iff, fneg_toNat_mod h]
  · rw [fneg_of_isNaN h]
    have q : isSubnormal qnan = false := by decide
    rw [q]; symm
    rw [Bool.eq_false_iff]
    intro hs
    rw [isNaN_of_isSubnormal hs] at h
    exact absurd h (by decide)

theorem isZero_fneg {v : Word} (h : isNaN v = false) : isZero (fneg v) = isZero v := by
  rw [Bool.eq_iff_iff, isZero_iff, isZero_iff, fneg_toNat_mod h]

theorem isInf_fneg (v : Word) : isInf (fneg v) = isInf v := by
  cases h : isNaN v
  · rw [Bool.eq_iff_iff, isInf_iff, isInf_iff, fneg_toNat_mod h]
  · rw [fneg_of_isNaN h]
    have q : isInf qnan = false := by decide
    rw [q]; symm
    rw [Bool.eq_false_iff, ne_eq, isInf_iff]
    rw [isNaN_iff] at h
    omega

/-- Negation and flushing commute. -/
theorem flush_fneg (v : Word) : flush (fneg v) = fneg (flush v) := by
  cases h : isSubnormal v
  · rw [flush_of_not_subnormal h, flush_of_not_subnormal (by rw [isSubnormal_fneg, h])]
  · rw [flush_of_subnormal (by rw [isSubnormal_fneg, h]), flush_of_subnormal h,
      signBit_fneg (isNaN_of_isSubnormal h)]
    cases signBit v <;> decide

end Sys2Proof.Machine
end

