-- ==== Sys2Proof/Machine/FunctionProperties.lean ====
section
/-! DEFINITION. What the spec requires of every instance of the four configuration functions
`fsin`, `fcos`, `ftanh`, `fexp10` (R96 to R99), and one function for each that meets it, so that
Config.lean may hold an opaque instance. -/

namespace Sys2Proof.Machine

/-- What R96 requires of every configuration function: (b) a subnormal operand acts as the zero of
its sign, (c) a NaN operand gives the canonical NaN, (d) no result is subnormal and a NaN result is
the canonical one. -/
structure Common (f : Word → Word) : Prop where
  subnormal_operand : ∀ v, isSubnormal v = true → f v = f (flush v)
  nan_operand : ∀ v, isNaN v = true → f v = qnan
  never_subnormal : ∀ v, isSubnormal (f v) = false
  nan_canonical : ∀ v, isNaN (f v) = true → f v = qnan

/-- R96 and R97 for `fsin`: P_SIN_ZERO, P_TRIG_RANGE, P_TRIG_INF, P_SIN_POS. -/
structure SinOk (f : Word → Word) : Prop extends Common f where
  zero_pos : f posZero = posZero
  zero_neg : f negZero = negZero
  range : ∀ v, isFinite v = true → fle negOne (f v) = true ∧ fle (f v) one = true
  infinite : ∀ v, isInf v = true → f v = qnan
  positive : ∀ v, flt posZero v = true → fle v 0x40490FDA#32 = true → flt posZero (f v) = true

/-- R96 and R97 for `fcos`: P_COS_ZERO, P_TRIG_RANGE, P_TRIG_INF. -/
structure CosOk (f : Word → Word) : Prop extends Common f where
  zero_pos : f posZero = one
  zero_neg : f negZero = one
  range : ∀ v, isFinite v = true → fle negOne (f v) = true ∧ fle (f v) one = true
  infinite : ∀ v, isInf v = true → f v = qnan

/-- R96 and R98 for `ftanh`: P_TANH_ZERO, P_TANH_ODD, P_TANH_MONO, P_TANH_RANGE, P_TANH_INF. -/
structure TanhOk (f : Word → Word) : Prop extends Common f where
  zero_pos : f posZero = posZero
  zero_neg : f negZero = negZero
  odd : ∀ v, isNaN v = false → f (fneg v) = fneg (f v)
  mono : ∀ u v, fle u v = true → fle (f u) (f v) = true
  range : ∀ v, isNaN v = false → fle negOne (f v) = true ∧ fle (f v) one = true
  infinite_pos : f (signedInf false) = one
  infinite_neg : f (signedInf true) = negOne

/-- R96 and R99 for `fexp10`: P_EXP10_ZERO, P_EXP10_NONNEG, P_EXP10_INF, P_EXP10_MONO,
P_EXP10_RANGE. -/
structure Exp10Ok (f : Word → Word) : Prop extends Common f where
  zero_pos : f posZero = one
  zero_neg : f negZero = one
  nonneg : ∀ v, isNaN v = false → fle posZero (f v) = true ∧ f v ≠ negZero
  infinite_pos : f (signedInf false) = signedInf false
  infinite_neg : f (signedInf true) = posZero
  mono : ∀ u v, fle u v = true → fle (f u) (f v) = true
  range : ∀ v, fle 0xBF19999A#32 v = true → fle v 0x3F19999A#32 = true →
    isFinite (f v) = true ∧ fle 0x3E800000#32 (f v) = true ∧ fle (f v) 0x40800000#32 = true



/-- Shows that `SinOk` can be met: the sign function. -/
def sinWitness (v : Word) : Word :=
  if isNaN v then qnan else if isInf v then qnan
  else if isZero (flush v) then flush v else packSign (signBit v) 0x3F800000

/-- Shows that `CosOk` can be met: the constant 1. -/
def cosWitness (v : Word) : Word := if isNaN v then qnan else if isInf v then qnan else one

/-- Shows that `TanhOk` can be met: the sign function. -/
def tanhWitness (v : Word) : Word :=
  if isNaN v then qnan
  else if isZero (flush v) then flush v else packSign (signBit v) 0x3F800000

/-- Shows that `Exp10Ok` can be met: the constant 1 on finite operands. -/
def exp10Witness (v : Word) : Word :=
  if isNaN v then qnan
  else if isInf v then (if signBit v then posZero else signedInf false) else one



/-! ## The requirements can be met -/

theorem isZero_of_isSubnormal {v : Word} (h : isSubnormal v = true) : isZero (flush v) = true := by
  rw [flush_of_subnormal h, isZero_signedZero]

theorem sinWitness_common : Common sinWitness where
  subnormal_operand v h := by
    simp [sinWitness, isNaN_flush, isInf_flush, flush_flush, signBit_flush]
  nan_operand v h := by simp [sinWitness, h]
  never_subnormal v := by
    unfold sinWitness
    split; · decide
    split; · decide
    split; · exact isSubnormal_flush v
    cases signBit v <;> decide
  nan_canonical v := by
    unfold sinWitness
    split; · exact fun _ => rfl
    split; · exact fun _ => rfl
    rename_i h _
    split; · intro h'; rw [isNaN_flush] at h'; exact absurd h' h
    cases signBit v <;> decide

theorem tanhWitness_common : Common tanhWitness where
  subnormal_operand v h := by
    simp [tanhWitness, isNaN_flush, flush_flush, signBit_flush]
  nan_operand v h := by simp [tanhWitness, h]
  never_subnormal v := by
    unfold tanhWitness
    split; · decide
    split; · exact isSubnormal_flush v
    cases signBit v <;> decide
  nan_canonical v := by
    unfold tanhWitness
    split; · exact fun _ => rfl
    rename_i h
    split; · intro h'; rw [isNaN_flush] at h'; exact absurd h' h
    cases signBit v <;> decide

theorem cosWitness_common : Common cosWitness where
  subnormal_operand v h := by simp [cosWitness, isNaN_flush, isInf_flush]
  nan_operand v h := by simp [cosWitness, h]
  never_subnormal v := by
    unfold cosWitness
    split; · decide
    split <;> decide
  nan_canonical v := by
    unfold cosWitness
    split; · exact fun _ => rfl
    split
    · exact fun _ => rfl
    · exact fun h => absurd h (by decide)

theorem exp10Witness_common : Common exp10Witness where
  subnormal_operand v h := by simp [exp10Witness, isNaN_flush, isInf_flush, signBit_flush]
  nan_operand v h := by simp [exp10Witness, h]
  never_subnormal v := by
    unfold exp10Witness
    split; · decide
    split
    · split <;> decide
    · decide
  nan_canonical v := by
    unfold exp10Witness
    split; · exact fun _ => rfl
    split
    · split <;> exact fun h => absurd h (by decide)
    · exact fun h => absurd h (by decide)

/-- The values of the two sign functions on operands that are not NaN. -/
theorem sign_cases (v : Word) :
    (isZero (flush v) = true ∧ flush v = signedZero (signBit v)) ∨ isZero (flush v) = false := by
  cases h : isZero (flush v)
  · exact .inr rfl
  · exact .inl ⟨rfl, by rw [← signBit_flush v]; exact eq_signedZero_of_isZero h⟩

theorem tanhWitness_value {v : Word} (h : isNaN v = false) :
    tanhWitness v =
      if isZero (flush v) then signedZero (signBit v) else packSign (signBit v) 0x3F800000 := by
  unfold tanhWitness
  rw [h]
  rcases sign_cases v with ⟨hz, hv⟩ | hz
  · simp [hv, isZero_signedZero]
  · simp [hz]

theorem tanhWitness_range {v : Word} (h : isNaN v = false) :
    fle negOne (tanhWitness v) = true ∧ fle (tanhWitness v) one = true := by
  rw [tanhWitness_value h]
  cases isZero (flush v) <;> cases signBit v <;> decide

/-- A non-NaN pattern's place in the order is zero, positive or negative with its sign. -/
theorem orderKey_sign (v : Word) :
    (isZero v = true ∧ orderKey v = 0) ∨
    (isZero v = false ∧ signBit v = false ∧ 0 < orderKey v) ∨
    (isZero v = false ∧ signBit v = true ∧ orderKey v < 0) := by
  rw [orderKey_eq]
  have hz := isZero_iff v
  cases h : isZero v <;> simp only [h] at hz <;> cases signBit v <;> simp at hz ⊢ <;> omega

theorem tanhWitness_mono (u v : Word) (h : fle u v = true) :
    fle (tanhWitness u) (tanhWitness v) = true := by
  simp only [fle, Bool.and_eq_true, Bool.not_eq_true', decide_eq_true_eq] at h
  obtain ⟨⟨hu, hv⟩, hk⟩ := h
  rw [tanhWitness_value hu, tanhWitness_value hv, ← signBit_flush u, ← signBit_flush v]
  rcases orderKey_sign (flush u) with ⟨zu, ku⟩ | ⟨zu, su, ku⟩ | ⟨zu, su, ku⟩ <;>
    rcases orderKey_sign (flush v) with ⟨zv, kv⟩ | ⟨zv, sv, kv⟩ | ⟨zv, sv, kv⟩ <;>
    first
    | (exfalso; omega)
    | (simp only [*, if_true]
       first
       | decide
       | (cases signBit (flush u) <;> decide)
       | (cases signBit (flush u) <;> cases signBit (flush v) <;> decide))

theorem tanhWitness_odd (v : Word) (h : isNaN v = false) :
    tanhWitness (fneg v) = fneg (tanhWitness v) := by
  have hf : isNaN (flush v) = false := by rw [isNaN_flush, h]
  rw [tanhWitness_value h, tanhWitness_value (by rw [isNaN_fneg, h]), flush_fneg, isZero_fneg hf,
    signBit_fneg h]
  cases isZero (flush v) <;> cases signBit v <;> decide

theorem exp10Witness_mono (u v : Word) (h : fle u v = true) :
    fle (exp10Witness u) (exp10Witness v) = true := by
  simp only [fle, Bool.and_eq_true, Bool.not_eq_true', decide_eq_true_eq] at h
  obtain ⟨⟨hu, hv⟩, hk⟩ := h
  simp only [exp10Witness, hu, hv, Bool.false_eq_true, if_false]
  have iu := isInf_flush u
  have iv := isInf_flush v
  have nu := isNaN_flush u
  have nv := isNaN_flush v
  rw [orderKey_eq, orderKey_eq, signBit_flush, signBit_flush] at hk
  have ju := isInf_iff (flush u)
  have jv := isInf_iff (flush v)
  have mu := isNaN_iff (flush u)
  have mv := isNaN_iff (flush v)
  rw [iu] at ju; rw [iv] at jv; rw [nu, hu] at mu; rw [nv, hv] at mv
  cases hiu : isInf u <;> cases hiv : isInf v <;> cases hsu : signBit u <;> cases hsv : signBit v <;>
    simp only [hiu, hiv, hsu, hsv, if_true, if_false, Bool.false_eq_true, false_iff, true_iff,
      not_lt] at * <;>
    first | decide | (exfalso; omega)

theorem sinWitness_value {v : Word} (h : isFinite v = true) :
    sinWitness v =
      if isZero (flush v) then signedZero (signBit v) else packSign (signBit v) 0x3F800000 := by
  have hn : isNaN v = false := by
    rw [Bool.eq_false_iff, ne_eq, isNaN_iff]; rw [isFinite_iff] at h; omega
  have hi : isInf v = false := by
    rw [Bool.eq_false_iff, ne_eq, isInf_iff]; rw [isFinite_iff] at h; omega
  have : sinWitness v = tanhWitness v := by simp [sinWitness, tanhWitness, hi, hn]
  rw [this, tanhWitness_value hn]

theorem sinWitness_ok : SinOk sinWitness where
  toCommon := sinWitness_common
  zero_pos := by decide
  zero_neg := by decide
  range v h := by
    rw [sinWitness_value h]
    cases isZero (flush v) <;> cases signBit v <;> decide
  infinite v h := by simp [sinWitness, h]
  positive v h h' := by
    simp only [flt, fle, Bool.and_eq_true, Bool.not_eq_true', decide_eq_true_eq] at h h'
    have hk : 0 < orderKey (flush v) := by
      have : orderKey (flush posZero) = 0 := by decide
      omega
    have hu : orderKey (flush v) ≤ 0x40490FDA := by
      have : orderKey (flush 0x40490FDA#32) = 0x40490FDA := by decide
      omega
    rcases orderKey_sign (flush v) with ⟨_, k⟩ | ⟨z, s, _⟩ | ⟨_, _, k⟩
    · omega
    · have hf : isFinite v = true := by
        rw [isFinite_iff]
        cases hs : isSubnormal v
        · rw [flush_of_not_subnormal hs] at hu s
          rw [orderKey_eq, s, if_neg (by decide)] at hu
          omega
        · rw [isSubnormal_iff] at hs
          omega
      rw [sinWitness_value hf, z, ← signBit_flush v, s]
      decide
    · omega

theorem cosWitness_ok : CosOk cosWitness where
  toCommon := cosWitness_common
  zero_pos := by decide
  zero_neg := by decide
  range v h := by
    have hn : isNaN v = false := by
      rw [Bool.eq_false_iff, ne_eq, isNaN_iff]; rw [isFinite_iff] at h; omega
    have hi : isInf v = false := by
      rw [Bool.eq_false_iff, ne_eq, isInf_iff]; rw [isFinite_iff] at h; omega
    simp only [cosWitness, hn, hi]
    decide
  infinite v h := by simp [cosWitness, h]

theorem tanhWitness_ok : TanhOk tanhWitness where
  toCommon := tanhWitness_common
  zero_pos := by decide
  zero_neg := by decide
  odd := tanhWitness_odd
  mono := tanhWitness_mono
  range _ h := tanhWitness_range h
  infinite_pos := by decide
  infinite_neg := by decide

theorem exp10Witness_ok : Exp10Ok exp10Witness where
  toCommon := exp10Witness_common
  zero_pos := by decide
  zero_neg := by decide
  nonneg v h := by
    simp only [exp10Witness, h]
    cases isInf v <;> cases signBit v <;> decide
  infinite_pos := by decide
  infinite_neg := by decide
  mono := exp10Witness_mono
  range v h h' := by
    simp only [fle, Bool.and_eq_true, Bool.not_eq_true', decide_eq_true_eq] at h h'
    have l : orderKey (flush 0xBF19999A#32) = -0x3F19999A := by decide
    have r : orderKey (flush 0x3F19999A#32) = 0x3F19999A := by decide
    have hi : isInf v = false := by
      rw [← isInf_flush, Bool.eq_false_iff, ne_eq, isInf_iff]
      have := orderKey_eq (flush v)
      split at this <;> omega
    have e : exp10Witness v = one := by simp [exp10Witness, h.1.2, hi]
    rw [e]
    decide

end Sys2Proof.Machine
end

