-- ==== Sys2Proof/Config.lean ====
section
/-! DEFINITION. The implementation parameters (R7, R8, R28) and the free values: the channel count,
the buffer depth, the four configuration functions (R96 to R99) and the contents of the sample
buffer after a hardware reset (R222). -/

namespace Sys2Proof.Config

open Sys2Proof.Machine

/-- NCH: two channels (R7). -/
abbrev nch : Nat := 2

/-- BUF_DEPTH: the value the spec takes, 4096 words a channel (R8, D13).
DESIGN CHOICE (assumption 6): the spec leaves 0 to 4096 open. -/
abbrev bufDepth : Nat := 4096

/-! An instance of a configuration function is any function with the properties the spec requires,
and no other (R96). Each constant below is opaque: a proof knows its required properties and
nothing else of it. The default field value only tells Lean that an instance exists. -/

/-- An instance of `fsin` (R96, R97). -/
structure SinInstance where
  /-- the function and its required properties -/
  val : { f : Word → Word // SinOk f } := ⟨sinWitness, sinWitness_ok⟩
deriving Inhabited

/-- An instance of `fcos` (R96, R97). -/
structure CosInstance where
  /-- the function and its required properties -/
  val : { f : Word → Word // CosOk f } := ⟨cosWitness, cosWitness_ok⟩
deriving Inhabited

/-- An instance of `ftanh` (R96, R98). -/
structure TanhInstance where
  /-- the function and its required properties -/
  val : { f : Word → Word // TanhOk f } := ⟨tanhWitness, tanhWitness_ok⟩
deriving Inhabited

/-- An instance of `fexp10` (R96, R99). -/
structure Exp10Instance where
  /-- the function and its required properties -/
  val : { f : Word → Word // Exp10Ok f } := ⟨exp10Witness, exp10Witness_ok⟩
deriving Inhabited

/-- The sine of this implementation (R97). A free value: assumption 8. -/
opaque sinImpl : SinInstance

/-- The cosine of this implementation (R97). A free value: assumption 8. -/
opaque cosImpl : CosInstance

/-- The hyperbolic tangent of this implementation (R98). A free value: assumption 8. -/
opaque tanhImpl : TanhInstance

/-- The power of ten of this implementation (R99). A free value: assumption 8. -/
opaque exp10Impl : Exp10Instance

/-- What a byte of the sample buffer holds after the hardware reset of the given number, before
anything is written to it: arbitrary, possibly different at each reset and each word (R222, U1).
A free value: assumption 4. -/
opaque bufPowerOn : Nat → Nat → Byte

end Sys2Proof.Config
end

