-- ==== Sys2Proof/Syntax.lean ====
section
/-! DEFINITION. The fourteen commands (R63), one constructor a row of the opcode table, with the
fields R60 gives each. -/

namespace Sys2Proof

/-- The three bands, in chain order (R7, R146): LOW = 0, MID = 1, HIGH = 2. -/
inductive Band where
  /-- the low shelf -/
  | low
  /-- the peak/bell filter -/
  | mid
  /-- the high shelf -/
  | high
deriving DecidableEq, Repr

/-- A command (R63). A channel field is kept as the four bits of the word; which of its values are
legal is `Instr.wf` (R61). -/
inductive Instr where
  /-- `NOP` (R182) -/
  | nop
  /-- `PREPARE` (R153) -/
  | prepare
  /-- `RESET` (R154) -/
  | reset
  /-- `UPDATE band` (R150) -/
  | update (band : Band)
  /-- `CHSAMPLE ch` (R148) -/
  | chsample (ch : BitVec 4)
  /-- `BLOCK nin, n` (R176) -/
  | block (nin : BitVec 4) (n : BitVec 16)
  /-- `BQSTEP band, ch` (R133) -/
  | bqstep (band : Band) (ch : BitVec 4)
  /-- `BQRESET band, ch` (R134) -/
  | bqreset (band : Band) (ch : BitVec 4)
  /-- `LDCOEF band` (R135) -/
  | ldcoef (band : Band)
  /-- `CALCLS` (R117) -/
  | calcls
  /-- `CALCHS` (R118) -/
  | calchs
  /-- `CALCPK` (R119) -/
  | calcpk
  /-- `SAT` (R167) -/
  | sat
  /-- `CLRERR` (R183) -/
  | clrerr
deriving DecidableEq, Repr

end Sys2Proof
end

