-- ==== Sys2Proof/Machine/State.lean ====
section
/-! DEFINITION. The state of the core (R10), as plain data; the three outcomes' reason types; the
state right after hardware reset (R221). -/

namespace Sys2Proof.Machine

/-- One value for each band (R18, R20). -/
structure PerBand (α : Type) where
  low : α
  mid : α
  high : α
deriving DecidableEq, Repr

/-- A coefficient set, normalised so that a0 = 1 (R16, R18). -/
structure CoefSet where
  b0 : Word
  b1 : Word
  b2 : Word
  a1 : Word
  a2 : Word
deriving DecidableEq, Repr

/-- The delay state of one (channel, band) pair (R19). -/
structure Delay where
  s1 : Word
  s2 : Word
deriving DecidableEq, Repr

/-- The lifecycle states (R22). The value 3 never occurs (U11), so there are three. -/
inductive Life where
  /-- 0: no `PREPARE` has succeeded since hardware reset -/
  | uninitialized
  /-- 1: prepared -/
  | prepared
  /-- 2: processing samples -/
  | active
deriving DecidableEq, Repr

/-- The three error conditions (R195, R196). They are recorded in the state and never stop the
machine. -/
inductive ErrorKind where
  /-- cause 1 (R197) -/
  | invalidParameter
  /-- cause 2 (R198) -/
  | uninitializedState
  /-- cause 3 (R199) -/
  | badCommand
deriving DecidableEq, Repr

/-- What the host does to the core next: one bus operation (R45, R46), or a pulse of the reset
input (R220). -/
inductive HostEvent where
  /-- `MemRead(addr, 1)` (R45) -/
  | busRead (addr : Addr)
  /-- `MemWrite(addr, 1, v)` (R46) -/
  | busWrite (addr : Addr) (v : Word)
  /-- the reset input is asserted and released (R220) -/
  | hwReset
deriving DecidableEq, Repr

/-- The sample buffer's contents: address and byte, addresses strictly rising; what is not listed
has not been written since the last hardware reset (R222). Word `BUF[ch][i]`, at bus address A, is
the four bytes 4·A to 4·A + 3, the least significant first (assumption 5). -/
abbrev Memory := List Host.Cell

/-- The canonical form of a memory: addresses strictly rising. An unlisted address has no value of
its own, so no entry can equal it. -/
abbrev Memory.wf (m : Memory) : Prop := m.Pairwise (fun x y => x.1 < y.1)

/-- The state of the core (R10): the registers of R32, the sample buffer of R26, and three fields of
the model's own: the number of the last hardware reset and the host's side of the bus. -/
structure State where
  /-- `LOW_GAIN_DB` (R11) -/
  lowGainDb : Word
  /-- `MID_GAIN_DB` (R11) -/
  midGainDb : Word
  /-- `HIGH_GAIN_DB` (R11) -/
  highGainDb : Word
  /-- `MID_Q` (R11) -/
  midQ : Word
  /-- `SAT_EN`, bit 0 (R12) -/
  satEn : Bool
  /-- `SAMPLE_RATE_IN` (R13) -/
  sampleRateIn : Word
  /-- `MAX_BLOCK_IN` (R13) -/
  maxBlockIn : Word
  /-- `OP_FS` (R15) -/
  opFs : Word
  /-- `OP_F0` (R15) -/
  opF0 : Word
  /-- `OP_Q` (R15) -/
  opQ : Word
  /-- `OP_GAIN` (R15) -/
  opGain : Word
  /-- `OP_X` (R15) -/
  opX : Word
  /-- `CS_B0, CS_B1, CS_B2, CS_A1, CS_A2` (R16) -/
  cs : CoefSet
  /-- `RES_Y` (R17) -/
  resY : Word
  /-- `LIFE`, STATUS[1:0] (R22) -/
  life : Life
  /-- `E_INVPARAM`, STATUS[8] (R23) -/
  eInvParam : Bool
  /-- `E_UNINIT`, STATUS[9] (R23) -/
  eUninit : Bool
  /-- `E_BADCMD`, STATUS[10] (R23) -/
  eBadCmd : Bool
  /-- `CALC_COUNT` (R25) -/
  calcCount : Word
  /-- `ERR_CAUSE`: none is cause 0 (R24) -/
  errCause : Option ErrorKind
  /-- `ERR_CMD` (R24) -/
  errCmd : Word
  /-- `FS` (R14) -/
  fs : Word
  /-- `MAX_BLOCK` (R14) -/
  maxBlock : Word
  /-- `COEF[b]` (R18) -/
  coef : PerBand CoefSet
  /-- `LAST_GAIN[b]` (R20) -/
  lastGain : PerBand Word
  /-- `LAST_Q`, band MID only (R20) -/
  lastQ : Word
  /-- `VALID[b]`, bit 0 (R20) -/
  valid : PerBand Bool
  /-- `SNAP_LOW_GAIN` (R21) -/
  snapLowGain : Word
  /-- `SNAP_MID_GAIN` (R21) -/
  snapMidGain : Word
  /-- `SNAP_HIGH_GAIN` (R21) -/
  snapHighGain : Word
  /-- `SNAP_MID_Q` (R21) -/
  snapMidQ : Word
  /-- `SNAP_SAT`, bit 0 (R21) -/
  snapSat : Bool
  /-- `S[ch][b]` (R19) -/
  delay : Vector (PerBand Delay) Config.nch
  /-- `BUF[ch][i]`, what has been written since the last hardware reset (R26) -/
  buf : Memory
  /-- the model's own: how many hardware resets there have been, which selects the free values that
  the unwritten buffer holds (assumption 4) -/
  bufEpoch : Nat
  /-- the model's own: the host's events still to come, in bus order (R51, assumption 1) -/
  pending : List HostEvent
  /-- the model's own: the values that the host's reads have returned, the latest first (R233,
  assumption 3) -/
  readData : List Word
deriving DecidableEq, Repr

/-- Faults: there are none. The spec's errors never stop the core (R195): each is recorded in
`STATUS`, `ERR_CAUSE` and `ERR_CMD` and the next event is processed as usual (assumption 15). -/
inductive Fault where
deriving DecidableEq, Repr

/-- Refusals. -/
inductive Refusal where
  /-- Raised by an arm of `exec` whose command has no meaning yet: safe, the model makes no claim.
  No arm of this model raises it. -/
  | notModelled (mnemonic : String)
deriving DecidableEq, Repr

/-- The identity set (1, 0, 0, 0, 0) (R221). -/
def CoefSet.identity : CoefSet :=
  { b0 := 0x3F800000#32, b1 := 0#32, b2 := 0#32, a1 := 0#32, a2 := 0#32 }

/-- A delay pair holding +0.0 twice (R221). -/
def Delay.zero : Delay := { s1 := 0#32, s2 := 0#32 }

/-- The same value for each band. -/
def PerBand.all {α : Type} (x : α) : PerBand α := { low := x, mid := x, high := x }

/-- The machine right after hardware reset (R221, R222): no event has come from the host yet. -/
def State.reset : State :=
  { lowGainDb := 0#32
    midGainDb := 0#32
    highGainDb := 0#32
    midQ := 0x3F800000#32
    satEn := false
    sampleRateIn := 0#32
    maxBlockIn := 0#32
    opFs := 0#32
    opF0 := 0#32
    opQ := 0#32
    opGain := 0#32
    opX := 0#32
    cs := CoefSet.identity
    resY := 0#32
    life := .uninitialized
    eInvParam := false
    eUninit := false
    eBadCmd := false
    calcCount := 0#32
    errCause := none
    errCmd := 0#32
    fs := 0#32
    maxBlock := 0#32
    coef := PerBand.all CoefSet.identity
    lastGain := PerBand.all 0#32
    lastQ := 0#32
    valid := PerBand.all false
    snapLowGain := 0#32
    snapMidGain := 0#32
    snapHighGain := 0#32
    snapMidQ := 0x3F800000#32
    snapSat := false
    delay := Vector.replicate Config.nch (PerBand.all Delay.zero)
    buf := []
    bufEpoch := 0
    pending := []
    readData := [] }

end Sys2Proof.Machine
end

