-- ==== Sys2Proof/Machine/Flags.lean ====
section
/-! DEFINITION. The status register and the error record (R22, R23, R24, R196): the core has no
arithmetic condition codes, so these are its only flags. -/

namespace Sys2Proof.Machine

/-- `LIFE` as the two bits STATUS[1:0] (R22). -/
def Life.code : Life → BitVec 2
  | .uninitialized => 0#2
  | .prepared => 1#2
  | .active => 2#2

/-- The cause code of an error (R196). -/
def ErrorKind.code : ErrorKind → Word
  | .invalidParameter => 1#32
  | .uninitializedState => 2#32
  | .badCommand => 3#32

/-- `ERR_CAUSE` as read on the bus (R24): 0 when no error is recorded. -/
def errCauseWord : Option ErrorKind → Word
  | none => 0#32
  | some k => k.code

/-- `STATUS` as read on the bus (R23): [1:0] LIFE, [8] E_INVPARAM, [9] E_UNINIT, [10] E_BADCMD, the
others zero. -/
def statusWord (s : State) : Word :=
  0#21 ++ BitVec.ofBool s.eBadCmd ++ BitVec.ofBool s.eUninit ++ BitVec.ofBool s.eInvParam ++ 0#6 ++
    s.life.code

/-- The sticky flag of an error set (R196, R205). -/
def setErrorFlag (k : ErrorKind) (s : State) : State :=
  match k with
  | .invalidParameter => { s with eInvParam := true }
  | .uninitializedState => { s with eUninit := true }
  | .badCommand => { s with eBadCmd := true }

/-- The three sticky flags cleared (R183). -/
def clearErrorFlags (s : State) : State :=
  { s with eInvParam := false, eUninit := false, eBadCmd := false }

/-- The sticky flag of an error (R196). -/
def errorFlag (s : State) : ErrorKind → Bool
  | .invalidParameter => s.eInvParam
  | .uninitializedState => s.eUninit
  | .badCommand => s.eBadCmd

end Sys2Proof.Machine
end

