-- ==== Sys2Proof/Machine/Memory.lean ====
section
/-! DEFINITION. The sample buffer as memory: reading and writing one byte of the canonical list, and
one word of `BUF` (R26, R41). -/

namespace Sys2Proof.Machine

/-- What is listed at an address. -/
def Memory.lookup : Memory → Nat → Option Byte
  | [], _ => none
  | (a, v) :: rest, k => if k = a then some v else Memory.lookup rest k

/-- Lists a byte at an address, in place of what was listed there, keeping the addresses rising. -/
def Memory.store : Memory → Nat → Byte → Memory
  | [], k, v => [(k, v)]
  | (a, x) :: rest, k, v =>
    if k < a then (k, v) :: (a, x) :: rest
    else if k = a then (k, v) :: rest
    else (a, x) :: Memory.store rest k v

/-- The bus address of `BUF[ch][i]`: 0x1000 + 0x1000·ch + i (R41). -/
def bufAddr (ch i : Nat) : Nat := 0x1000 + 0x1000 * ch + i

/-- One byte of memory: what was written there since the last hardware reset, else the free value
the buffer holds after that reset (R222). -/
def readByte (s : State) (a : Nat) : Byte :=
  (Memory.lookup s.buf a).getD (Config.bufPowerOn s.bufEpoch a)

/-- The word of memory at a bus address: four bytes, the least significant first (assumption 5). -/
def readMemWord (s : State) (addr : Nat) : Word :=
  readByte s (4 * addr + 3) ++ readByte s (4 * addr + 2) ++ readByte s (4 * addr + 1) ++
    readByte s (4 * addr)

/-- Lists the four bytes of a word, the least significant first (assumption 5). -/
def Memory.storeWord (m : Memory) (addr : Nat) (v : Word) : Memory :=
  Memory.store
    (Memory.store
      (Memory.store
        (Memory.store m (4 * addr) (v.extractLsb' 0 8))
        (4 * addr + 1) (v.extractLsb' 8 8))
      (4 * addr + 2) (v.extractLsb' 16 8))
    (4 * addr + 3) (v.extractLsb' 24 8)

/-- The word of memory at a bus address written: all 32 bits as given (R26, R46). -/
def writeMemWord (addr : Nat) (v : Word) (s : State) : State :=
  { s with buf := Memory.storeWord s.buf addr v }

/-- `BUF[ch][i]` read (R26). -/
def readBuf (s : State) (ch i : Nat) : Word := readMemWord s (bufAddr ch i)

/-- `BUF[ch][i]` written (R26). -/
def writeBuf (ch i : Nat) (v : Word) (s : State) : State := writeMemWord (bufAddr ch i) v s

end Sys2Proof.Machine
end

