-- ==== Sys2Proof/Machine/Operands.lean ====
section
/-! DEFINITION. Operand forms: which register a band or channel operand names (R62, R150, R177), and
the indexed state `x[b]` and `S[ch][b]` (R9). -/

namespace Sys2Proof.Machine

/-- `x[b]` read. -/
def PerBand.get {α : Type} (p : PerBand α) : Band → α
  | .low => p.low
  | .mid => p.mid
  | .high => p.high

/-- `x[b] <- v`. -/
def PerBand.set {α : Type} (p : PerBand α) (b : Band) (v : α) : PerBand α :=
  match b with
  | .low => { p with low := v }
  | .mid => { p with mid := v }
  | .high => { p with high := v }

/-- The live gain register of a band (R150). -/
def liveGain (s : State) : Band → Word
  | .low => s.lowGainDb
  | .mid => s.midGainDb
  | .high => s.highGainDb

/-- The snapshot gain register of a band (R176). -/
def snapGain (s : State) : Band → Word
  | .low => s.snapLowGain
  | .mid => s.snapMidGain
  | .high => s.snapHighGain

/-- The delay states `S[ch][·]` of a channel (R19). -/
def chanDelay (s : State) (ch : Nat) : PerBand Delay :=
  (s.delay[ch]?).getD (PerBand.all Delay.zero)

/-- The delay states of a channel written; a channel that does not exist has none. -/
def setChanDelay (ch : Nat) (d : PerBand Delay) (s : State) : State :=
  { s with delay := s.delay.setIfInBounds ch d }

end Sys2Proof.Machine
end

