-- ==== Sys2Proof/Machine/Ops.lean ====
section
/-! DEFINITION. The operations that several commands share: error entry and its acknowledgement
(R205, R206), the invocation counter (R25), the delay states (R19), and hardware reset (R220). -/

namespace Sys2Proof.Machine

/-- Error entry, `raise X(w)` (R205): the flag is set, the cause and the command word recorded, and
nothing else changes. What the raising command does after it is the command's own rule. -/
def raiseError (k : ErrorKind) (w : Word) (s : State) : State :=
  { setErrorFlag k s with errCause := some k, errCmd := w }

/-- The acknowledgement of errors (R183, R206): the only return there is from error entry. -/
def acknowledgeErrors (s : State) : State :=
  { clearErrorFlags s with errCause := none, errCmd := 0#32 }

/-- One more invocation of the Coefficient Calculator, modulo 2^32 (R25, R101). -/
def countInvocation (s : State) : State := { s with calcCount := s.calcCount + 1#32 }

/-- One delay pair written: `S[ch][b] <- d` (R19). -/
def setDelay (ch : Nat) (b : Band) (d : Delay) (s : State) : State :=
  setChanDelay ch ((chanDelay s ch).set b d) s

/-- Every delay pair set to (+0.0, +0.0) (R153, R154). -/
def zeroDelays (s : State) : State :=
  { s with delay := Vector.replicate Config.nch (PerBand.all Delay.zero) }

/-- Hardware reset (R220 to R222): every piece of state takes its reset value and the sample buffer
holds arbitrary contents, not those of the reset before. The host's events still to come, and what
its reads have returned, are the host's and stay. -/
def hardwareReset (s : State) : State :=
  { State.reset with
    bufEpoch := s.bufEpoch + 1, pending := s.pending, readData := s.readData }

end Sys2Proof.Machine
end

