-- ==== Sys2Proof/Machine/Bus.lean ====
section
/-! DEFINITION. The host bus: the address map (R32, R41, R43), the read (R45) and the write (R46) of
one word. Writing `CMD` executes a command; that is Machine/Host.lean. -/

namespace Sys2Proof.Machine

/-- The five coefficients of a set, in address order (R16, R18). -/
inductive CoefField where
  | b0
  | b1
  | b2
  | a1
  | a2
deriving DecidableEq, Repr

/-- The two registers of a delay pair, in address order (R19). -/
inductive DelayField where
  | s1
  | s2
deriving DecidableEq, Repr

/-- The locations that the table of R32 names. -/
inductive Reg where
  | lowGainDb
  | midGainDb
  | highGainDb
  | midQ
  | satEn
  | sampleRateIn
  | maxBlockIn
  | opFs
  | opF0
  | opQ
  | opGain
  | opX
  /-- `CS_B0` to `CS_A2` -/
  | cs (f : CoefField)
  | resY
  | status
  | calcCount
  | errCause
  | errCmd
  | fs
  | maxBlock
  | cmd
  /-- `COEF[b]` -/
  | coef (b : Band) (f : CoefField)
  /-- `LAST_GAIN[b]` -/
  | lastGain (b : Band)
  | lastQ
  /-- `VALID[b]` -/
  | valid (b : Band)
  | snapLowGain
  | snapMidGain
  | snapHighGain
  | snapMidQ
  | snapSat
  /-- `S[ch][b].s1`, `S[ch][b].s2` -/
  | delay (ch : Nat) (b : Band) (f : DelayField)
  /-- `BUF[ch][i]` -/
  | buf (ch i : Nat)
deriving DecidableEq, Repr

/-- The band of a band number (R7). -/
def bandOfNat : Nat → Option Band
  | 0 => some .low
  | 1 => some .mid
  | 2 => some .high
  | _ => none

/-- The registers at 0x0000 to 0x001F (R32). -/
def fixedReg : Nat → Option Reg
  | 0x00 => some .lowGainDb
  | 0x01 => some .midGainDb
  | 0x02 => some .highGainDb
  | 0x03 => some .midQ
  | 0x04 => some .satEn
  | 0x05 => some .sampleRateIn
  | 0x06 => some .maxBlockIn
  | 0x08 => some .opFs
  | 0x09 => some .opF0
  | 0x0A => some .opQ
  | 0x0B => some .opGain
  | 0x0C => some .opX
  | 0x10 => some (.cs .b0)
  | 0x11 => some (.cs .b1)
  | 0x12 => some (.cs .b2)
  | 0x13 => some (.cs .a1)
  | 0x14 => some (.cs .a2)
  | 0x15 => some .resY
  | 0x18 => some .status
  | 0x19 => some .calcCount
  | 0x1A => some .errCause
  | 0x1B => some .errCmd
  | 0x1C => some .fs
  | 0x1D => some .maxBlock
  | 0x1F => some .cmd
  | _ => none

/-- The block of eight words of band b at 0x0020 + 8·b (R18, R20). -/
def bandReg (b : Band) : Nat → Option Reg
  | 0 => some (.coef b .b0)
  | 1 => some (.coef b .b1)
  | 2 => some (.coef b .b2)
  | 3 => some (.coef b .a1)
  | 4 => some (.coef b .a2)
  | 5 => some (.lastGain b)
  | 6 => if b = .mid then some .lastQ else none
  | 7 => some (.valid b)
  | _ => none

/-- The snapshot registers at 0x0038 + k (R21). -/
def snapReg : Nat → Option Reg
  | 0 => some .snapLowGain
  | 1 => some .snapMidGain
  | 2 => some .snapHighGain
  | 3 => some .snapMidQ
  | 4 => some .snapSat
  | _ => none

/-- The block of eight words of channel ch at 0x0040 + 8·ch: two words a band (R19). -/
def delayReg (ch k : Nat) : Option Reg :=
  match bandOfNat (k / 2) with
  | some b => some (.delay ch b (if k % 2 = 0 then .s1 else .s2))
  | none => none

/-- The address map (R32, R41); none is a reserved address (R43). -/
def regAt (a : Nat) : Option Reg :=
  if a < 0x20 then fixedReg a
  else if a < 0x38 then
    match bandOfNat ((a - 0x20) / 8) with
    | some b => bandReg b ((a - 0x20) % 8)
    | none => none
  else if a < 0x40 then snapReg (a - 0x38)
  else if a < 0x40 + 8 * Config.nch then delayReg ((a - 0x40) / 8) ((a - 0x40) % 8)
  else if a < 0x1000 then none
  else if a / 0x1000 - 1 < Config.nch ∧ a % 0x1000 < Config.bufDepth then
    some (.buf (a / 0x1000 - 1) (a % 0x1000))
  else none

/-- The number of a band (R7). -/
def bandNum : Band → Nat
  | .low => 0
  | .mid => 1
  | .high => 2

/-- The place of a coefficient in its block of addresses (R18). -/
def CoefField.num : CoefField → Nat
  | .b0 => 0
  | .b1 => 1
  | .b2 => 2
  | .a1 => 3
  | .a2 => 4

/-- The place of a delay register in its pair (R19). -/
def DelayField.num : DelayField → Nat
  | .s1 => 0
  | .s2 => 1

/-- The address of a location, from the formulas of R32. -/
def regAddr : Reg → Nat
  | .lowGainDb => 0x0000
  | .midGainDb => 0x0001
  | .highGainDb => 0x0002
  | .midQ => 0x0003
  | .satEn => 0x0004
  | .sampleRateIn => 0x0005
  | .maxBlockIn => 0x0006
  | .opFs => 0x0008
  | .opF0 => 0x0009
  | .opQ => 0x000A
  | .opGain => 0x000B
  | .opX => 0x000C
  | .cs f => 0x0010 + f.num
  | .resY => 0x0015
  | .status => 0x0018
  | .calcCount => 0x0019
  | .errCause => 0x001A
  | .errCmd => 0x001B
  | .fs => 0x001C
  | .maxBlock => 0x001D
  | .cmd => 0x001F
  | .coef b f => 0x0020 + 8 * bandNum b + f.num
  | .lastGain b => 0x0025 + 8 * bandNum b
  | .lastQ => 0x002E
  | .valid b => 0x0027 + 8 * bandNum b
  | .snapLowGain => 0x0038
  | .snapMidGain => 0x0039
  | .snapHighGain => 0x003A
  | .snapMidQ => 0x003B
  | .snapSat => 0x003C
  | .delay ch b f => 0x0040 + 8 * ch + 2 * bandNum b + f.num
  | .buf ch i => bufAddr ch i

/-- The locations that exist: a channel below NCH and an index below BUF_DEPTH (R32, R41). -/
def Reg.present : Reg → Bool
  | .delay ch _ _ => decide (ch < Config.nch)
  | .buf ch i => decide (ch < Config.nch) && decide (i < Config.bufDepth)
  | .lowGainDb | .midGainDb | .highGainDb | .midQ | .satEn | .sampleRateIn | .maxBlockIn
  | .opFs | .opF0 | .opQ | .opGain | .opX | .cs _ | .resY | .status | .calcCount | .errCause
  | .errCmd | .fs | .maxBlock | .cmd | .coef _ _ | .lastGain _ | .lastQ | .valid _
  | .snapLowGain | .snapMidGain | .snapHighGain | .snapMidQ | .snapSat => true

/-- The locations the host may write: the column RW of R32. -/
def Reg.hostWritable : Reg → Bool
  | .lowGainDb | .midGainDb | .highGainDb | .midQ | .satEn | .sampleRateIn | .maxBlockIn
  | .opFs | .opF0 | .opQ | .opGain | .opX | .cs _ | .buf _ _ => true
  | .resY | .status | .calcCount | .errCause | .errCmd | .fs | .maxBlock | .cmd | .coef _ _
  | .lastGain _ | .lastQ | .valid _ | .snapLowGain | .snapMidGain | .snapHighGain | .snapMidQ
  | .snapSat | .delay _ _ _ => false

/-- The bits of a location that exist (R44): bit 0 of the one-bit registers, all 32 of the others. -/
def Reg.implementedBits : Reg → Word
  | .satEn | .valid _ | .snapSat => 1#32
  | .status => 0x00000703#32
  | .errCause => 3#32
  | .cmd => 0#32
  | .lowGainDb | .midGainDb | .highGainDb | .midQ | .sampleRateIn | .maxBlockIn | .opFs | .opF0
  | .opQ | .opGain | .opX | .cs _ | .resY | .calcCount | .errCmd | .fs | .maxBlock | .coef _ _
  | .lastGain _ | .lastQ | .snapLowGain | .snapMidGain | .snapHighGain | .snapMidQ
  | .delay _ _ _ | .buf _ _ => 0xFFFFFFFF#32

/-- One coefficient of a set. -/
def CoefSet.get (c : CoefSet) : CoefField → Word
  | .b0 => c.b0
  | .b1 => c.b1
  | .b2 => c.b2
  | .a1 => c.a1
  | .a2 => c.a2

/-- One coefficient of a set replaced. -/
def CoefSet.set (c : CoefSet) (f : CoefField) (v : Word) : CoefSet :=
  match f with
  | .b0 => { c with b0 := v }
  | .b1 => { c with b1 := v }
  | .b2 => { c with b2 := v }
  | .a1 => { c with a1 := v }
  | .a2 => { c with a2 := v }

/-- One register of a delay pair. -/
def Delay.get (d : Delay) : DelayField → Word
  | .s1 => d.s1
  | .s2 => d.s2

/-- A one-bit register as a word: bits 31:1 read as zero (R44). -/
def bitWord (b : Bool) : Word := (BitVec.ofBool b).setWidth 32

/-- What a location holds, as read on the bus (R32, R44). -/
def readReg (s : State) : Reg → Word
  | .lowGainDb => s.lowGainDb
  | .midGainDb => s.midGainDb
  | .highGainDb => s.highGainDb
  | .midQ => s.midQ
  | .satEn => bitWord s.satEn
  | .sampleRateIn => s.sampleRateIn
  | .maxBlockIn => s.maxBlockIn
  | .opFs => s.opFs
  | .opF0 => s.opF0
  | .opQ => s.opQ
  | .opGain => s.opGain
  | .opX => s.opX
  | .cs f => s.cs.get f
  | .resY => s.resY
  | .status => statusWord s
  | .calcCount => s.calcCount
  | .errCause => errCauseWord s.errCause
  | .errCmd => s.errCmd
  | .fs => s.fs
  | .maxBlock => s.maxBlock
  | .cmd => 0#32
  | .coef b f => (s.coef.get b).get f
  | .lastGain b => s.lastGain.get b
  | .lastQ => s.lastQ
  | .valid b => bitWord (s.valid.get b)
  | .snapLowGain => s.snapLowGain
  | .snapMidGain => s.snapMidGain
  | .snapHighGain => s.snapHighGain
  | .snapMidQ => s.snapMidQ
  | .snapSat => bitWord s.snapSat
  | .delay ch b f => ((chanDelay s ch).get b).get f
  | .buf ch i => readBuf s ch i

/-- The host's store of v to a location: the host-writable ones take all 32 bits, or the implemented
ones; the read-only ones, and `CMD` which holds nothing, take none (R44, R46). -/
def writeReg (r : Reg) (v : Word) (s : State) : State :=
  match r with
  | .lowGainDb => { s with lowGainDb := v }
  | .midGainDb => { s with midGainDb := v }
  | .highGainDb => { s with highGainDb := v }
  | .midQ => { s with midQ := v }
  | .satEn => { s with satEn := v.getLsbD 0 }
  | .sampleRateIn => { s with sampleRateIn := v }
  | .maxBlockIn => { s with maxBlockIn := v }
  | .opFs => { s with opFs := v }
  | .opF0 => { s with opF0 := v }
  | .opQ => { s with opQ := v }
  | .opGain => { s with opGain := v }
  | .opX => { s with opX := v }
  | .cs f => { s with cs := s.cs.set f v }
  | .buf ch i => writeBuf ch i v s
  | .resY => s
  | .status => s
  | .calcCount => s
  | .errCause => s
  | .errCmd => s
  | .fs => s
  | .maxBlock => s
  | .cmd => s
  | .coef _ _ => s
  | .lastGain _ => s
  | .lastQ => s
  | .valid _ => s
  | .snapLowGain => s
  | .snapMidGain => s
  | .snapHighGain => s
  | .snapMidQ => s
  | .snapSat => s
  | .delay _ _ _ => s

/-- `MemRead(addr, 1)` (R45): a reserved address reads as zero (R43). -/
def memRead (s : State) (addr : Addr) : Word :=
  match regAt addr.toNat with
  | some r => readReg s r
  | none => 0#32

/-- `MemWrite(addr, 1, v)` other than to `CMD` (R46): a reserved address ignores the write (R43). -/
def memWrite (addr : Addr) (v : Word) (s : State) : State :=
  match regAt addr.toNat with
  | some r => writeReg r v s
  | none => s

end Sys2Proof.Machine
end

