-- ==== Sys2Proof/WellFormed.lean ====
section
/-! DEFINITION. Which commands are legal: the field values of R61. A band cannot be illegal once it
is a `Band`; the decoder makes that check (R68). -/

namespace Sys2Proof

/-- A channel field in formats C and BC: ch < NCH (R61). -/
def chLegal (ch : BitVec 4) : Bool := decide (ch.toNat < Config.nch)

/-- An input-channel count in format N: nin ≤ NCH (R61). -/
def ninLegal (nin : BitVec 4) : Bool := decide (nin.toNat ≤ Config.nch)

/-- The legal commands (R61). The n field of `BLOCK` is any 16-bit value: it is checked against
`MAX_BLOCK` when the command executes (R61, R176). -/
def Instr.wf : Instr → Bool
  | .nop => true
  | .prepare => true
  | .reset => true
  | .update _ => true
  | .chsample ch => chLegal ch
  | .block nin _ => ninLegal nin
  | .bqstep _ ch => chLegal ch
  | .bqreset _ ch => chLegal ch
  | .ldcoef _ => true
  | .calcls => true
  | .calchs => true
  | .calcpk => true
  | .sat => true
  | .clrerr => true

end Sys2Proof
end

