-- ==== Sys2Proof/Decode.lean ====
section
/-! DEFINITION. The decoder of R68, total on all 2^32 command words and rejecting by name, and the
encoder that assembles a command's word from the fields of R60 and the opcodes of R63. -/

namespace Sys2Proof

/-! ## Fields (R60, R62) -/

/-- Bits 31:24 (R60). -/
def opField (w : Word) : BitVec 8 := w.extractLsb' 24 8

/-- Bits 23:20 (R60). -/
def bandField (w : Word) : BitVec 4 := w.extractLsb' 20 4

/-- Bits 19:16 (R60). -/
def chField (w : Word) : BitVec 4 := w.extractLsb' 16 4

/-- Bits 15:0 (R60). -/
def nField (w : Word) : BitVec 16 := w.extractLsb' 0 16

/-- The five formats (R61). -/
inductive Format where
  /-- op only -/
  | z
  /-- op and band -/
  | b
  /-- op and ch -/
  | c
  /-- op, band and ch -/
  | bc
  /-- op, nin and n -/
  | n
deriving DecidableEq, Repr

/-- Why a word is illegal (R64), one name for each test of R68. -/
inductive DecodeError where
  /-- op is 0x0E to 0xFF -/
  | reservedOp
  /-- formats Z, C, N: the band field is not zero -/
  | bandNotZero
  /-- formats B, BC: the band field is greater than 2 -/
  | bandOutOfRange
  /-- formats Z, B: the ch field is not zero -/
  | chNotZero
  /-- formats C, BC: the ch field is not below NCH -/
  | chOutOfRange
  /-- format N: the ch field, as nin, is greater than NCH -/
  | ninOutOfRange
  /-- formats other than N: the n field is not zero -/
  | nNotZero
deriving DecidableEq, Repr

/-- The band of a band number (R60). -/
def Band.ofField (f : BitVec 4) : Option Band :=
  if f = 0#4 then some .low else if f = 1#4 then some .mid
  else if f = 2#4 then some .high else none

/-- The number of a band (R60). -/
def Band.toField : Band → BitVec 4
  | .low => 0#4
  | .mid => 1#4
  | .high => 2#4

/-! ## Decoding (R68) -/

/-- The format of an opcode (R63); none for the reserved ones. -/
def formatOf (op : BitVec 8) : Option Format :=
  match op.toNat with
  | 0x00 => some .z
  | 0x01 => some .z
  | 0x02 => some .z
  | 0x03 => some .b
  | 0x04 => some .c
  | 0x05 => some .n
  | 0x06 => some .bc
  | 0x07 => some .bc
  | 0x08 => some .b
  | 0x09 => some .z
  | 0x0A => some .z
  | 0x0B => some .z
  | 0x0C => some .z
  | 0x0D => some .z
  | _ => none

/-- The field tests of R68, in its order; the first that fails names the error. -/
def fieldError (fmt : Format) (band ch : BitVec 4) (n : BitVec 16) : Option DecodeError :=
  if (fmt = .z ∨ fmt = .c ∨ fmt = .n) ∧ band ≠ 0#4 then some .bandNotZero
  else if (fmt = .b ∨ fmt = .bc) ∧ Band.ofField band = none then some .bandOutOfRange
  else if (fmt = .z ∨ fmt = .b) ∧ ch ≠ 0#4 then some .chNotZero
  else if (fmt = .c ∨ fmt = .bc) ∧ chLegal ch = false then some .chOutOfRange
  else if fmt = .n ∧ ninLegal ch = false then some .ninOutOfRange
  else if fmt ≠ .n ∧ n ≠ 0#16 then some .nNotZero
  else none

/-- The command of an opcode and its legal fields (R63). -/
def commandOf (op : BitVec 8) (band : Band) (ch : BitVec 4) (n : BitVec 16) : Option Instr :=
  match op.toNat with
  | 0x00 => some .nop
  | 0x01 => some .prepare
  | 0x02 => some .reset
  | 0x03 => some (.update band)
  | 0x04 => some (.chsample ch)
  | 0x05 => some (.block ch n)
  | 0x06 => some (.bqstep band ch)
  | 0x07 => some (.bqreset band ch)
  | 0x08 => some (.ldcoef band)
  | 0x09 => some .calcls
  | 0x0A => some .calchs
  | 0x0B => some .calcpk
  | 0x0C => some .sat
  | 0x0D => some .clrerr
  | _ => none

/-- The decode procedure (R68): the command a word stands for, or why it is illegal (R64). -/
def decode (w : Word) : Except DecodeError Instr :=
  match formatOf (opField w) with
  | none => .error .reservedOp
  | some fmt =>
    match fieldError fmt (bandField w) (chField w) (nField w) with
    | some e => .error e
    | none =>
      match commandOf (opField w) ((Band.ofField (bandField w)).getD .low) (chField w) (nField w) with
      | some i => .ok i
      | none => .error .reservedOp

/-! ## Encoding (R60, R63) -/

/-- A word from its four fields (R60). -/
def assemble (op : BitVec 8) (band ch : BitVec 4) (n : BitVec 16) : Word := op ++ band ++ ch ++ n

/-- The word of a command (R60, R63). -/
def encode : Instr → Word
  | .nop => assemble 0x00#8 0#4 0#4 0#16
  | .prepare => assemble 0x01#8 0#4 0#4 0#16
  | .reset => assemble 0x02#8 0#4 0#4 0#16
  | .update band => assemble 0x03#8 band.toField 0#4 0#16
  | .chsample ch => assemble 0x04#8 0#4 ch 0#16
  | .block nin n => assemble 0x05#8 0#4 nin n
  | .bqstep band ch => assemble 0x06#8 band.toField ch 0#16
  | .bqreset band ch => assemble 0x07#8 band.toField ch 0#16
  | .ldcoef band => assemble 0x08#8 band.toField 0#4 0#16
  | .calcls => assemble 0x09#8 0#4 0#4 0#16
  | .calchs => assemble 0x0A#8 0#4 0#4 0#16
  | .calcpk => assemble 0x0B#8 0#4 0#4 0#16
  | .sat => assemble 0x0C#8 0#4 0#4 0#16
  | .clrerr => assemble 0x0D#8 0#4 0#4 0#16

/-- The command the decoder reads from an instruction whose bits are w, nbits of them: a command is
one 32-bit word (R60), and the bits above nbits are zero. -/
def decodeTableWord (nbits w : Nat) : Option Instr :=
  match decode (BitVec.ofNat 32 (w % 2 ^ nbits)) with
  | .ok i => some i
  | .error _ => none

end Sys2Proof
end

