-- ==== Sys2Proof/Machine/Biquad.lean ====
section
/-! DEFINITION. The Biquad Filter (42_biquad_filter.md): the step function (R131) and the commands
`BQSTEP`, `BQRESET`, `LDCOEF` (R133 to R135). -/

namespace Sys2Proof.Machine

/-- `bq_step(co, st, x)` (R131): transposed direct form II, each product and each sum rounded. -/
def bqStep (co : CoefSet) (st : Delay) (x : Word) : Word × Delay :=
  let y := fadd (fmul co.b0 x) st.s1
  (y, { s1 := fadd (fsub (fmul co.b1 x) (fmul co.a1 y)) st.s2,
        s2 := fsub (fmul co.b2 x) (fmul co.a2 y) })

/-- One `processSample` of the filter of (b, ch) (R133). -/
def stepFilter (b : Band) (ch : Nat) (s : State) : State :=
  let r := bqStep (s.coef.get b) ((chanDelay s ch).get b) s.opX
  { setDelay ch b r.2 s with resY := r.1 }

/-- `BQSTEP band, ch` (R133); an illegal channel is BadCommand (R199, assumption 11). -/
def execBqstep (band : Band) (ch : BitVec 4) (s : State) : Host.Outcome State Fault Refusal :=
  if chLegal ch then .next (stepFilter band ch.toNat s)
  else .next (raiseError .badCommand (encode (.bqstep band ch)) s)

/-- `BQRESET band, ch` (R134); an illegal channel is BadCommand (R199, assumption 11). -/
def execBqreset (band : Band) (ch : BitVec 4) (s : State) : Host.Outcome State Fault Refusal :=
  if chLegal ch then .next (setDelay ch.toNat band Delay.zero s)
  else .next (raiseError .badCommand (encode (.bqreset band ch)) s)

/-- `LDCOEF band` (R135): a pure move of five patterns. -/
def execLdcoef (band : Band) (s : State) : Host.Outcome State Fault Refusal :=
  .next { s with coef := s.coef.set band s.cs }

end Sys2Proof.Machine
end

