-- ==== Sys2Proof/Machine/Transcendental.lean ====
section
/-! DEFINITION. The configuration functions `fsin`, `fcos`, `ftanh`, `fexp10` as the datapath applies
them (R96 to R99). The points that the spec fixes for every instance (NaN, zeros and subnormals,
infinities) are written out, so that they compute; everywhere else the value is the
implementation's. Laws/Transcendental.lean proves each equal to the implementation's function. -/

namespace Sys2Proof.Machine

/-- `fsin` (R96, R97). -/
def fsin (v : Word) : Word :=
  if isNaN v then qnan
  else if isInf v then qnan
  else if isZero (flush v) then flush v
  else Config.sinImpl.val.1 v

/-- `fcos` (R96, R97). -/
def fcos (v : Word) : Word :=
  if isNaN v then qnan
  else if isInf v then qnan
  else if isZero (flush v) then one
  else Config.cosImpl.val.1 v

/-- `ftanh` (R96, R98). -/
def ftanh (v : Word) : Word :=
  if isNaN v then qnan
  else if isInf v then (if signBit v then negOne else one)
  else if isZero (flush v) then flush v
  else Config.tanhImpl.val.1 v

/-- `fexp10` (R96, R99). -/
def fexp10 (v : Word) : Word :=
  if isNaN v then qnan
  else if isInf v then (if signBit v then posZero else signedInf false)
  else if isZero (flush v) then one
  else Config.exp10Impl.val.1 v

/-- Decibels to linear gain (R100): `db2lin(G) = fexp10(fdiv(G, 20))`. -/
def db2lin (g : Word) : Word := fexp10 (fdiv g twenty)

end Sys2Proof.Machine
end

