-- ==== Sys2Proof/Machine/Calculator.lean ====
section
/-! DEFINITION. The Coefficient Calculator (41_coefficient_calculator.md): validity (R111), prelude
(R112), the three functions (R113 to R115), normalisation (R116), and the commands `CALCLS`,
`CALCHS`, `CALCPK` (R117 to R119). -/

namespace Sys2Proof.Machine

/-- `calc_valid(fs, f0, q, g)` (R111). -/
def calcValid (fs f0 q g : Word) : Bool :=
  isFinite fs && isFinite f0 && isFinite q && isFinite g && flt posZero fs && flt posZero f0 &&
    flt f0 (fmul fs half) && flt posZero q && flt posZero g

/-- What the prelude computes (R112): A, w0, c = cos w0, s = sin w0. -/
structure Prelude where
  A : Word
  w0 : Word
  c : Word
  s : Word
deriving DecidableEq, Repr

/-- The normalised frequency w0 = 2π·f0/fs (R112). -/
def omega0 (fs f0 : Word) : Word := fdiv (fmul twoPi f0) fs

/-- The prelude of the three functions (R112). -/
def calcPrelude (fs f0 g : Word) : Prelude :=
  { A := fsqrt g, w0 := omega0 fs f0, c := fcos (omega0 fs f0), s := fsin (omega0 fs f0) }

/-- The six unnormalised values b0', b1', b2', a0', a1', a2' (R116). -/
structure RawSet where
  b0 : Word
  b1 : Word
  b2 : Word
  a0 : Word
  a1 : Word
  a2 : Word
deriving DecidableEq, Repr

/-- Normalisation: five divisions by a0' (R116). -/
def normalise (r : RawSet) : CoefSet :=
  { b0 := fdiv r.b0 r.a0, b1 := fdiv r.b1 r.a0, b2 := fdiv r.b2 r.a0,
    a1 := fdiv r.a1 r.a0, a2 := fdiv r.a2 r.a0 }

/-- The peak filter's unnormalised values from the prelude and q (R113). -/
def rawPeak (p : Prelude) (q : Word) : RawSet :=
  let alpha := fdiv p.s (fmul two q)
  let aA := fmul alpha p.A
  let aOA := fdiv alpha p.A
  let b1 := fneg (fmul two p.c)
  { b0 := fadd one aA, b1 := b1, b2 := fsub one aA,
    a0 := fadd one aOA, a1 := b1, a2 := fsub one aOA }

/-- The terms that the two shelves share (R114, R115). -/
structure ShelfTerms where
  Am1 : Word
  beta : Word
  Ap1c : Word
  m : Word
  p : Word
deriving DecidableEq, Repr

/-- The shared shelf terms from the prelude and q (R114). -/
def shelfTerms (p : Prelude) (q : Word) : ShelfTerms :=
  let Ap1 := fadd p.A one
  let Am1 := fsub p.A one
  let Am1c := fmul Am1 p.c
  { Am1 := Am1, beta := fdiv (fmul p.s (fsqrt p.A)) q, Ap1c := fmul Ap1 p.c,
    m := fsub Ap1 Am1c, p := fadd Ap1 Am1c }

/-- The low shelf's unnormalised values (R114). -/
def rawLowShelf (p : Prelude) (q : Word) : RawSet :=
  let t := shelfTerms p q
  { b0 := fmul p.A (fadd t.m t.beta)
    b1 := fmul (fmul two p.A) (fsub t.Am1 t.Ap1c)
    b2 := fmul p.A (fsub t.m t.beta)
    a0 := fadd t.p t.beta
    a1 := fneg (fmul two (fadd t.Am1 t.Ap1c))
    a2 := fsub t.p t.beta }

/-- The high shelf's unnormalised values (R115). -/
def rawHighShelf (p : Prelude) (q : Word) : RawSet :=
  let t := shelfTerms p q
  { b0 := fmul p.A (fadd t.p t.beta)
    b1 := fneg (fmul (fmul two p.A) (fadd t.Am1 t.Ap1c))
    b2 := fmul p.A (fsub t.p t.beta)
    a0 := fadd t.m t.beta
    a1 := fmul two (fsub t.Am1 t.Ap1c)
    a2 := fsub t.m t.beta }

/-- `calc_ls(fs, f0, q, g)` (R114); none is the verdict InvalidParameter (R111). -/
def calcLs (fs f0 q g : Word) : Option CoefSet :=
  if calcValid fs f0 q g then some (normalise (rawLowShelf (calcPrelude fs f0 g) q)) else none

/-- `calc_hs(fs, f0, q, g)` (R115). -/
def calcHs (fs f0 q g : Word) : Option CoefSet :=
  if calcValid fs f0 q g then some (normalise (rawHighShelf (calcPrelude fs f0 g) q)) else none

/-- `calc_peak(fs, f0, q, g)` (R113). -/
def calcPeak (fs f0 q g : Word) : Option CoefSet :=
  if calcValid fs f0 q g then some (normalise (rawPeak (calcPrelude fs f0 g) q)) else none

/-- What the three commands share (R117): the invocation is counted, then the staged set is written
or InvalidParameter is raised. -/
def finishCalc (w : Word) (r : Option CoefSet) (s : State) : State :=
  match r with
  | none => raiseError .invalidParameter w (countInvocation s)
  | some c => { countInvocation s with cs := c }

/-- `CALCLS` (R117). -/
def execCalcls (s : State) : Host.Outcome State Fault Refusal :=
  .next (finishCalc (encode .calcls) (calcLs s.opFs s.opF0 s.opQ s.opGain) s)

/-- `CALCHS` (R118). -/
def execCalchs (s : State) : Host.Outcome State Fault Refusal :=
  .next (finishCalc (encode .calchs) (calcHs s.opFs s.opF0 s.opQ s.opGain) s)

/-- `CALCPK` (R119). -/
def execCalcpk (s : State) : Host.Outcome State Fault Refusal :=
  .next (finishCalc (encode .calcpk) (calcPeak s.opFs s.opF0 s.opQ s.opGain) s)

end Sys2Proof.Machine
end

