-- ==== Sys2Proof/Machine/Chain.lean ====
section
/-! DEFINITION. The Filter Chain (43_filter_chain.md): the sample path (R147), the band update with
change detection (R149, R151, R152), and the commands `PREPARE`, `RESET`, `UPDATE`, `CHSAMPLE`
(R148, R150, R153, R154). -/

namespace Sys2Proof.Machine

/-! ## Sample path -/

/-- The three filters of a channel in series, LOW, MID, HIGH (R146, R147), on the three coefficient
sets and the channel's delay states. -/
def chainStep (co : PerBand CoefSet) (d : PerBand Delay) (x : Word) : Word × PerBand Delay :=
  let r1 := bqStep co.low d.low x
  let r2 := bqStep co.mid d.mid r1.1
  let r3 := bqStep co.high d.high r2.1
  (r3.1, { low := r1.2, mid := r2.2, high := r3.2 })

/-- `chain_sample(ch, x)` (R147): the output, and the state with the channel's delays written. -/
def chainSample (ch : Nat) (x : Word) (s : State) : Word × State :=
  let r := chainStep s.coef (chanDelay s ch) x
  (r.1, setChanDelay ch r.2 s)

/-! ## Band update -/

/-- A parameter that cannot be clamped: a NaN gain, or for MID a NaN Q (R149, R197). -/
def paramNaN (b : Band) (g q : Word) : Bool := isNaN g || (b == .mid && isNaN q)

/-- The cache of the band holds these very patterns (R149, R151). -/
def cacheHit (b : Band) (g q : Word) (s : State) : Bool :=
  s.valid.get b && s.lastGain.get b == g && (b != .mid || s.lastQ == q)

/-- The calculator call of a band (R146, R149): its kind, its fixed frequency, its Q, and the linear
gain; the live Q is clamped (R152). -/
def designBand (b : Band) (fs q g : Word) : Option CoefSet :=
  match b with
  | .low => calcLs fs fLow shelfQ g
  | .mid => calcPeak fs fMid (clampf q qMin qMax) g
  | .high => calcHs fs fHigh shelfQ g

/-- The linear gain of a gain parameter: clamped to [-12, 12] dB and converted (R152). -/
def linearGain (g : Word) : Word := db2lin (clampf g gainMin gainMax)

/-- The effect of a recomputation that gave the set r: the band's coefficients and cache (R149). -/
def applyBand (b : Band) (g q : Word) (r : CoefSet) (s : State) : State :=
  { s with
    coef := s.coef.set b r
    lastGain := s.lastGain.set b g
    lastQ := if b = .mid then q else s.lastQ
    valid := s.valid.set b true }

/-- `update_band(b, G, Q, w)` (R149). -/
def updateBand (b : Band) (g q w : Word) (s : State) : State :=
  if paramNaN b g q then raiseError .invalidParameter w s
  else if cacheHit b g q s then s
  else
    match designBand b s.fs q (linearGain g) with
    | none => raiseError .invalidParameter w (countInvocation s)
    | some r => applyBand b g q r (countInvocation s)

/-! ## Commands -/

/-- `PREPARE` accepts its operands: a finite rate above 24000 Hz, and a block size the buffer holds
(R153). -/
def prepareAccepts (s : State) : Bool :=
  isFinite s.sampleRateIn && flt srMinExcl s.sampleRateIn &&
    decide (s.maxBlockIn.toNat ≤ Config.bufDepth)

/-- The effect of an accepted `PREPARE` (R153). -/
def applyPrepare (s : State) : State :=
  { zeroDelays s with
    fs := s.sampleRateIn
    maxBlock := s.maxBlockIn
    valid := PerBand.all false
    life := .prepared }

/-- `PREPARE` (R153). -/
def execPrepare (s : State) : Host.Outcome State Fault Refusal :=
  if prepareAccepts s then .next (applyPrepare s)
  else .next (raiseError .invalidParameter (encode .prepare) s)

/-- `RESET` (R154). -/
def execReset (s : State) : Host.Outcome State Fault Refusal :=
  .next { zeroDelays s with life := if s.life = .active then .prepared else s.life }

/-- `UPDATE band` (R150). -/
def execUpdate (band : Band) (s : State) : Host.Outcome State Fault Refusal :=
  if s.life = .uninitialized then
    .next (raiseError .uninitializedState (encode (.update band)) s)
  else .next (updateBand band (liveGain s band) s.midQ (encode (.update band)) s)

/-- The effect of an accepted `CHSAMPLE` (R148). -/
def sampleChannel (ch : Nat) (s : State) : State :=
  let r := chainSample ch s.opX s
  { r.2 with resY := r.1, life := .active }

/-- `CHSAMPLE ch` (R148); an illegal channel is BadCommand, before the lifecycle test (R201). -/
def execChsample (ch : BitVec 4) (s : State) : Host.Outcome State Fault Refusal :=
  if chLegal ch = false then .next (raiseError .badCommand (encode (.chsample ch)) s)
  else if s.life = .uninitialized then
    .next (raiseError .uninitializedState (encode (.chsample ch)) s)
  else .next (sampleChannel ch.toNat s)

end Sys2Proof.Machine
end

