-- ==== Sys2Proof/Machine/Saturation.lean ====
section
/-! DEFINITION. The Saturation Stage (44_saturation.md): the soft clip (R166) and the command `SAT`
(R167). -/

namespace Sys2Proof.Machine

/-- The final clamp of `sat` on the result r of `ftanh` (R166). -/
def clampSat (r : Word) : Word :=
  if isNaN r then qnan
  else if flt maxLt1 r then maxLt1
  else if flt r (fneg maxLt1) then fneg maxLt1
  else r

/-- `sat(x)` (R166): tanh(2·x), kept strictly inside (-1, 1). -/
def sat (x : Word) : Word := clampSat (ftanh (fmul two x))

/-- The stage with its enable bit: disabled, a copy of the 32 bits (R167, R172, R181). -/
def saturate (enabled : Bool) (x : Word) : Word := if enabled then sat x else x

/-- `SAT` (R167): reads the live enable bit. -/
def execSat (s : State) : Host.Outcome State Fault Refusal :=
  .next { s with resY := saturate s.satEn s.opX }

end Sys2Proof.Machine
end

