-- ==== Sys2Proof/Machine/Block.lean ====
section
/-! DEFINITION. The Block Processor (45_block_processor.md): the command `BLOCK` (R176) and the
housekeeping commands `NOP` (R182) and `CLRERR` (R183). -/

namespace Sys2Proof.Machine

/-- The parameter snapshot, taken in one step (R177). -/
def takeSnapshot (s : State) : State :=
  { s with
    snapLowGain := s.lowGainDb
    snapMidGain := s.midGainDb
    snapHighGain := s.highGainDb
    snapMidQ := s.midQ
    snapSat := s.satEn }

/-- `BUF[c][0..n-1] <- +0.0` (R178). -/
def zeroFill (c : Nat) : Nat → State → State
  | 0, s => s
  | i + 1, s => writeBuf c i posZero (zeroFill c i s)

/-- The zero fill of the k channels from c on (R176, R178). -/
def zeroFillFrom (n : Nat) : Nat → Nat → State → State
  | _, 0, s => s
  | c, k + 1, s => zeroFillFrom n (c + 1) k (zeroFill c n s)

/-- The three band updates from the snapshot, LOW, MID, HIGH (R176); an error is recorded and the
block goes on (R203). -/
def updateBands (w : Word) (s : State) : State :=
  updateBand .high s.snapHighGain s.snapMidQ w
    (updateBand .mid s.snapMidGain s.snapMidQ w
      (updateBand .low s.snapLowGain s.snapMidQ w s))

/-- One sample of a block, in place (R176, R180): the chain, then the stage as `SNAP_SAT` says
(R181). -/
def blockSample (c i : Nat) (s : State) : State :=
  let r := chainSample c (readBuf s c i) s
  writeBuf c i (saturate s.snapSat r.1) r.2

/-- Samples 0 to n-1 of a channel, in ascending order (R179). -/
def blockChannel (c : Nat) : Nat → State → State
  | 0, s => s
  | i + 1, s => blockSample c i (blockChannel c i s)

/-- Channels 0 to k-1, in ascending order (R179). -/
def blockChannels (n : Nat) : Nat → State → State
  | 0, s => s
  | c + 1, s => blockChannel c n (blockChannels n c s)

/-- The effect of an accepted `BLOCK nin, n` with command word w (R176). -/
def processBlock (nin n : Nat) (w : Word) (s : State) : State :=
  let s1 := takeSnapshot s
  let s2 := zeroFillFrom n nin (Config.nch - nin) s1
  let s3 := updateBands w s2
  { blockChannels n Config.nch s3 with life := .active }

/-- `BLOCK nin, n` (R176): the tests in the order of R201, then the block. -/
def execBlock (nin : BitVec 4) (n : BitVec 16) (s : State) : Host.Outcome State Fault Refusal :=
  if ninLegal nin = false then .next (raiseError .badCommand (encode (.block nin n)) s)
  else if s.life = .uninitialized then
    .next (raiseError .uninitializedState (encode (.block nin n)) s)
  else if s.maxBlock.toNat < n.toNat then
    .next (raiseError .badCommand (encode (.block nin n)) s)
  else .next (processBlock nin.toNat n.toNat (encode (.block nin n)) s)

/-- `NOP` (R182): no state changes. -/
def execNop (s : State) : Host.Outcome State Fault Refusal := .next s

/-- `CLRERR` (R183). -/
def execClrerr (s : State) : Host.Outcome State Fault Refusal := .next (acknowledgeErrors s)

end Sys2Proof.Machine
end

