-- ==== Sys2Proof/Machine/Dispatch.lean ====
section
/-! DEFINITION. What each command does (R63), one arm a constructor. -/

namespace Sys2Proof.Machine

def exec (i : Instr) (s : State) : Host.Outcome State Fault Refusal :=
  match i with
  | .nop => Sys2Proof.Machine.execNop s
  | .prepare => Sys2Proof.Machine.execPrepare s
  | .reset => Sys2Proof.Machine.execReset s
  | .update band => Sys2Proof.Machine.execUpdate band s
  | .chsample ch => Sys2Proof.Machine.execChsample ch s
  | .block nin n => Sys2Proof.Machine.execBlock nin n s
  | .bqstep band ch => Sys2Proof.Machine.execBqstep band ch s
  | .bqreset band ch => Sys2Proof.Machine.execBqreset band ch s
  | .ldcoef band => Sys2Proof.Machine.execLdcoef band s
  | .calcls => Sys2Proof.Machine.execCalcls s
  | .calchs => Sys2Proof.Machine.execCalchs s
  | .calcpk => Sys2Proof.Machine.execCalcpk s
  | .sat => Sys2Proof.Machine.execSat s
  | .clrerr => Sys2Proof.Machine.execClrerr s

end Sys2Proof.Machine
end

