-- ==== Sys2Proof/Machine/Host.lean ====
section
/-! DEFINITION. What each event from the host does: a bus read, a bus write, the write of `CMD` that
executes a command (R27, R51), the reset input (R220); and how a command's word is placed as the
next event. -/

namespace Sys2Proof.Machine

/-- The address of `CMD` (R27). -/
def cmdAddr : Addr := 0x001F#16

/-- The word w written to `CMD` (R68): the command it decodes to is executed, or BadCommand is
raised, with nothing else changed (R64, R199). -/
def runCommand (w : Word) (s : State) : Host.Outcome State Fault Refusal :=
  match decode w with
  | .ok i => exec i s
  | .error _ => .next (raiseError .badCommand w s)

/-- One event, to completion (R51). A read changes no state of the core (R45); the value it returns
is kept for the host (assumption 3). -/
def hostEvent (e : HostEvent) (s : State) : Host.Outcome State Fault Refusal :=
  match e with
  | .busRead addr => .next { s with readData := memRead s addr :: s.readData }
  | .busWrite addr v => if addr = cmdAddr then runCommand v s else .next (memWrite addr v s)
  | .hwReset => .next (hardwareReset s)

/-- One step (R51): the next event of the bus order, the whole of it. With no event to come the core
is idle and holds its state (R213, R233, assumption 2). -/
def stepOnce (s : State) : Host.Outcome State Fault Refusal :=
  match s.pending with
  | [] => .next s
  | e :: rest => hostEvent e { s with pending := rest }

/-- The host's write of a command word to `CMD` placed as the next event. -/
def placeCommand (w : Word) (s : State) : State :=
  { s with pending := .busWrite cmdAddr w :: s.pending }

end Sys2Proof.Machine
end

