-- ==== Sys2Proof/Machine/Step.lean ====
section
/-! DEFINITION. The step function, and the placing of a command where the next step finds it. -/

namespace Sys2Proof.Machine

/-- One step of the machine (R51). -/
def step (s : State) : Host.Outcome State Fault Refusal := stepOnce s

/-- The state whose next step executes the command word w, nbits of it, the bits above being zero:
the core fetches nothing (R31), so the word is placed as the host's next write to `CMD`
(assumption 1). -/
def State.withFetchWord (s : State) (nbits w : Nat) : State :=
  placeCommand (BitVec.ofNat 32 (w % 2 ^ nbits)) s

end Sys2Proof.Machine
end

