-- ==== Sys2Proof/Machine/Ideal.lean ====
section
/-! DEFINITION. The ideal level (R102): the equations over exact numbers that the datapath stands
for. The filter designs (R112 to R116), the frequency response that their gains are said of (R121,
R122), the two-register step (R131), the difference equation (R130, R132), and the three filters in
series with the sine they settle to (R146, R188). The soft clip's shape is R166's and needs no
equation of its own here.

The equations are written over any field, with the prelude's values as arguments: A with A² = g,
c = cos w0 and s = sin w0 with c² + s² = 1 (R112). Nothing of the machine calls these definitions:
the hardware is defined by the datapath (R102). -/

namespace Sys2Proof.Ideal

/-- A coefficient set over exact numbers. -/
structure Coefs (K : Type) where
  b0 : K
  b1 : K
  b2 : K
  a1 : K
  a2 : K

/-- The six unnormalised values (R116). -/
structure Raw (K : Type) where
  b0 : K
  b1 : K
  b2 : K
  a0 : K
  a1 : K
  a2 : K

section Design

variable {K : Type} [Field K]

/-- Normalisation: divided by a0', so that a0 = 1 (R116). -/
def normalise (r : Raw K) : Coefs K :=
  { b0 := r.b0 / r.a0, b1 := r.b1 / r.a0, b2 := r.b2 / r.a0, a1 := r.a1 / r.a0, a2 := r.a2 / r.a0 }

/-- alpha = s / (2·q) (R113). -/
def alpha (s q : K) : K := s / (2 * q)

/-- The peak filter (R113). -/
def peak (A c alpha : K) : Raw K :=
  { b0 := 1 + alpha * A, b1 := -2 * c, b2 := 1 - alpha * A,
    a0 := 1 + alpha / A, a1 := -2 * c, a2 := 1 - alpha / A }

/-- The low shelf (R114), with beta = √A·s/q. -/
def lowShelf (A c beta : K) : Raw K :=
  { b0 := A * ((A + 1) - (A - 1) * c + beta)
    b1 := 2 * A * ((A - 1) - (A + 1) * c)
    b2 := A * ((A + 1) - (A - 1) * c - beta)
    a0 := (A + 1) + (A - 1) * c + beta
    a1 := -2 * ((A - 1) + (A + 1) * c)
    a2 := (A + 1) + (A - 1) * c - beta }

/-- The high shelf (R115). -/
def highShelf (A c beta : K) : Raw K :=
  { b0 := A * ((A + 1) + (A - 1) * c + beta)
    b1 := -2 * A * ((A - 1) + (A + 1) * c)
    b2 := A * ((A + 1) + (A - 1) * c - beta)
    a0 := (A + 1) - (A - 1) * c + beta
    a1 := 2 * ((A - 1) - (A + 1) * c)
    a2 := (A + 1) - (A - 1) * c - beta }

/-- The numerator polynomial at z⁻¹ = x (R121). -/
def Raw.num (r : Raw K) (x : K) : K := r.b0 + r.b1 * x + r.b2 * x ^ 2

/-- The denominator polynomial at z⁻¹ = x (R121). -/
def Raw.den (r : Raw K) (x : K) : K := r.a0 + r.a1 * x + r.a2 * x ^ 2

/-- The response of a filter at z⁻¹ = x, from its normalised coefficients, a0 = 1 (R121, R122). At
frequency 0 x is 1, at fs/2 it is -1, and at f0 it is e^(-j·w0) = c - j·s. -/
def Coefs.response (co : Coefs K) (x : K) : K :=
  (co.b0 + co.b1 * x + co.b2 * x ^ 2) / (1 + co.a1 * x + co.a2 * x ^ 2)

end Design

section Filter

variable {K : Type} [CommRing K]

/-- One step over exact numbers, from (s1, s2): the output and the new registers (R131). -/
def step (co : Coefs K) (st : K × K) (x : K) : K × (K × K) :=
  let y := co.b0 * x + st.1
  (y, (co.b1 * x - co.a1 * y + st.2, co.b2 * x - co.a2 * y))

/-- The registers before step n, from zero registers (R132). -/
def regs (co : Coefs K) (x : Nat → K) : Nat → K × K
  | 0 => (0, 0)
  | n + 1 => (step co (regs co x n) (x n)).2

/-- The output of step n, from zero registers (R132). -/
def output (co : Coefs K) (x : Nat → K) (n : Nat) : K := (step co (regs co x n) (x n)).1

/-- The value of a sample d steps before step n: zero before the first (R132). -/
def before (x : Nat → K) (n d : Nat) : K := if n < d then 0 else x (n - d)

/-- The three filters in series, from zero registers: low shelf, peak, high shelf (R146, R147). -/
def chainOutput (lo pk hi : Coefs K) (x : Nat → K) : Nat → K := output hi (output pk (output lo x))

end Filter

section Steady

/-- The coefficients as numbers of a larger field: the real ones as complex ones, for a response off
the real axis. -/
def Coefs.map {K L : Type} (f : K → L) (co : Coefs K) : Coefs L :=
  { b0 := f co.b0, b1 := f co.b1, b2 := f co.b2, a1 := f co.a1, a2 := f co.a2 }

/-- The sequence settles to a sine of w radians a sample and amplitude m, in some phase (R188). -/
def SettlesToSine (y : Nat → ℝ) (w m : ℝ) : Prop :=
  ∃ phase : ℝ, Filter.Tendsto (fun n : Nat => y n - m * Real.sin (w * n + phase)) Filter.atTop
    (nhds 0)

end Steady

end Sys2Proof.Ideal
end

