-- ==== Sys2Proof/Machine/Listing.lean ====
section
/-! DEFINITION. Host programs: the lines of a listing (R66), the pseudo-instructions with their
expansions (R67), a sequence of events run to its end (R233), and the unit-command sequence that
does what one block does (R189). -/

namespace Sys2Proof.Machine

/-! ## Listing lines (R66) -/

/-- `WR name, value` (R66). -/
def wr (r : Reg) (v : Word) : HostEvent := .busWrite (BitVec.ofNat 16 (regAddr r)) v

/-- `RD name` (R66). -/
def rd (r : Reg) : HostEvent := .busRead (BitVec.ofNat 16 (regAddr r))

/-- A command line: its word written to `CMD` (R66). -/
def cmdLine (i : Instr) : HostEvent := .busWrite cmdAddr (encode i)

/-! ## Pseudo-instructions (R67) -/

/-- `STOP`. -/
def pseudoStop : List HostEvent := [cmdLine .reset]

/-- `PROCESS n`. -/
def pseudoProcess (n : BitVec 16) : List HostEvent :=
  [cmdLine (.block (BitVec.ofNat 4 Config.nch) n)]

/-- `SETRATE r, m`. -/
def pseudoSetRate (r m : Word) : List HostEvent :=
  [wr .sampleRateIn r, wr .maxBlockIn m, cmdLine .prepare]

/-- `SETGAINS l, m, h`. -/
def pseudoSetGains (l m h : Word) : List HostEvent :=
  [wr .lowGainDb l, wr .midGainDb m, wr .highGainDb h]

/-- `UPDATEALL`. -/
def pseudoUpdateAll : List HostEvent :=
  [cmdLine (.update .low), cmdLine (.update .mid), cmdLine (.update .high)]

/-! ## Sequences -/

/-- What follows a next state; a fault or a refusal stays. -/
def andThen (o : Host.Outcome State Fault Refusal)
    (f : State → Host.Outcome State Fault Refusal) : Host.Outcome State Fault Refusal :=
  match o with
  | .next s => f s
  | .fault r => .fault r
  | .refused r => .refused r

/-- A finite sequence of events, each to completion, in order (R51, R233). -/
def runEvents : List HostEvent → State → Host.Outcome State Fault Refusal
  | [], s => .next s
  | e :: rest, s => andThen (hostEvent e s) (runEvents rest)

/-- One sample by unit commands (R189): `WR OP_X, BUF[c][i]` ; `CHSAMPLE c` ; if `SAT_EN` is set
`WR OP_X, RES_Y` ; `SAT` ; then `WR BUF[c][i], RES_Y`. -/
def unitSample (c i : Nat) (s : State) : Host.Outcome State Fault Refusal :=
  andThen (runEvents [wr .opX (readBuf s c i), cmdLine (.chsample (BitVec.ofNat 4 c))] s) fun t =>
    andThen (if t.satEn then runEvents [wr .opX t.resY, cmdLine .sat] t else .next t) fun u =>
      runEvents [wr (.buf c i) u.resY] u

/-- The samples 0 to n-1 of a channel by unit commands (R189). -/
def unitChannel (c : Nat) : Nat → State → Host.Outcome State Fault Refusal
  | 0, s => .next s
  | i + 1, s => andThen (unitChannel c i s) (unitSample c i)

/-- The channels 0 to k-1 by unit commands (R189). -/
def unitChannels (n : Nat) : Nat → State → Host.Outcome State Fault Refusal
  | 0, s => .next s
  | c + 1, s => andThen (unitChannels n c s) (unitChannel c n)

/-- The whole sequence of R189: the three band updates, then every sample of every channel. -/
def unitBlock (n : Nat) (s : State) : Host.Outcome State Fault Refusal :=
  andThen (runEvents pseudoUpdateAll s) (unitChannels n Config.nch)

end Sys2Proof.Machine
end

