-- ==== Sys2Proof/Safety.lean ====
section
/-! DEFINITION. What counts as a good state and a safe run, in the terms the statements use. -/

namespace Sys2Proof.Safety

open Sys2Proof.Machine

/-- The lifecycle invariant (R14, R234): prepared or active, `FS` is finite and above 24000 Hz and
`MAX_BLOCK` fits the buffer; uninitialized, `FS`, `MAX_BLOCK` and every `VALID` are zero. -/
def LifecycleInv (s : State) : Prop :=
  (s.life ≠ .uninitialized →
    isFinite s.fs = true ∧ flt srMinExcl s.fs = true ∧ s.maxBlock.toNat ≤ Config.bufDepth) ∧
  (s.life = .uninitialized → s.fs = 0#32 ∧ s.maxBlock = 0#32 ∧ s.valid = PerBand.all false)

/-- The error record agrees with itself (R204, R205): with no cause recorded no flag is set and no
word recorded, and the flag of the recorded cause is set. -/
def ErrorInv (s : State) : Prop :=
  match s.errCause with
  | none => (∀ k, errorFlag s k = false) ∧ s.errCmd = 0#32
  | some k => errorFlag s k = true

/-- The byte address a lies in a word of the sample buffer (R41). -/
def InBuffer (a : Nat) : Prop :=
  ∃ ch i k, ch < Config.nch ∧ i < Config.bufDepth ∧ k < 4 ∧ a = 4 * bufAddr ch i + k

/-- The memory has its canonical form and lists nothing outside the sample buffer. -/
def MemoryInv (s : State) : Prop := Memory.wf s.buf ∧ ∀ x ∈ s.buf, InBuffer x.1

/-- The invariant of the machine. -/
structure Inv (s : State) : Prop where
  lifecycle : LifecycleInv s
  errors : ErrorInv s
  memory : MemoryInv s

/-- A run of k steps ends in a state: it meets no fault and no refusal. -/
def Runs (k : Nat) (s : State) : Prop := ∃ t, Host.Core.run Sys2Proof.core k s = .next t

/-- The illegal command words, from the bits (R64): a reserved op; a band, ch or n field that the
format requires to be zero and is not; a band above 2; a channel not below NCH; nin above NCH. -/
def IllegalWord (w : Word) : Prop :=
  let op := w.toNat / 2 ^ 24
  let band := w.toNat / 2 ^ 20 % 16
  let ch := w.toNat / 2 ^ 16 % 16
  let n := w.toNat % 2 ^ 16
  0x0E ≤ op ∨
  (op ∉ [3, 6, 7, 8] ∧ band ≠ 0) ∨
  (op ∉ [4, 5, 6, 7] ∧ ch ≠ 0) ∨
  (op ≠ 5 ∧ n ≠ 0) ∨
  (op ∈ [3, 6, 7, 8] ∧ 2 < band) ∨
  (op ∈ [4, 6, 7] ∧ 2 ≤ ch) ∨
  (op = 5 ∧ 2 < ch)

/-- The reserved addresses, row by row of the table of R32 with NCH = 2 and BUF_DEPTH = 4096
(R43). -/
def ReservedAddr (a : Nat) : Prop :=
  a = 0x0007 ∨ (0x000D ≤ a ∧ a ≤ 0x000F) ∨ a = 0x0016 ∨ a = 0x0017 ∨ a = 0x001E ∨
  a = 0x0026 ∨ a = 0x0036 ∨ (0x003D ≤ a ∧ a ≤ 0x003F) ∨ a = 0x0046 ∨ a = 0x0047 ∨
  (0x004E ≤ a ∧ a ≤ 0x0FFF) ∨ 0x3000 ≤ a

/-- The state with its error record blanked: what R204 says no command depends on. -/
def eraseErrors (s : State) : State :=
  { s with eInvParam := false, eUninit := false, eBadCmd := false, errCause := none, errCmd := 0#32 }

/-- A coefficient set of finite values. -/
def FiniteSet (c : CoefSet) : Prop :=
  isFinite c.b0 = true ∧ isFinite c.b1 = true ∧ isFinite c.b2 = true ∧ isFinite c.a1 = true ∧
    isFinite c.a2 = true

/-- A delay pair of zeros, of either sign. -/
def ZeroPair (d : Delay) : Prop := isZero d.s1 = true ∧ isZero d.s2 = true

end Sys2Proof.Safety
end

