-- ==== Sys2Proof/Certificates/Slice0/Obligations.lean ====
section
/-! DEFINITION. The statements for the provers. -/

open Sys2Proof Sys2Proof.Machine Sys2Proof.Safety

/-! ## Encoding -/

/-- R60 to R63, R68: decoding the word of a legal command gives the command. -/
def Obligations.DecodeOfEncodeIsTheCommand : Prop :=
  ∀ i : Instr, i.wf = true → decode (encode i) = .ok i

/-- R60 to R63, R68: a word that decodes is the word of a legal command, so the word that a command
records in `ERR_CMD` is the word the host wrote. -/
def Obligations.EncodeOfDecodeIsTheWord : Prop :=
  ∀ (w : Word) (i : Instr), decode w = .ok i → i.wf = true ∧ encode i = w

/-- R64: the illegal words, named by their bits, are the ones that raise BadCommand and change no
other state; every other word is a command. -/
def Obligations.IllegalWordRaisesBadCommand : Prop :=
  ∀ (w : Word) (s : State) (rest : List HostEvent), s.pending = .busWrite 0x001F#16 w :: rest →
    (IllegalWord w → step s = .next { s with
      pending := rest, eBadCmd := true, errCause := some .badCommand, errCmd := w }) ∧
    (¬ IllegalWord w → ∃ i, decode w = .ok i)

/-- R66 and the vectors of section 2.8: a few words of the spec and what they stand for. -/
def Obligations.SpecExampleWordsDecode : Prop :=
  decode 0x03100000#32 = .ok (.update .mid) ∧
  decode 0x06210000#32 = .ok (.bqstep .high 1#4) ∧
  decode 0x05020040#32 = .ok (.block 2#4 64#16) ∧
  decode 0x07100000#32 = .ok (.bqreset .mid 0#4) ∧
  decode 0x04010000#32 = .ok (.chsample 1#4) ∧
  decode 0x08200000#32 = .ok (.ldcoef .high) ∧
  decode 0x0C000000#32 = .ok .sat

/-! ## Steps and the host bus -/

/-- R27, R51, R68: a word written to `CMD` that decodes to a command runs that command, on the state
with the event taken from the bus order; placing a word with `withFetchWord` makes it the next
event. -/
def Obligations.StepRunsTheDecodedCommand : Prop :=
  ∀ (w : Word) (i : Instr) (s : State), decode w = .ok i →
    (∀ rest, s.pending = .busWrite 0x001F#16 w :: rest → step s = exec i { s with pending := rest }) ∧
    step (s.withFetchWord 32 w.toNat) = exec i s

/-- R213, R233: with no event to come the core is idle and holds its state. That a step is then
taken at all is the model's choice (assumption 2). -/
def Obligations.IdleCoreHoldsItsState : Prop :=
  ∀ s : State, s.pending = [] → step s = .next s

/-- R45: a read returns the value at its address and changes no state of the core; two reads with
nothing between them return the same value. That the value returned is put at the head of `readData`
is the model's choice (assumption 3). -/
def Obligations.BusReadHasNoSideEffect : Prop :=
  ∀ (a : Addr) (s : State) (rest : List HostEvent), s.pending = .busRead a :: rest →
    ∃ t, step s = .next t ∧
      t = { s with pending := rest, readData := memRead s a :: s.readData } ∧
      ∀ a', memRead t a' = memRead s a'

/-- R32, R41: every location stands at its own address and at no other. -/
def Obligations.AddressMapIsOneToOne : Prop :=
  (∀ r : Reg, r.present = true → regAddr r < 2 ^ 16 ∧ regAt (regAddr r) = some r) ∧
  (∀ (a : Nat) (r : Reg), regAt a = some r → r.present = true ∧ regAddr r = a)

/-- R43: a reserved address reads as zero, and a write to it changes nothing. -/
def Obligations.ReservedAddressIsSilent : Prop :=
  ∀ (a : Addr) (v : Word) (s : State) (rest : List HostEvent), ReservedAddr a.toNat →
    memRead s a = 0#32 ∧
    (s.pending = .busWrite a v :: rest → step s = .next { s with pending := rest })

/-- R46 with R44: a write to a host-writable location replaces its implemented bits and no other
location changes; a write to a read-only one changes nothing. -/
def Obligations.BusWriteReplacesOneLocation : Prop :=
  ∀ (r : Reg) (a : Addr) (v : Word) (s : State) (rest : List HostEvent),
    r.present = true → a.toNat = regAddr r → r ≠ .cmd → s.pending = .busWrite a v :: rest →
    ∃ t, step s = .next t ∧ t.pending = rest ∧
      (r.hostWritable = true → memRead t a = v &&& r.implementedBits) ∧
      (∀ a', a' ≠ a → memRead t a' = memRead s a') ∧
      (r.hostWritable = false → t = { s with pending := rest })

/-- R44: the bits a location does not implement read as zero. -/
def Obligations.UnimplementedBitsReadZero : Prop :=
  ∀ (s : State) (r : Reg), readReg s r &&& ~~~ r.implementedBits = 0#32

/-! ## Reset -/

/-- R221, R222: what every address reads in the one state right after reset. The six ones; the
buffer's words; everything else zero. The clause about the buffer is the model's choice: that its
arbitrary contents are the free values `bufPowerOn` is assumption 4, that a word is four of them with
the least significant first is assumption 5, that it has 4096 words a channel is assumption 6. -/
def Obligations.ResetValues : Prop :=
  ∀ a : Addr, memRead State.reset a =
    if a ∈ [0x0003#16, 0x003B#16, 0x0010#16, 0x0020#16, 0x0028#16, 0x0030#16] then 0x3F800000#32
    else if 0x1000 ≤ a.toNat ∧ a.toNat < 0x3000 then
      Config.bufPowerOn 0 (4 * a.toNat + 3) ++ Config.bufPowerOn 0 (4 * a.toNat + 2) ++
        Config.bufPowerOn 0 (4 * a.toNat + 1) ++ Config.bufPowerOn 0 (4 * a.toNat)
    else 0#32

/-- R220, R221: a pulse of the reset input, from any state, gives every register its reset value.
That the host's events and read values are kept is the model's choice (assumption 10). -/
def Obligations.HardwareResetRestoresEveryRegister : Prop :=
  ∀ (s : State) (rest : List HostEvent), s.pending = .hwReset :: rest →
    ∃ t, step s = .next t ∧ t.pending = rest ∧ t.readData = s.readData ∧ t.buf = [] ∧
      ∀ a : Addr, a.toNat < 0x1000 ∨ 0x3000 ≤ a.toNat → memRead t a = memRead State.reset a

/-! ## Errors -/

/-- R205: error entry sets one flag, records the cause and the word, and changes nothing else. -/
def Obligations.ErrorEntryRecordsOnlyTheError : Prop :=
  ∀ (k : ErrorKind) (w : Word) (s : State),
    errorFlag (raiseError k w s) k = true ∧
    (∀ k', k' ≠ k → errorFlag (raiseError k w s) k' = errorFlag s k') ∧
    raiseError k w s = { s with
      eInvParam := errorFlag (raiseError k w s) .invalidParameter
      eUninit := errorFlag (raiseError k w s) .uninitializedState
      eBadCmd := errorFlag (raiseError k w s) .badCommand
      errCause := some k
      errCmd := w } ∧
    errCauseWord (raiseError k w s).errCause =
      (match k with
        | .invalidParameter => 1#32
        | .uninitializedState => 2#32
        | .badCommand => 3#32)

/-- R204: a step that is neither `CLRERR` nor a hardware reset leaves every set flag set. -/
def Obligations.ErrorFlagsAreSticky : Prop :=
  ∀ (s t : State) (k : ErrorKind), step s = .next t → errorFlag s k = true →
    s.pending.head? ≠ some .hwReset →
    s.pending.head? ≠ some (.busWrite 0x001F#16 0x0D000000#32) →
    errorFlag t k = true

/-- R204: no command's behaviour depends on the flags, `ERR_CAUSE` or `ERR_CMD`. Run from any error
record and from a blank one, a command does the same to everything else, and records the same error
or none: what it records on the blank record is what it records over the old cause and word, and
adds to the old flags. `CLRERR` leaves the same state whatever was recorded. -/
def Obligations.ErrorRecordInfluencesNoCommand : Prop :=
  ∀ (i : Instr) (s : State), ∃ t t', exec i s = .next t ∧ exec i (eraseErrors s) = .next t' ∧
    eraseErrors t' = eraseErrors t ∧
    (i ≠ .clrerr →
      t.errCause = (if t'.errCause = none then s.errCause else t'.errCause) ∧
      t.errCmd = (if t'.errCause = none then s.errCmd else t'.errCmd) ∧
      ∀ k, errorFlag t k = (errorFlag s k || errorFlag t' k)) ∧
    (i = .clrerr → t = t')

/-- R185, R195: every command ends in a next state, whatever the state; no run of steps meets a
fault or a refusal. -/
def Obligations.EveryRunContinues : Prop :=
  (∀ (i : Instr) (s : State), ∃ t, exec i s = .next t) ∧ ∀ (k : Nat) (s : State), Runs k s

/-- R198: `UPDATE`, `CHSAMPLE` and `BLOCK` before the first `PREPARE` record UninitializedState and
do nothing else; no other command records it. -/
def Obligations.UninitializedCommandsAreNoOps : Prop :=
  ∀ (i : Instr) (s : State), i.wf = true → s.life = .uninitialized →
    ((∃ b, i = .update b) ∨ (∃ c, i = .chsample c) ∨ (∃ m n, i = .block m n) →
      exec i s = .next { s with
        eUninit := true, errCause := some .uninitializedState, errCmd := encode i }) ∧
    (¬ ((∃ b, i = .update b) ∨ (∃ c, i = .chsample c) ∨ (∃ m n, i = .block m n)) →
      ∃ t, exec i s = .next t ∧ (t.eUninit = true → s.eUninit = true) ∧
        (t.errCause = some .uninitializedState → s.errCause = some .uninitializedState))

/-- R201: of the conditions a `BLOCK` meets, the first in the order decoder, lifecycle, block size
is the only one recorded. -/
def Obligations.BlockErrorPriority : Prop :=
  ∀ (nin : BitVec 4) (n : BitVec 16) (s : State) (rest : List HostEvent),
    s.pending = .busWrite 0x001F#16 (0x05000000#32 ||| (nin.setWidth 32 <<< 16) ||| n.setWidth 32)
      :: rest →
    (2 < nin.toNat → step s = .next (raiseError .badCommand
      (0x05000000#32 ||| (nin.setWidth 32 <<< 16) ||| n.setWidth 32) { s with pending := rest })) ∧
    (nin.toNat ≤ 2 → s.life = .uninitialized → step s = .next (raiseError .uninitializedState
      (0x05000000#32 ||| (nin.setWidth 32 <<< 16) ||| n.setWidth 32) { s with pending := rest })) ∧
    (nin.toNat ≤ 2 → s.life ≠ .uninitialized → s.maxBlock.toNat < n.toNat →
      step s = .next (raiseError .badCommand
        (0x05000000#32 ||| (nin.setWidth 32 <<< 16) ||| n.setWidth 32) { s with pending := rest }))

/-! ## Lifecycle and invariants -/

/-- R224: the lifecycle state after every command, and that prepared and active behave alike. When
`PREPARE` is accepted is R153's; its bound 4096 on the block size is `BUF_DEPTH` as R8 and D13 take
it, which is the model's choice (assumption 6, unsafe). -/
def Obligations.LifecycleTransitions : Prop :=
  (∀ (i : Instr) (s : State), i.wf = true → ∃ t, exec i s = .next t ∧ t.life =
    match i with
    | .prepare =>
      if isFinite s.sampleRateIn = true ∧ flt srMinExcl s.sampleRateIn = true ∧
        s.maxBlockIn.toNat ≤ 4096 then .prepared else s.life
    | .reset => if s.life = .active then .prepared else s.life
    | .block _ n =>
      if s.life ≠ .uninitialized ∧ n.toNat ≤ s.maxBlock.toNat then .active else s.life
    | .chsample _ => if s.life ≠ .uninitialized then .active else s.life
    | _ => s.life) ∧
  (∀ (s : State), (hardwareReset s).life = .uninitialized) ∧
  (∀ (i : Instr) (s : State), ∃ t t',
    exec i { s with life := .prepared } = .next t ∧ exec i { s with life := .active } = .next t' ∧
    { t with life := .active } = { t' with life := .active })

/-- R234: the invariant holds right after reset. -/
def Obligations.ResetMeetsTheInvariant : Prop := Inv State.reset

/-- R14, R234: every step keeps the invariant, from every state that has it. Its error clause and
its memory clause are this model's own inference from R204, R205 and R26. -/
def Obligations.EveryStepKeepsTheInvariant : Prop :=
  ∀ s t : State, Inv s → step s = .next t → Inv t

/-! ## Coefficient Calculator -/

/-- R117, R114: `CALCLS` counts an invocation, then stages the low shelf's set, or records
InvalidParameter when the operands are not valid. -/
def Obligations.CalclsStagesTheLowShelf : Prop :=
  ∀ s : State,
    (calcValid s.opFs s.opF0 s.opQ s.opGain = true →
      let A := fsqrt s.opGain
      let w0 := fdiv (fmul twoPi s.opF0) s.opFs
      let beta := fdiv (fmul (fsin w0) (fsqrt A)) s.opQ
      let Am1c := fmul (fsub A one) (fcos w0)
      let Ap1c := fmul (fadd A one) (fcos w0)
      let m := fsub (fadd A one) Am1c
      let p := fadd (fadd A one) Am1c
      let a0 := fadd p beta
      exec .calcls s = .next { s with
        calcCount := s.calcCount + 1#32
        cs :=
          { b0 := fdiv (fmul A (fadd m beta)) a0
            b1 := fdiv (fmul (fmul two A) (fsub (fsub A one) Ap1c)) a0
            b2 := fdiv (fmul A (fsub m beta)) a0
            a1 := fdiv (fneg (fmul two (fadd (fsub A one) Ap1c))) a0
            a2 := fdiv (fsub p beta) a0 } }) ∧
    (calcValid s.opFs s.opF0 s.opQ s.opGain = false →
      exec .calcls s = .next { s with
        calcCount := s.calcCount + 1#32
        eInvParam := true, errCause := some .invalidParameter, errCmd := 0x09000000#32 })

/-- R118, R115: `CALCHS` counts an invocation, then stages the high shelf's set, or records
InvalidParameter when the operands are not valid. -/
def Obligations.CalchsStagesTheHighShelf : Prop :=
  ∀ s : State,
    (calcValid s.opFs s.opF0 s.opQ s.opGain = true →
      let A := fsqrt s.opGain
      let w0 := fdiv (fmul twoPi s.opF0) s.opFs
      let beta := fdiv (fmul (fsin w0) (fsqrt A)) s.opQ
      let Am1c := fmul (fsub A one) (fcos w0)
      let Ap1c := fmul (fadd A one) (fcos w0)
      let m := fsub (fadd A one) Am1c
      let p := fadd (fadd A one) Am1c
      let a0 := fadd m beta
      exec .calchs s = .next { s with
        calcCount := s.calcCount + 1#32
        cs :=
          { b0 := fdiv (fmul A (fadd p beta)) a0
            b1 := fdiv (fneg (fmul (fmul two A) (fadd (fsub A one) Ap1c))) a0
            b2 := fdiv (fmul A (fsub p beta)) a0
            a1 := fdiv (fmul two (fsub (fsub A one) Ap1c)) a0
            a2 := fdiv (fsub m beta) a0 } }) ∧
    (calcValid s.opFs s.opF0 s.opQ s.opGain = false →
      exec .calchs s = .next { s with
        calcCount := s.calcCount + 1#32
        eInvParam := true, errCause := some .invalidParameter, errCmd := 0x0A000000#32 })

/-- R119, R113: `CALCPK` counts an invocation, then stages the peak filter's set, or records
InvalidParameter when the operands are not valid. -/
def Obligations.CalcpkStagesThePeak : Prop :=
  ∀ s : State,
    (calcValid s.opFs s.opF0 s.opQ s.opGain = true →
      let A := fsqrt s.opGain
      let w0 := fdiv (fmul twoPi s.opF0) s.opFs
      let alpha := fdiv (fsin w0) (fmul two s.opQ)
      let b1 := fneg (fmul two (fcos w0))
      let a0 := fadd one (fdiv alpha A)
      exec .calcpk s = .next { s with
        calcCount := s.calcCount + 1#32
        cs :=
          { b0 := fdiv (fadd one (fmul alpha A)) a0
            b1 := fdiv b1 a0
            b2 := fdiv (fsub one (fmul alpha A)) a0
            a1 := fdiv b1 a0
            a2 := fdiv (fsub one (fdiv alpha A)) a0 } }) ∧
    (calcValid s.opFs s.opF0 s.opQ s.opGain = false →
      exec .calcpk s = .next { s with
        calcCount := s.calcCount + 1#32
        eInvParam := true, errCause := some .invalidParameter, errCmd := 0x0B000000#32 })

/-- R111, R83: operands are valid exactly when they pass the nine tests: each of the four is finite
and above zero (a subnormal counts as zero, so each is a normal number of positive sign), and f0 is
below half the rate. For four such operands the last test, taken on the rounded product, is the exact
one, 2·f0 < fs, also where the product underflows. -/
def Obligations.CalcValidIsTheNineTests : Prop :=
  ∀ fs f0 q g : Word,
    (calcValid fs f0 q g = true ↔
      (∀ v, v ∈ [fs, f0, q, g] → isFinite v = true ∧ signBit v = false ∧ isZero v = false ∧
        isSubnormal v = false) ∧
      flt f0 (fmul fs half) = true) ∧
    ((∀ v, v ∈ [fs, f0] → isFinite v = true ∧ signBit v = false ∧ isZero v = false ∧
        isSubnormal v = false) →
      (flt f0 (fmul fs half) = true ↔ 2 * units f0 < units fs))

/-- R120: at gain 1.0, with a0' finite and not zero, each function returns b0 = 1.0 and b2 = a2, the
peak also b1 = a1; a shelf returns b1 = a1 too unless cos w0 is a zero, and then b1 and a1 are both
zeros. The first part says so of the normalised values for every prelude with A = 1.0, the second
that these are what the functions return at gain 1.0. -/
def Obligations.UnityAtGainOne : Prop :=
  (∀ (p : Prelude) (q : Word), p.A = one →
    (∀ r, r = rawPeak p q → isFinite r.a0 = true → isZero r.a0 = false →
      (normalise r).b0 = one ∧ (normalise r).b1 = (normalise r).a1 ∧
        (normalise r).b2 = (normalise r).a2) ∧
    (∀ r, r = rawLowShelf p q ∨ r = rawHighShelf p q → isFinite r.a0 = true →
      isZero r.a0 = false →
      (normalise r).b0 = one ∧ (normalise r).b2 = (normalise r).a2 ∧
        (isZero (flush p.c) = false → (normalise r).b1 = (normalise r).a1) ∧
        (isZero (flush p.c) = true →
          isZero (normalise r).b1 = true ∧ isZero (normalise r).a1 = true))) ∧
  (∀ fs f0 q : Word, calcValid fs f0 q one = true →
    (calcPrelude fs f0 one).A = one ∧
    calcPeak fs f0 q one = some (normalise (rawPeak (calcPrelude fs f0 one) q)) ∧
    calcLs fs f0 q one = some (normalise (rawLowShelf (calcPrelude fs f0 one) q)) ∧
    calcHs fs f0 q one = some (normalise (rawHighShelf (calcPrelude fs f0 one) q)))

/-! ## Biquad Filter -/

/-- R133, R131: `BQSTEP` computes one output and the two new delay registers of one filter, and
touches no other filter. -/
def Obligations.BqstepComputesOneSample : Prop :=
  ∀ (b : Band) (ch : BitVec 4) (s : State), ch.toNat < 2 →
    let co := s.coef.get b
    let st := (chanDelay s ch.toNat).get b
    let y := fadd (fmul co.b0 s.opX) st.s1
    ∃ t, exec (.bqstep b ch) s = .next t ∧
      t = { s with delay := t.delay, resY := y } ∧
      (chanDelay t ch.toNat).get b =
        { s1 := fadd (fsub (fmul co.b1 s.opX) (fmul co.a1 y)) st.s2
          s2 := fsub (fmul co.b2 s.opX) (fmul co.a2 y) } ∧
      ∀ c' b', ¬ (c' = ch.toNat ∧ b' = b) →
        (chanDelay t c').get b' = (chanDelay s c').get b'

/-- R134: `BQRESET` zeroes both delay registers of one filter and changes nothing else. -/
def Obligations.BqresetZeroesOneFilter : Prop :=
  ∀ (b : Band) (ch : BitVec 4) (s : State), ch.toNat < 2 →
    ∃ t, exec (.bqreset b ch) s = .next t ∧ t = { s with delay := t.delay } ∧
      (chanDelay t ch.toNat).get b = { s1 := 0x00000000#32, s2 := 0x00000000#32 } ∧
      ∀ c' b', ¬ (c' = ch.toNat ∧ b' = b) →
        (chanDelay t c').get b' = (chanDelay s c').get b'

/-- R135: `LDCOEF` copies the staged set to the band's coefficients, and changes nothing else: not
the cache, not a delay, not another band. -/
def Obligations.LdcoefMovesTheStagedSet : Prop :=
  ∀ (b : Band) (s : State),
    ∃ t, exec (.ldcoef b) s = .next t ∧ t = { s with coef := t.coef } ∧
      (t.coef.get b).b0 = s.cs.b0 ∧ (t.coef.get b).b1 = s.cs.b1 ∧ (t.coef.get b).b2 = s.cs.b2 ∧
      (t.coef.get b).a1 = s.cs.a1 ∧ (t.coef.get b).a2 = s.cs.a2 ∧
      ∀ b', b' ≠ b → t.coef.get b' = s.coef.get b'

/-- R137: a NaN sample or a NaN in s1 makes the output and both registers the canonical NaN, and a
NaN in s2 makes the next s1 one: a filter does not recover by itself. -/
def Obligations.NaNPoisonsTheFilter : Prop :=
  ∀ (co : CoefSet) (st : Delay) (x : Word),
    (isNaN x = true ∨ isNaN st.s1 = true →
      bqStep co st x = (0x7FC00000#32, { s1 := 0x7FC00000#32, s2 := 0x7FC00000#32 })) ∧
    (isNaN st.s2 = true → (bqStep co st x).2.s1 = 0x7FC00000#32)

/-- R139: with the coefficients of a unity filter, zero registers and a sample that is zero or
normal, the output is the sample and the registers stay zero. -/
def Obligations.UnityFilterPassesSamplesExactly : Prop :=
  ∀ (co : CoefSet) (st : Delay) (x : Word),
    co.b0 = one → FiniteSet co → feq co.b1 co.a1 = true → feq co.b2 co.a2 = true → ZeroPair st →
    isFinite x = true → isSubnormal x = false →
    isFinite (fmul co.b1 x) = true → isFinite (fmul co.b2 x) = true →
    feq (bqStep co st x).1 x = true ∧ (isZero x = false → (bqStep co st x).1 = x) ∧
      ZeroPair (bqStep co st x).2

/-! ## Filter Chain -/

/-- R153: `PREPARE` accepts a finite rate above 24000 Hz and a block size the buffer holds, with the
effects listed there; anything else is InvalidParameter and changes nothing but the error record.
The rule says `BUF_DEPTH`; that it is 4096, as R8 and D13 take it, is the model's choice (assumption
6, unsafe). -/
def Obligations.PrepareAcceptsOrRejects : Prop :=
  ∀ s : State,
    (isFinite s.sampleRateIn = true → flt 0x46BB8000#32 s.sampleRateIn = true →
      s.maxBlockIn.toNat ≤ 4096 →
      ∃ t, exec .prepare s = .next t ∧
        t = { s with fs := s.sampleRateIn, maxBlock := s.maxBlockIn, delay := t.delay,
                     valid := t.valid, life := .prepared } ∧
        (∀ ch b, ch < 2 → (chanDelay t ch).get b = { s1 := 0#32, s2 := 0#32 }) ∧
        ∀ b, t.valid.get b = false) ∧
    (isFinite s.sampleRateIn = false ∨ flt 0x46BB8000#32 s.sampleRateIn = false ∨
      4096 < s.maxBlockIn.toNat →
      exec .prepare s = .next { s with
        eInvParam := true, errCause := some .invalidParameter, errCmd := 0x01000000#32 })

/-- R154: `RESET` zeroes every delay register and takes Active to Prepared; nothing else changes. -/
def Obligations.ResetCommandZeroesDelays : Prop :=
  ∀ s : State, ∃ t, exec .reset s = .next t ∧
    t = { s with delay := t.delay, life := if s.life = .active then .prepared else s.life } ∧
    ∀ ch b, ch < 2 → (chanDelay t ch).get b = { s1 := 0#32, s2 := 0#32 }

/-- R149, R150: `UPDATE` in each of its four cases: before `PREPARE`, with a NaN parameter, with
nothing changed, and with a recomputation. That the calculator does not reject the last is R158, so
the statement asks for the lifecycle invariant. -/
def Obligations.UpdateRecomputesOnChange : Prop :=
  ∀ (b : Band) (s : State), LifecycleInv s →
    (s.life = .uninitialized →
      exec (.update b) s = .next (raiseError .uninitializedState (encode (.update b)) s)) ∧
    (s.life ≠ .uninitialized → (isNaN (liveGain s b) = true ∨ (b = .mid ∧ isNaN s.midQ = true)) →
      exec (.update b) s = .next (raiseError .invalidParameter (encode (.update b)) s)) ∧
    (s.life ≠ .uninitialized → isNaN (liveGain s b) = false → (b = .mid → isNaN s.midQ = false) →
      (s.valid.get b = true ∧ s.lastGain.get b = liveGain s b ∧ (b = .mid → s.lastQ = s.midQ)) →
      exec (.update b) s = .next s) ∧
    (s.life ≠ .uninitialized → isNaN (liveGain s b) = false → (b = .mid → isNaN s.midQ = false) →
      ¬ (s.valid.get b = true ∧ s.lastGain.get b = liveGain s b ∧
        (b = .mid → s.lastQ = s.midQ)) →
      ∃ r, some r =
          (match b with
            | .low => calcLs s.fs fLow shelfQ (db2lin (clampf s.lowGainDb gainMin gainMax))
            | .mid => calcPeak s.fs fMid (clampf s.midQ qMin qMax)
                (db2lin (clampf s.midGainDb gainMin gainMax))
            | .high => calcHs s.fs fHigh shelfQ (db2lin (clampf s.highGainDb gainMin gainMax))) ∧
        exec (.update b) s = .next { s with
          coef := s.coef.set b r
          lastGain := s.lastGain.set b (liveGain s b)
          lastQ := if b = .mid then s.midQ else s.lastQ
          valid := s.valid.set b true
          calcCount := s.calcCount + 1#32 })

/-- R158: once prepared, no band update's calculator call is rejected, whatever the parameters, NaN
apart. -/
def Obligations.CalculatorNeverRejectsABandUpdate : Prop :=
  ∀ s : State, LifecycleInv s → s.life ≠ .uninitialized →
    ∀ (b : Band) (g q : Word), isNaN g = false → (b = .mid → isNaN q = false) →
      ∃ r, designBand b s.fs q (linearGain g) = some r

/-- R155: after an `UPDATE` that recorded no error, the same `UPDATE` again changes no state. -/
def Obligations.UpdateIsIdempotent : Prop :=
  ∀ (b : Band) (s : State), LifecycleInv s → s.life ≠ .uninitialized →
    isNaN (liveGain s b) = false → (b = .mid → isNaN s.midQ = false) →
    ∃ t, exec (.update b) s = .next t ∧ exec (.update b) t = .next t

/-- R155, R20, R25: only `UPDATE`, `BLOCK` and `PREPARE` write the change-detection cache, and only
those but `PREPARE`, and the `CALC` commands, move `CALC_COUNT`. -/
def Obligations.OnlyBandUpdatesMoveTheCache : Prop :=
  ∀ (i : Instr) (s : State),
    (∀ b, i ≠ .update b) → (∀ m n, i ≠ .block m n) → ∃ t, exec i s = .next t ∧
      (i ≠ .prepare → t.valid = s.valid) ∧ t.lastGain = s.lastGain ∧ t.lastQ = s.lastQ ∧
      t.calcCount = (if i = .calcls ∨ i = .calchs ∨ i = .calcpk then s.calcCount + 1#32
        else s.calcCount)

/-- R147, R148: `CHSAMPLE` sends the sample through LOW, MID and HIGH of the channel, in that order,
and becomes Active; it changes nothing else. -/
def Obligations.ChsampleRunsTheChain : Prop :=
  ∀ (ch : BitVec 4) (s : State), ch.toNat < 2 → s.life ≠ .uninitialized →
    let d := chanDelay s ch.toNat
    let v1 := bqStep s.coef.low d.low s.opX
    let v2 := bqStep s.coef.mid d.mid v1.1
    let v3 := bqStep s.coef.high d.high v2.1
    ∃ t, exec (.chsample ch) s = .next t ∧
      t = { s with delay := t.delay, resY := v3.1, life := .active } ∧
      chanDelay t ch.toNat = { low := v1.2, mid := v2.2, high := v3.2 } ∧
      ∀ c', c' ≠ ch.toNat → chanDelay t c' = chanDelay s c'

/-- R29, R156: the output and the delays of a channel depend on its own delays, the coefficients and
the sample alone. -/
def Obligations.ChannelsAreIndependent : Prop :=
  ∀ (ch : BitVec 4) (s s' : State), ch.toNat < 2 →
    s.life ≠ .uninitialized → s'.life ≠ .uninitialized →
    s.coef = s'.coef → s.opX = s'.opX → chanDelay s ch.toNat = chanDelay s' ch.toNat →
    ∃ t t', exec (.chsample ch) s = .next t ∧ exec (.chsample ch) s' = .next t' ∧
      t.resY = t'.resY ∧ chanDelay t ch.toNat = chanDelay t' ch.toNat

/-- R156: with finite coefficients and zero delays, a zero sample gives a zero output and leaves the
delays zero. -/
def Obligations.SilenceStaysSilent : Prop :=
  ∀ (ch : BitVec 4) (s : State), ch.toNat < 2 → s.life ≠ .uninitialized →
    (∀ b, FiniteSet (s.coef.get b)) → (∀ b, ZeroPair ((chanDelay s ch.toNat).get b)) →
    isZero s.opX = true →
    ∃ t, exec (.chsample ch) s = .next t ∧ isZero t.resY = true ∧
      ∀ b, ZeroPair ((chanDelay t ch.toNat).get b)

/-! ## Saturation Stage -/

/-- R167, R166, R172: `SAT` writes `RES_Y` alone: the clamped tanh of twice the sample when enabled,
the sample's own bits when not. -/
def Obligations.SatWritesTheResult : Prop :=
  ∀ s : State,
    (s.satEn = false → exec .sat s = .next { s with resY := s.opX }) ∧
    (s.satEn = true →
      let r := ftanh (fmul two s.opX)
      exec .sat s = .next { s with
        resY := if isNaN r then 0x7FC00000#32
          else if flt 0x3F7FFFFF#32 r then 0x3F7FFFFF#32
          else if flt r 0xBF7FFFFF#32 then 0xBF7FFFFF#32 else r })

/-- The vectors of section 2.6 that hold for every instance. -/
def Obligations.SatAtTheSpecialPoints : Prop :=
  sat 0x00000000#32 = 0x00000000#32 ∧ sat 0x80000000#32 = 0x80000000#32 ∧
  sat 0x00400000#32 = 0x00000000#32 ∧ sat 0x7F800000#32 = 0x3F7FFFFF#32 ∧
  sat 0xFF800000#32 = 0xBF7FFFFF#32 ∧ sat 0x7FA00001#32 = 0x7FC00000#32 ∧
  sat 0x7F7FFFFF#32 = 0x3F7FFFFF#32

/-- R168: the output lies strictly inside (-1, 1) for every sample that is not a NaN. -/
def Obligations.SatIsBounded : Prop :=
  ∀ x : Word, isNaN x = false →
    isNaN (sat x) = false ∧ fle (fneg maxLt1) (sat x) = true ∧ fle (sat x) maxLt1 = true

/-- R169: the stage is monotonic. -/
def Obligations.SatIsMonotonic : Prop :=
  ∀ u v : Word, fle u v = true → fle (sat u) (sat v) = true

/-- R170: the stage is odd, bit for bit. -/
def Obligations.SatIsOdd : Prop :=
  ∀ x : Word, isNaN x = false → sat (fneg x) = fneg (sat x)

/-! ## Block Processor -/

/-- R182, R183: `NOP` changes nothing; `CLRERR` clears the error record and nothing else. -/
def Obligations.HousekeepingCommands : Prop :=
  ∀ s : State, exec .nop s = .next s ∧
    exec .clrerr s = .next { s with
      eInvParam := false, eUninit := false, eBadCmd := false, errCause := none, errCmd := 0#32 }

/-- R176: an accepted `BLOCK` takes the snapshot, becomes Active, and leaves every register it does
not name and every byte of memory outside the first n words of the channels as they were; its band
updates are the three of the snapshot. -/
def Obligations.BlockTakesTheSnapshotAndKeepsTheRest : Prop :=
  ∀ (nin : BitVec 4) (n : BitVec 16) (s : State), nin.toNat ≤ 2 → s.life ≠ .uninitialized →
    n.toNat ≤ s.maxBlock.toNat →
    ∃ t, exec (.block nin n) s = .next t ∧
      t.snapLowGain = s.lowGainDb ∧ t.snapMidGain = s.midGainDb ∧ t.snapHighGain = s.highGainDb ∧
      t.snapMidQ = s.midQ ∧ t.snapSat = s.satEn ∧ t.life = .active ∧
      t = { updateBand .high s.highGainDb s.midQ (encode (.block nin n))
              (updateBand .mid s.midGainDb s.midQ (encode (.block nin n))
                (updateBand .low s.lowGainDb s.midQ (encode (.block nin n)) s)) with
            snapLowGain := t.snapLowGain, snapMidGain := t.snapMidGain,
            snapHighGain := t.snapHighGain, snapMidQ := t.snapMidQ, snapSat := t.snapSat,
            life := t.life, buf := t.buf, delay := t.delay } ∧
      ∀ a : Nat, (¬ ∃ c i, c < 2 ∧ i < n.toNat ∧ a / 4 = 0x1000 + 0x1000 * c + i) →
        readByte t a = readByte s a

/-- R176, R178, R180, R181: after an accepted `BLOCK` of at least one sample, the first word of each
channel is the chain's result for the channel's first input sample, which is +0.0 on a channel
without input, saturated as the snapshot says; after a block of one sample the channel's delays are
those of that sample. That a block fits 4096 words is what the lifecycle invariant gives for an
accepted one, with `BUF_DEPTH` as assumption 6 takes it. -/
def Obligations.BlockFirstSample : Prop :=
  ∀ (nin : BitVec 4) (n : BitVec 16) (s : State), nin.toNat ≤ 2 → s.life ≠ .uninitialized →
    1 ≤ n.toNat → n.toNat ≤ s.maxBlock.toNat → n.toNat ≤ 4096 →
    ∃ t, exec (.block nin n) s = .next t ∧ ∀ c, c < 2 →
      let x := if nin.toNat ≤ c then 0x00000000#32 else readBuf s c 0
      let r := chainStep t.coef (chanDelay s c) x
      readBuf t c 0 = (if s.satEn then sat r.1 else r.1) ∧ (n = 1#16 → chanDelay t c = r.2)

/-- R189: `BLOCK NCH, n` does what the unit commands do: the two differ only in `OP_X`, `RES_Y`, the
snapshot, and the `ERR_CMD` recorded for a NaN parameter, so not in `ERR_CMD` when no parameter is a
NaN; and for n = 0 in `LIFE`, which no unit command of the sequence then moves. -/
def Obligations.BlockEqualsUnitCommands : Prop :=
  ∀ (n : BitVec 16) (s : State), Inv s → s.life ≠ .uninitialized → n.toNat ≤ s.maxBlock.toNat →
    ∃ t u, exec (.block 2#4 n) s = .next t ∧ unitBlock n.toNat s = .next u ∧
      (∀ c i, c < 2 → i < n.toNat → readBuf t c i = readBuf u c i) ∧
      (0 < n.toNat → t.life = u.life) ∧
      (isNaN s.lowGainDb = false → isNaN s.midGainDb = false → isNaN s.highGainDb = false →
        isNaN s.midQ = false → t.errCmd = u.errCmd) ∧
      t = { u with
            opX := s.opX, resY := s.resY, snapLowGain := s.lowGainDb, snapMidGain := s.midGainDb,
            snapHighGain := s.highGainDb, snapMidQ := s.midQ, snapSat := s.satEn,
            errCmd := t.errCmd, life := t.life }

/-- R190: one block of n1 + n2 samples, or a block of n1 and then, after host buffer accesses alone, a
block of n2 that the host has loaded at index 0, give the same outputs, delays, coefficients, caches
and count. -/
def Obligations.BlockSplitting : Prop :=
  ∀ (nin : BitVec 4) (n1 n2 n : BitVec 16) (s : State), Inv s → s.life ≠ .uninitialized →
    nin.toNat ≤ 2 → n.toNat = n1.toNat + n2.toNat → n.toNat ≤ s.maxBlock.toNat →
    ∃ t t1, exec (.block nin n) s = .next t ∧ exec (.block nin n1) s = .next t1 ∧
      (∀ c i, c < 2 → i < n1.toNat → readBuf t1 c i = readBuf t c i) ∧
      ∀ v : State, v = { t1 with buf := v.buf, pending := v.pending, readData := v.readData } →
        (∀ c j, c < nin.toNat → j < n2.toNat → readBuf v c j = readBuf s c (n1.toNat + j)) →
        ∃ u, exec (.block nin n2) v = .next u ∧
          (∀ c j, c < 2 → j < n2.toNat → readBuf u c j = readBuf t c (n1.toNat + j)) ∧
          u.delay = t.delay ∧ u.coef = t.coef ∧ u.lastGain = t.lastGain ∧ u.lastQ = t.lastQ ∧
          u.valid = t.valid ∧ u.calcCount = t.calcCount

/-- R179: the two channels of a block may be processed in either order: the whole states agree,
because memory is held in one canonical form. -/
def Obligations.ChannelOrderIsImmaterial : Prop :=
  ∀ (n : Nat) (s : State), n ≤ 4096 → MemoryInv s →
    blockChannel 0 n (blockChannel 1 n s) = blockChannel 1 n (blockChannel 0 n s)

/-! ## Numerics -/

/-- R84: no arithmetic operation returns a subnormal. -/
def Obligations.ArithmeticNeverReturnsASubnormal : Prop :=
  ∀ a b : Word, isSubnormal (fadd a b) = false ∧ isSubnormal (fsub a b) = false ∧
    isSubnormal (fmul a b) = false ∧ isSubnormal (fdiv a b) = false ∧
    isSubnormal (fsqrt a) = false

/-- R85: an operation with a NaN operand and an invalid operation return the canonical NaN, and
every NaN result is the canonical one. -/
def Obligations.NaNResultsAreCanonical : Prop :=
  (∀ a b : Word, isNaN a = true ∨ isNaN b = true →
    fadd a b = qnan ∧ fsub a b = qnan ∧ fmul a b = qnan ∧ fdiv a b = qnan) ∧
  (∀ a : Word, isNaN a = true → fsqrt a = qnan ∧ fneg a = qnan ∧ fsin a = qnan ∧ fcos a = qnan ∧
    ftanh a = qnan ∧ fexp10 a = qnan) ∧
  (∀ a b : Word, (isNaN (fadd a b) = true → fadd a b = qnan) ∧
    (isNaN (fsub a b) = true → fsub a b = qnan) ∧
    (isNaN (fmul a b) = true → fmul a b = qnan) ∧
    (isNaN (fdiv a b) = true → fdiv a b = qnan) ∧
    (isNaN (fsqrt a) = true → fsqrt a = qnan) ∧ (isNaN (fneg a) = true → fneg a = qnan) ∧
    (isNaN (fsin a) = true → fsin a = qnan) ∧ (isNaN (fcos a) = true → fcos a = qnan) ∧
    (isNaN (ftanh a) = true → ftanh a = qnan) ∧ (isNaN (fexp10 a) = true → fexp10 a = qnan)) ∧
  (∀ a b : Word, isInf a = true → isInf b = true →
    fdiv a b = qnan ∧ (signBit a ≠ signBit b → fadd a b = qnan) ∧
    (signBit a = signBit b → fsub a b = qnan)) ∧
  (∀ a b : Word, isZero (flush a) = true → (isInf b = true → fmul a b = qnan ∧ fmul b a = qnan) ∧
    (isZero (flush b) = true → fdiv a b = qnan)) ∧
  (∀ a : Word, signBit a = true → isZero (flush a) = false → fsqrt a = qnan) ∧
  (∀ a : Word, isInf a = true → fsin a = qnan ∧ fcos a = qnan)

/-- R82, R88, R89, on a zero or a normal number x: multiplying or dividing by 1.0 gives the very
pattern of x, and x / x is 1.0. Multiplying by 2.0 is exact unless it overflows, and then gives the
infinity of the sign; multiplying by 0.5 is exact unless it underflows. The biased exponent is 254
from 2^127 on and 1 from 2^-126 to below 2^-125 (R80). -/
def Obligations.ExactQuotientsAndProducts : Prop :=
  ∀ x : Word, isFinite x = true → isSubnormal x = false →
    fmul one x = x ∧ fmul x one = x ∧ fdiv x one = x ∧ (isZero x = false → fdiv x x = one) ∧
    fmul x two = fmul two x ∧ fmul x half = fmul half x ∧
    ((expField x).toNat < 254 → isFinite (fmul two x) = true ∧
      signBit (fmul two x) = signBit x ∧ units (fmul two x) = 2 * units x) ∧
    ((expField x).toNat = 254 → fmul two x = signedInf (signBit x)) ∧
    (isZero x = true ∨ 1 < (expField x).toNat → isFinite (fmul half x) = true ∧
      signBit (fmul half x) = signBit x ∧ 2 * units (fmul half x) = units x)

/-- R87: addition is symmetric in its operands, x + (-x) is +0 for every finite x, and a zero plus a
non-zero y is y. -/
def Obligations.AdditionLaws : Prop :=
  ∀ a b : Word, fadd a b = fadd b a ∧
    (isFinite a = true → fadd a (fneg a) = posZero) ∧
    (isZero a = true → isFinite b = true → isSubnormal b = false → isZero b = false →
      fadd a b = b)

/-! ## The ideal level -/

/-- R132: from zero registers, the two-register structure computes the difference equation. -/
def Obligations.IdealFilterMeetsTheDifferenceEquation : Prop :=
  ∀ (K : Type) (_ : CommRing K) (co : Ideal.Coefs K) (x : Nat → K) (n : Nat),
    Ideal.output co x n =
      co.b0 * x n + co.b1 * Ideal.before x n 1 + co.b2 * Ideal.before x n 2 -
        co.a1 * Ideal.before (Ideal.output co x) n 1 -
        co.a2 * Ideal.before (Ideal.output co x) n 2

/-- R121, R122: the gains of the three designs. First the values that the rules give the numerators
and denominators: over every field for the peak filter at its centre, where the ratio is A² = g, and
for the three designs at frequency 0 and at fs/2. Then the magnitude of each normalised filter, with
A = √g, for every w0 inside (0, π): the peak has g at f0 and 1 at frequency 0 and at fs/2; the low
shelf has g at frequency 0, 1 at fs/2 and √g at f0; the high shelf has 1 at frequency 0, g at fs/2
and √g at f0. -/
def Obligations.IdealGainsOfTheThreeDesigns : Prop :=
  (∀ (K : Type) (_ : Field K) (A alpha g c s j : K), A ≠ 0 → A * A = g → c * c + s * s = 1 →
    j * j = -1 →
    (Ideal.peak A c alpha).num (c - j * s) = (c - j * s) * (2 * j * alpha * A * s) ∧
    (Ideal.peak A c alpha).den (c - j * s) = (c - j * s) * (2 * j * (alpha / A) * s) ∧
    (Ideal.peak A c alpha).num (c - j * s) = g * (Ideal.peak A c alpha).den (c - j * s) ∧
    (Ideal.peak A c alpha).num 1 = (Ideal.peak A c alpha).den 1 ∧
    (Ideal.peak A c alpha).num (-1) = (Ideal.peak A c alpha).den (-1)) ∧
  (∀ (K : Type) (_ : Field K) (A c beta : K),
    (Ideal.lowShelf A c beta).num 1 = 4 * A ^ 2 * (1 - c) ∧
    (Ideal.lowShelf A c beta).den 1 = 4 * (1 - c) ∧
    (Ideal.lowShelf A c beta).num (-1) = 4 * A * (1 + c) ∧
    (Ideal.lowShelf A c beta).den (-1) = 4 * A * (1 + c) ∧
    (Ideal.highShelf A c beta).num 1 = 4 * A * (1 - c) ∧
    (Ideal.highShelf A c beta).den 1 = 4 * A * (1 - c) ∧
    (Ideal.highShelf A c beta).num (-1) = 4 * A ^ 2 * (1 + c) ∧
    (Ideal.highShelf A c beta).den (-1) = 4 * (1 + c)) ∧
  (∀ g w0 alpha beta : ℝ, 0 < g → 0 < w0 → w0 < Real.pi → 0 < alpha → 0 < beta →
    let A : ℂ := (Real.sqrt g : ℝ)
    let c : ℂ := (Real.cos w0 : ℝ)
    let atF0 : ℂ := Complex.exp (-(Complex.I * w0))
    let pk := (Ideal.normalise (Ideal.peak A c alpha)).response
    let ls := (Ideal.normalise (Ideal.lowShelf A c beta)).response
    let hs := (Ideal.normalise (Ideal.highShelf A c beta)).response
    ‖pk 1‖ = 1 ∧ ‖pk (-1)‖ = 1 ∧ ‖pk atF0‖ = g ∧
    ‖ls 1‖ = g ∧ ‖ls (-1)‖ = 1 ∧ ‖ls atF0‖ = Real.sqrt g ∧
    ‖hs 1‖ = 1 ∧ ‖hs (-1)‖ = g ∧ ‖hs atF0‖ = Real.sqrt g)

/-- R123: each design is stable: |a2| < 1 and |a1| < 1 + a2. R188: so a sine of amplitude a and
frequency f through the three filters in series settles to a sine of the same frequency whose
amplitude is a times the three magnitudes, for every rate that `PREPARE` accepts and all gains and Q
above zero. At 44100 Hz, +6 dB, 0 dB, -6 dB, Q 1.0, 200 Hz and a = 0.5 the low shelf contributes
10^(3/20), the peak 1, the high shelf 1.0000, and the amplitude is 0.70626874, each figure to the
places the rule gives. -/
def Obligations.IdealDesignsAreStableAndTheChainSettles : Prop :=
  (∀ (K : Type) (_ : Field K) (_ : LinearOrder K) (_ : IsStrictOrderedRing K) (A c x : K),
    0 < A → -1 < c → c < 1 → 0 < x →
    ∀ r ∈ [Ideal.peak A c x, Ideal.lowShelf A c x, Ideal.highShelf A c x],
      |(Ideal.normalise r).a2| < 1 ∧ |(Ideal.normalise r).a1| < 1 + (Ideal.normalise r).a2) ∧
  (∀ fs gL gM gH q f a phase : ℝ, 24000 < fs → 0 < gL → 0 < gM → 0 < gH → 0 < q →
    let w : ℝ → ℝ := fun hz => 2 * Real.pi * hz / fs
    let beta : ℝ → ℝ → ℝ := fun g hz => Real.sqrt (Real.sqrt g) * Real.sin (w hz) / 0.707
    let ls := Ideal.normalise (Ideal.lowShelf (Real.sqrt gL) (Real.cos (w 200)) (beta gL 200))
    let pk := Ideal.normalise
      (Ideal.peak (Real.sqrt gM) (Real.cos (w 4000)) (Ideal.alpha (Real.sin (w 4000)) q))
    let hs := Ideal.normalise
      (Ideal.highShelf (Real.sqrt gH) (Real.cos (w 12000)) (beta gH 12000))
    let mag : Ideal.Coefs ℝ → ℝ := fun co =>
      ‖(co.map Complex.ofReal).response (Complex.exp (-(Complex.I * w f)))‖
    Ideal.SettlesToSine
      (Ideal.chainOutput ls pk hs fun n => a * Real.sin (w f * n + phase)) (w f)
      (a * mag ls * mag pk * mag hs) ∧
    (fs = 44100 → gL = 10 ^ ((6 : ℝ) / 20) → gM = 10 ^ ((0 : ℝ) / 20) →
      gH = 10 ^ ((-6 : ℝ) / 20) → q = 1 → f = 200 → a = 0.5 →
      mag ls = 10 ^ ((3 : ℝ) / 20) ∧ mag pk = 1 ∧ |mag hs - 1| < 0.00005 ∧
      |mag ls * mag pk * mag hs - 1.41253747| < 0.000000005 ∧
      |a * mag ls * mag pk * mag hs - 0.70626874| < 0.000000005))

/-- R124: the design for gain 1/g is the inverse of the design for gain g. -/
def Obligations.IdealBoostCutSymmetry : Prop :=
  ∀ (K : Type) (_ : Field K) (A c alpha beta x : K), A ≠ 0 →
    ((Ideal.peak A⁻¹ c alpha).num x = (Ideal.peak A c alpha).den x ∧
      (Ideal.peak A⁻¹ c alpha).den x = (Ideal.peak A c alpha).num x) ∧
    (A ^ 2 * (Ideal.lowShelf A⁻¹ c (beta / A)).num x = (Ideal.lowShelf A c beta).den x ∧
      A ^ 2 * (Ideal.lowShelf A⁻¹ c (beta / A)).den x = (Ideal.lowShelf A c beta).num x) ∧
    (A ^ 2 * (Ideal.highShelf A⁻¹ c (beta / A)).num x = (Ideal.highShelf A c beta).den x ∧
      A ^ 2 * (Ideal.highShelf A⁻¹ c (beta / A)).den x = (Ideal.highShelf A c beta).num x)
end

