-- ==== Sys2Proof/Laws/Encoding.lean ====
section
/-! SUPPORT. The fields of a word put together from fields, and a word as its four fields (R60). -/

namespace Sys2Proof

theorem getLsbD_assemble (op : BitVec 8) (b c : BitVec 4) (n : BitVec 16) (i : Nat) :
    (assemble op b c n).getLsbD i =
      if i < 16 then n.getLsbD i else if i - 16 < 4 then c.getLsbD (i - 16)
      else if i - 16 - 4 < 4 then b.getLsbD (i - 16 - 4) else op.getLsbD (i - 16 - 4 - 4) := by
  unfold assemble
  rw [BitVec.getLsbD_append, BitVec.getLsbD_append, BitVec.getLsbD_append]

@[simp] theorem opField_assemble (op : BitVec 8) (b c : BitVec 4) (n : BitVec 16) :
    opField (assemble op b c n) = op := by
  apply BitVec.eq_of_getLsbD_eq
  intro i hi
  rw [opField, BitVec.getLsbD_extractLsb', getLsbD_assemble, if_neg (by omega), if_neg (by omega),
    if_neg (by omega), decide_eq_true hi, Bool.true_and]
  congr 1
  omega

@[simp] theorem bandField_assemble (op : BitVec 8) (b c : BitVec 4) (n : BitVec 16) :
    bandField (assemble op b c n) = b := by
  apply BitVec.eq_of_getLsbD_eq
  intro i hi
  rw [bandField, BitVec.getLsbD_extractLsb', getLsbD_assemble, if_neg (by omega),
    if_neg (by omega), if_pos (by omega), decide_eq_true hi, Bool.true_and]
  congr 1
  omega

@[simp] theorem chField_assemble (op : BitVec 8) (b c : BitVec 4) (n : BitVec 16) :
    chField (assemble op b c n) = c := by
  apply BitVec.eq_of_getLsbD_eq
  intro i hi
  rw [chField, BitVec.getLsbD_extractLsb', getLsbD_assemble, if_neg (by omega),
    if_pos (by omega), decide_eq_true hi, Bool.true_and]
  congr 1
  omega

@[simp] theorem nField_assemble (op : BitVec 8) (b c : BitVec 4) (n : BitVec 16) :
    nField (assemble op b c n) = n := by
  apply BitVec.eq_of_getLsbD_eq
  intro i hi
  rw [nField, BitVec.getLsbD_extractLsb', getLsbD_assemble, if_pos (by omega), decide_eq_true hi,
    Bool.true_and]
  congr 1
  omega

/-- A word is its four fields. -/
theorem assemble_fields (w : Word) :
    assemble (opField w) (bandField w) (chField w) (nField w) = w := by
  apply BitVec.eq_of_getLsbD_eq
  intro i hi
  rw [getLsbD_assemble]
  simp only [opField, bandField, chField, nField, BitVec.getLsbD_extractLsb']
  split
  · simp_all
  · split
    · simp only [show i - 16 < 4 by omega, decide_true, Bool.true_and]
      congr 1; omega
    · split
      · simp only [show i - 16 - 4 < 4 by omega, decide_true, Bool.true_and]
        congr 1; omega
      · simp only [show i - 16 - 4 - 4 < 8 by omega, decide_true, Bool.true_and]
        congr 1; omega

@[simp] theorem Band.ofField_toField (b : Band) : Band.ofField b.toField = some b := by
  cases b <;> rfl

end Sys2Proof
end

