-- ==== Sys2Proof/Laws/State.lean ====
section
/-! SUPPORT. One lemma per field per update of the state: what each shared update leaves in each
field. -/

namespace Sys2Proof.Machine

/-! ## `setErrorFlag` -/

@[simp] theorem setErrorFlag_lowGainDb (k : ErrorKind) (s : State) :
    (setErrorFlag k s).lowGainDb = s.lowGainDb := by cases k <;> rfl
@[simp] theorem setErrorFlag_midGainDb (k : ErrorKind) (s : State) :
    (setErrorFlag k s).midGainDb = s.midGainDb := by cases k <;> rfl
@[simp] theorem setErrorFlag_highGainDb (k : ErrorKind) (s : State) :
    (setErrorFlag k s).highGainDb = s.highGainDb := by cases k <;> rfl
@[simp] theorem setErrorFlag_midQ (k : ErrorKind) (s : State) :
    (setErrorFlag k s).midQ = s.midQ := by cases k <;> rfl
@[simp] theorem setErrorFlag_satEn (k : ErrorKind) (s : State) :
    (setErrorFlag k s).satEn = s.satEn := by cases k <;> rfl
@[simp] theorem setErrorFlag_sampleRateIn (k : ErrorKind) (s : State) :
    (setErrorFlag k s).sampleRateIn = s.sampleRateIn := by cases k <;> rfl
@[simp] theorem setErrorFlag_maxBlockIn (k : ErrorKind) (s : State) :
    (setErrorFlag k s).maxBlockIn = s.maxBlockIn := by cases k <;> rfl
@[simp] theorem setErrorFlag_opFs (k : ErrorKind) (s : State) :
    (setErrorFlag k s).opFs = s.opFs := by cases k <;> rfl
@[simp] theorem setErrorFlag_opF0 (k : ErrorKind) (s : State) :
    (setErrorFlag k s).opF0 = s.opF0 := by cases k <;> rfl
@[simp] theorem setErrorFlag_opQ (k : ErrorKind) (s : State) :
    (setErrorFlag k s).opQ = s.opQ := by cases k <;> rfl
@[simp] theorem setErrorFlag_opGain (k : ErrorKind) (s : State) :
    (setErrorFlag k s).opGain = s.opGain := by cases k <;> rfl
@[simp] theorem setErrorFlag_opX (k : ErrorKind) (s : State) :
    (setErrorFlag k s).opX = s.opX := by cases k <;> rfl
@[simp] theorem setErrorFlag_cs (k : ErrorKind) (s : State) :
    (setErrorFlag k s).cs = s.cs := by cases k <;> rfl
@[simp] theorem setErrorFlag_resY (k : ErrorKind) (s : State) :
    (setErrorFlag k s).resY = s.resY := by cases k <;> rfl
@[simp] theorem setErrorFlag_life (k : ErrorKind) (s : State) :
    (setErrorFlag k s).life = s.life := by cases k <;> rfl
@[simp] theorem setErrorFlag_eInvParam (k : ErrorKind) (s : State) :
    (setErrorFlag k s).eInvParam = (s.eInvParam || k == .invalidParameter) := by
  cases k <;> simp [setErrorFlag]
@[simp] theorem setErrorFlag_eUninit (k : ErrorKind) (s : State) :
    (setErrorFlag k s).eUninit = (s.eUninit || k == .uninitializedState) := by
  cases k <;> simp [setErrorFlag]
@[simp] theorem setErrorFlag_eBadCmd (k : ErrorKind) (s : State) :
    (setErrorFlag k s).eBadCmd = (s.eBadCmd || k == .badCommand) := by
  cases k <;> simp [setErrorFlag]
@[simp] theorem setErrorFlag_calcCount (k : ErrorKind) (s : State) :
    (setErrorFlag k s).calcCount = s.calcCount := by cases k <;> rfl
@[simp] theorem setErrorFlag_errCause (k : ErrorKind) (s : State) :
    (setErrorFlag k s).errCause = s.errCause := by cases k <;> rfl
@[simp] theorem setErrorFlag_errCmd (k : ErrorKind) (s : State) :
    (setErrorFlag k s).errCmd = s.errCmd := by cases k <;> rfl
@[simp] theorem setErrorFlag_fs (k : ErrorKind) (s : State) :
    (setErrorFlag k s).fs = s.fs := by cases k <;> rfl
@[simp] theorem setErrorFlag_maxBlock (k : ErrorKind) (s : State) :
    (setErrorFlag k s).maxBlock = s.maxBlock := by cases k <;> rfl
@[simp] theorem setErrorFlag_coef (k : ErrorKind) (s : State) :
    (setErrorFlag k s).coef = s.coef := by cases k <;> rfl
@[simp] theorem setErrorFlag_lastGain (k : ErrorKind) (s : State) :
    (setErrorFlag k s).lastGain = s.lastGain := by cases k <;> rfl
@[simp] theorem setErrorFlag_lastQ (k : ErrorKind) (s : State) :
    (setErrorFlag k s).lastQ = s.lastQ := by cases k <;> rfl
@[simp] theorem setErrorFlag_valid (k : ErrorKind) (s : State) :
    (setErrorFlag k s).valid = s.valid := by cases k <;> rfl
@[simp] theorem setErrorFlag_snapLowGain (k : ErrorKind) (s : State) :
    (setErrorFlag k s).snapLowGain = s.snapLowGain := by cases k <;> rfl
@[simp] theorem setErrorFlag_snapMidGain (k : ErrorKind) (s : State) :
    (setErrorFlag k s).snapMidGain = s.snapMidGain := by cases k <;> rfl
@[simp] theorem setErrorFlag_snapHighGain (k : ErrorKind) (s : State) :
    (setErrorFlag k s).snapHighGain = s.snapHighGain := by cases k <;> rfl
@[simp] theorem setErrorFlag_snapMidQ (k : ErrorKind) (s : State) :
    (setErrorFlag k s).snapMidQ = s.snapMidQ := by cases k <;> rfl
@[simp] theorem setErrorFlag_snapSat (k : ErrorKind) (s : State) :
    (setErrorFlag k s).snapSat = s.snapSat := by cases k <;> rfl
@[simp] theorem setErrorFlag_delay (k : ErrorKind) (s : State) :
    (setErrorFlag k s).delay = s.delay := by cases k <;> rfl
@[simp] theorem setErrorFlag_buf (k : ErrorKind) (s : State) :
    (setErrorFlag k s).buf = s.buf := by cases k <;> rfl
@[simp] theorem setErrorFlag_bufEpoch (k : ErrorKind) (s : State) :
    (setErrorFlag k s).bufEpoch = s.bufEpoch := by cases k <;> rfl
@[simp] theorem setErrorFlag_pending (k : ErrorKind) (s : State) :
    (setErrorFlag k s).pending = s.pending := by cases k <;> rfl
@[simp] theorem setErrorFlag_readData (k : ErrorKind) (s : State) :
    (setErrorFlag k s).readData = s.readData := by cases k <;> rfl

/-! ## `raiseError` -/

@[simp] theorem raiseError_lowGainDb (k : ErrorKind) (w : Word) (s : State) :
    (raiseError k w s).lowGainDb = s.lowGainDb := by cases k <;> rfl
@[simp] theorem raiseError_midGainDb (k : ErrorKind) (w : Word) (s : State) :
    (raiseError k w s).midGainDb = s.midGainDb := by cases k <;> rfl
@[simp] theorem raiseError_highGainDb (k : ErrorKind) (w : Word) (s : State) :
    (raiseError k w s).highGainDb = s.highGainDb := by cases k <;> rfl
@[simp] theorem raiseError_midQ (k : ErrorKind) (w : Word) (s : State) :
    (raiseError k w s).midQ = s.midQ := by cases k <;> rfl
@[simp] theorem raiseError_satEn (k : ErrorKind) (w : Word) (s : State) :
    (raiseError k w s).satEn = s.satEn := by cases k <;> rfl
@[simp] theorem raiseError_sampleRateIn (k : ErrorKind) (w : Word) (s : State) :
    (raiseError k w s).sampleRateIn = s.sampleRateIn := by cases k <;> rfl
@[simp] theorem raiseError_maxBlockIn (k : ErrorKind) (w : Word) (s : State) :
    (raiseError k w s).maxBlockIn = s.maxBlockIn := by cases k <;> rfl
@[simp] theorem raiseError_opFs (k : ErrorKind) (w : Word) (s : State) :
    (raiseError k w s).opFs = s.opFs := by cases k <;> rfl
@[simp] theorem raiseError_opF0 (k : ErrorKind) (w : Word) (s : State) :
    (raiseError k w s).opF0 = s.opF0 := by cases k <;> rfl
@[simp] theorem raiseError_opQ (k : ErrorKind) (w : Word) (s : State) :
    (raiseError k w s).opQ = s.opQ := by cases k <;> rfl
@[simp] theorem raiseError_opGain (k : ErrorKind) (w : Word) (s : State) :
    (raiseError k w s).opGain = s.opGain := by cases k <;> rfl
@[simp] theorem raiseError_opX (k : ErrorKind) (w : Word) (s : State) :
    (raiseError k w s).opX = s.opX := by cases k <;> rfl
@[simp] theorem raiseError_cs (k : ErrorKind) (w : Word) (s : State) :
    (raiseError k w s).cs = s.cs := by cases k <;> rfl
@[simp] theorem raiseError_resY (k : ErrorKind) (w : Word) (s : State) :
    (raiseError k w s).resY = s.resY := by cases k <;> rfl
@[simp] theorem raiseError_life (k : ErrorKind) (w : Word) (s : State) :
    (raiseError k w s).life = s.life := by cases k <;> rfl
@[simp] theorem raiseError_eInvParam (k : ErrorKind) (w : Word) (s : State) :
    (raiseError k w s).eInvParam = (s.eInvParam || k == .invalidParameter) := by
  cases k <;> simp [raiseError, setErrorFlag]
@[simp] theorem raiseError_eUninit (k : ErrorKind) (w : Word) (s : State) :
    (raiseError k w s).eUninit = (s.eUninit || k == .uninitializedState) := by
  cases k <;> simp [raiseError, setErrorFlag]
@[simp] theorem raiseError_eBadCmd (k : ErrorKind) (w : Word) (s : State) :
    (raiseError k w s).eBadCmd = (s.eBadCmd || k == .badCommand) := by
  cases k <;> simp [raiseError, setErrorFlag]
@[simp] theorem raiseError_calcCount (k : ErrorKind) (w : Word) (s : State) :
    (raiseError k w s).calcCount = s.calcCount := by cases k <;> rfl
@[simp] theorem raiseError_errCause (k : ErrorKind) (w : Word) (s : State) :
    (raiseError k w s).errCause = some k := by cases k <;> rfl
@[simp] theorem raiseError_errCmd (k : ErrorKind) (w : Word) (s : State) :
    (raiseError k w s).errCmd = w := by cases k <;> rfl
@[simp] theorem raiseError_fs (k : ErrorKind) (w : Word) (s : State) :
    (raiseError k w s).fs = s.fs := by cases k <;> rfl
@[simp] theorem raiseError_maxBlock (k : ErrorKind) (w : Word) (s : State) :
    (raiseError k w s).maxBlock = s.maxBlock := by cases k <;> rfl
@[simp] theorem raiseError_coef (k : ErrorKind) (w : Word) (s : State) :
    (raiseError k w s).coef = s.coef := by cases k <;> rfl
@[simp] theorem raiseError_lastGain (k : ErrorKind) (w : Word) (s : State) :
    (raiseError k w s).lastGain = s.lastGain := by cases k <;> rfl
@[simp] theorem raiseError_lastQ (k : ErrorKind) (w : Word) (s : State) :
    (raiseError k w s).lastQ = s.lastQ := by cases k <;> rfl
@[simp] theorem raiseError_valid (k : ErrorKind) (w : Word) (s : State) :
    (raiseError k w s).valid = s.valid := by cases k <;> rfl
@[simp] theorem raiseError_snapLowGain (k : ErrorKind) (w : Word) (s : State) :
    (raiseError k w s).snapLowGain = s.snapLowGain := by cases k <;> rfl
@[simp] theorem raiseError_snapMidGain (k : ErrorKind) (w : Word) (s : State) :
    (raiseError k w s).snapMidGain = s.snapMidGain := by cases k <;> rfl
@[simp] theorem raiseError_snapHighGain (k : ErrorKind) (w : Word) (s : State) :
    (raiseError k w s).snapHighGain = s.snapHighGain := by cases k <;> rfl
@[simp] theorem raiseError_snapMidQ (k : ErrorKind) (w : Word) (s : State) :
    (raiseError k w s).snapMidQ = s.snapMidQ := by cases k <;> rfl
@[simp] theorem raiseError_snapSat (k : ErrorKind) (w : Word) (s : State) :
    (raiseError k w s).snapSat = s.snapSat := by cases k <;> rfl
@[simp] theorem raiseError_delay (k : ErrorKind) (w : Word) (s : State) :
    (raiseError k w s).delay = s.delay := by cases k <;> rfl
@[simp] theorem raiseError_buf (k : ErrorKind) (w : Word) (s : State) :
    (raiseError k w s).buf = s.buf := by cases k <;> rfl
@[simp] theorem raiseError_bufEpoch (k : ErrorKind) (w : Word) (s : State) :
    (raiseError k w s).bufEpoch = s.bufEpoch := by cases k <;> rfl
@[simp] theorem raiseError_pending (k : ErrorKind) (w : Word) (s : State) :
    (raiseError k w s).pending = s.pending := by cases k <;> rfl
@[simp] theorem raiseError_readData (k : ErrorKind) (w : Word) (s : State) :
    (raiseError k w s).readData = s.readData := by cases k <;> rfl

/-! ## `acknowledgeErrors` -/

@[simp] theorem acknowledgeErrors_lowGainDb (s : State) :
    (acknowledgeErrors s).lowGainDb = s.lowGainDb := rfl
@[simp] theorem acknowledgeErrors_midGainDb (s : State) :
    (acknowledgeErrors s).midGainDb = s.midGainDb := rfl
@[simp] theorem acknowledgeErrors_highGainDb (s : State) :
    (acknowledgeErrors s).highGainDb = s.highGainDb := rfl
@[simp] theorem acknowledgeErrors_midQ (s : State) : (acknowledgeErrors s).midQ = s.midQ := rfl
@[simp] theorem acknowledgeErrors_satEn (s : State) : (acknowledgeErrors s).satEn = s.satEn := rfl
@[simp] theorem acknowledgeErrors_sampleRateIn (s : State) :
    (acknowledgeErrors s).sampleRateIn = s.sampleRateIn := rfl
@[simp] theorem acknowledgeErrors_maxBlockIn (s : State) :
    (acknowledgeErrors s).maxBlockIn = s.maxBlockIn := rfl
@[simp] theorem acknowledgeErrors_opFs (s : State) : (acknowledgeErrors s).opFs = s.opFs := rfl
@[simp] theorem acknowledgeErrors_opF0 (s : State) : (acknowledgeErrors s).opF0 = s.opF0 := rfl
@[simp] theorem acknowledgeErrors_opQ (s : State) : (acknowledgeErrors s).opQ = s.opQ := rfl
@[simp] theorem acknowledgeErrors_opGain (s : State) :
    (acknowledgeErrors s).opGain = s.opGain := rfl
@[simp] theorem acknowledgeErrors_opX (s : State) : (acknowledgeErrors s).opX = s.opX := rfl
@[simp] theorem acknowledgeErrors_cs (s : State) : (acknowledgeErrors s).cs = s.cs := rfl
@[simp] theorem acknowledgeErrors_resY (s : State) : (acknowledgeErrors s).resY = s.resY := rfl
@[simp] theorem acknowledgeErrors_life (s : State) : (acknowledgeErrors s).life = s.life := rfl
@[simp] theorem acknowledgeErrors_eInvParam (s : State) :
    (acknowledgeErrors s).eInvParam = false := rfl
@[simp] theorem acknowledgeErrors_eUninit (s : State) : (acknowledgeErrors s).eUninit = false := rfl
@[simp] theorem acknowledgeErrors_eBadCmd (s : State) : (acknowledgeErrors s).eBadCmd = false := rfl
@[simp] theorem acknowledgeErrors_calcCount (s : State) :
    (acknowledgeErrors s).calcCount = s.calcCount := rfl
@[simp] theorem acknowledgeErrors_errCause (s : State) :
    (acknowledgeErrors s).errCause = none := rfl
@[simp] theorem acknowledgeErrors_errCmd (s : State) : (acknowledgeErrors s).errCmd = 0#32 := rfl
@[simp] theorem acknowledgeErrors_fs (s : State) : (acknowledgeErrors s).fs = s.fs := rfl
@[simp] theorem acknowledgeErrors_maxBlock (s : State) :
    (acknowledgeErrors s).maxBlock = s.maxBlock := rfl
@[simp] theorem acknowledgeErrors_coef (s : State) : (acknowledgeErrors s).coef = s.coef := rfl
@[simp] theorem acknowledgeErrors_lastGain (s : State) :
    (acknowledgeErrors s).lastGain = s.lastGain := rfl
@[simp] theorem acknowledgeErrors_lastQ (s : State) : (acknowledgeErrors s).lastQ = s.lastQ := rfl
@[simp] theorem acknowledgeErrors_valid (s : State) : (acknowledgeErrors s).valid = s.valid := rfl
@[simp] theorem acknowledgeErrors_snapLowGain (s : State) :
    (acknowledgeErrors s).snapLowGain = s.snapLowGain := rfl
@[simp] theorem acknowledgeErrors_snapMidGain (s : State) :
    (acknowledgeErrors s).snapMidGain = s.snapMidGain := rfl
@[simp] theorem acknowledgeErrors_snapHighGain (s : State) :
    (acknowledgeErrors s).snapHighGain = s.snapHighGain := rfl
@[simp] theorem acknowledgeErrors_snapMidQ (s : State) :
    (acknowledgeErrors s).snapMidQ = s.snapMidQ := rfl
@[simp] theorem acknowledgeErrors_snapSat (s : State) :
    (acknowledgeErrors s).snapSat = s.snapSat := rfl
@[simp] theorem acknowledgeErrors_delay (s : State) : (acknowledgeErrors s).delay = s.delay := rfl
@[simp] theorem acknowledgeErrors_buf (s : State) : (acknowledgeErrors s).buf = s.buf := rfl
@[simp] theorem acknowledgeErrors_bufEpoch (s : State) :
    (acknowledgeErrors s).bufEpoch = s.bufEpoch := rfl
@[simp] theorem acknowledgeErrors_pending (s : State) :
    (acknowledgeErrors s).pending = s.pending := rfl
@[simp] theorem acknowledgeErrors_readData (s : State) :
    (acknowledgeErrors s).readData = s.readData := rfl

/-! ## `countInvocation` -/

@[simp] theorem countInvocation_lowGainDb (s : State) :
    (countInvocation s).lowGainDb = s.lowGainDb := rfl
@[simp] theorem countInvocation_midGainDb (s : State) :
    (countInvocation s).midGainDb = s.midGainDb := rfl
@[simp] theorem countInvocation_highGainDb (s : State) :
    (countInvocation s).highGainDb = s.highGainDb := rfl
@[simp] theorem countInvocation_midQ (s : State) : (countInvocation s).midQ = s.midQ := rfl
@[simp] theorem countInvocation_satEn (s : State) : (countInvocation s).satEn = s.satEn := rfl
@[simp] theorem countInvocation_sampleRateIn (s : State) :
    (countInvocation s).sampleRateIn = s.sampleRateIn := rfl
@[simp] theorem countInvocation_maxBlockIn (s : State) :
    (countInvocation s).maxBlockIn = s.maxBlockIn := rfl
@[simp] theorem countInvocation_opFs (s : State) : (countInvocation s).opFs = s.opFs := rfl
@[simp] theorem countInvocation_opF0 (s : State) : (countInvocation s).opF0 = s.opF0 := rfl
@[simp] theorem countInvocation_opQ (s : State) : (countInvocation s).opQ = s.opQ := rfl
@[simp] theorem countInvocation_opGain (s : State) : (countInvocation s).opGain = s.opGain := rfl
@[simp] theorem countInvocation_opX (s : State) : (countInvocation s).opX = s.opX := rfl
@[simp] theorem countInvocation_cs (s : State) : (countInvocation s).cs = s.cs := rfl
@[simp] theorem countInvocation_resY (s : State) : (countInvocation s).resY = s.resY := rfl
@[simp] theorem countInvocation_life (s : State) : (countInvocation s).life = s.life := rfl
@[simp] theorem countInvocation_eInvParam (s : State) :
    (countInvocation s).eInvParam = s.eInvParam := rfl
@[simp] theorem countInvocation_eUninit (s : State) : (countInvocation s).eUninit = s.eUninit := rfl
@[simp] theorem countInvocation_eBadCmd (s : State) : (countInvocation s).eBadCmd = s.eBadCmd := rfl
@[simp] theorem countInvocation_calcCount (s : State) :
    (countInvocation s).calcCount = s.calcCount + 1#32 := rfl
@[simp] theorem countInvocation_errCause (s : State) :
    (countInvocation s).errCause = s.errCause := rfl
@[simp] theorem countInvocation_errCmd (s : State) : (countInvocation s).errCmd = s.errCmd := rfl
@[simp] theorem countInvocation_fs (s : State) : (countInvocation s).fs = s.fs := rfl
@[simp] theorem countInvocation_maxBlock (s : State) :
    (countInvocation s).maxBlock = s.maxBlock := rfl
@[simp] theorem countInvocation_coef (s : State) : (countInvocation s).coef = s.coef := rfl
@[simp] theorem countInvocation_lastGain (s : State) :
    (countInvocation s).lastGain = s.lastGain := rfl
@[simp] theorem countInvocation_lastQ (s : State) : (countInvocation s).lastQ = s.lastQ := rfl
@[simp] theorem countInvocation_valid (s : State) : (countInvocation s).valid = s.valid := rfl
@[simp] theorem countInvocation_snapLowGain (s : State) :
    (countInvocation s).snapLowGain = s.snapLowGain := rfl
@[simp] theorem countInvocation_snapMidGain (s : State) :
    (countInvocation s).snapMidGain = s.snapMidGain := rfl
@[simp] theorem countInvocation_snapHighGain (s : State) :
    (countInvocation s).snapHighGain = s.snapHighGain := rfl
@[simp] theorem countInvocation_snapMidQ (s : State) :
    (countInvocation s).snapMidQ = s.snapMidQ := rfl
@[simp] theorem countInvocation_snapSat (s : State) : (countInvocation s).snapSat = s.snapSat := rfl
@[simp] theorem countInvocation_delay (s : State) : (countInvocation s).delay = s.delay := rfl
@[simp] theorem countInvocation_buf (s : State) : (countInvocation s).buf = s.buf := rfl
@[simp] theorem countInvocation_bufEpoch (s : State) :
    (countInvocation s).bufEpoch = s.bufEpoch := rfl
@[simp] theorem countInvocation_pending (s : State) : (countInvocation s).pending = s.pending := rfl
@[simp] theorem countInvocation_readData (s : State) :
    (countInvocation s).readData = s.readData := rfl

/-! ## `setChanDelay` -/

@[simp] theorem setChanDelay_lowGainDb (ch : Nat) (d : PerBand Delay) (s : State) :
    (setChanDelay ch d s).lowGainDb = s.lowGainDb := rfl
@[simp] theorem setChanDelay_midGainDb (ch : Nat) (d : PerBand Delay) (s : State) :
    (setChanDelay ch d s).midGainDb = s.midGainDb := rfl
@[simp] theorem setChanDelay_highGainDb (ch : Nat) (d : PerBand Delay) (s : State) :
    (setChanDelay ch d s).highGainDb = s.highGainDb := rfl
@[simp] theorem setChanDelay_midQ (ch : Nat) (d : PerBand Delay) (s : State) :
    (setChanDelay ch d s).midQ = s.midQ := rfl
@[simp] theorem setChanDelay_satEn (ch : Nat) (d : PerBand Delay) (s : State) :
    (setChanDelay ch d s).satEn = s.satEn := rfl
@[simp] theorem setChanDelay_sampleRateIn (ch : Nat) (d : PerBand Delay) (s : State) :
    (setChanDelay ch d s).sampleRateIn = s.sampleRateIn := rfl
@[simp] theorem setChanDelay_maxBlockIn (ch : Nat) (d : PerBand Delay) (s : State) :
    (setChanDelay ch d s).maxBlockIn = s.maxBlockIn := rfl
@[simp] theorem setChanDelay_opFs (ch : Nat) (d : PerBand Delay) (s : State) :
    (setChanDelay ch d s).opFs = s.opFs := rfl
@[simp] theorem setChanDelay_opF0 (ch : Nat) (d : PerBand Delay) (s : State) :
    (setChanDelay ch d s).opF0 = s.opF0 := rfl
@[simp] theorem setChanDelay_opQ (ch : Nat) (d : PerBand Delay) (s : State) :
    (setChanDelay ch d s).opQ = s.opQ := rfl
@[simp] theorem setChanDelay_opGain (ch : Nat) (d : PerBand Delay) (s : State) :
    (setChanDelay ch d s).opGain = s.opGain := rfl
@[simp] theorem setChanDelay_opX (ch : Nat) (d : PerBand Delay) (s : State) :
    (setChanDelay ch d s).opX = s.opX := rfl
@[simp] theorem setChanDelay_cs (ch : Nat) (d : PerBand Delay) (s : State) :
    (setChanDelay ch d s).cs = s.cs := rfl
@[simp] theorem setChanDelay_resY (ch : Nat) (d : PerBand Delay) (s : State) :
    (setChanDelay ch d s).resY = s.resY := rfl
@[simp] theorem setChanDelay_life (ch : Nat) (d : PerBand Delay) (s : State) :
    (setChanDelay ch d s).life = s.life := rfl
@[simp] theorem setChanDelay_eInvParam (ch : Nat) (d : PerBand Delay) (s : State) :
    (setChanDelay ch d s).eInvParam = s.eInvParam := rfl
@[simp] theorem setChanDelay_eUninit (ch : Nat) (d : PerBand Delay) (s : State) :
    (setChanDelay ch d s).eUninit = s.eUninit := rfl
@[simp] theorem setChanDelay_eBadCmd (ch : Nat) (d : PerBand Delay) (s : State) :
    (setChanDelay ch d s).eBadCmd = s.eBadCmd := rfl
@[simp] theorem setChanDelay_calcCount (ch : Nat) (d : PerBand Delay) (s : State) :
    (setChanDelay ch d s).calcCount = s.calcCount := rfl
@[simp] theorem setChanDelay_errCause (ch : Nat) (d : PerBand Delay) (s : State) :
    (setChanDelay ch d s).errCause = s.errCause := rfl
@[simp] theorem setChanDelay_errCmd (ch : Nat) (d : PerBand Delay) (s : State) :
    (setChanDelay ch d s).errCmd = s.errCmd := rfl
@[simp] theorem setChanDelay_fs (ch : Nat) (d : PerBand Delay) (s : State) :
    (setChanDelay ch d s).fs = s.fs := rfl
@[simp] theorem setChanDelay_maxBlock (ch : Nat) (d : PerBand Delay) (s : State) :
    (setChanDelay ch d s).maxBlock = s.maxBlock := rfl
@[simp] theorem setChanDelay_coef (ch : Nat) (d : PerBand Delay) (s : State) :
    (setChanDelay ch d s).coef = s.coef := rfl
@[simp] theorem setChanDelay_lastGain (ch : Nat) (d : PerBand Delay) (s : State) :
    (setChanDelay ch d s).lastGain = s.lastGain := rfl
@[simp] theorem setChanDelay_lastQ (ch : Nat) (d : PerBand Delay) (s : State) :
    (setChanDelay ch d s).lastQ = s.lastQ := rfl
@[simp] theorem setChanDelay_valid (ch : Nat) (d : PerBand Delay) (s : State) :
    (setChanDelay ch d s).valid = s.valid := rfl
@[simp] theorem setChanDelay_snapLowGain (ch : Nat) (d : PerBand Delay) (s : State) :
    (setChanDelay ch d s).snapLowGain = s.snapLowGain := rfl
@[simp] theorem setChanDelay_snapMidGain (ch : Nat) (d : PerBand Delay) (s : State) :
    (setChanDelay ch d s).snapMidGain = s.snapMidGain := rfl
@[simp] theorem setChanDelay_snapHighGain (ch : Nat) (d : PerBand Delay) (s : State) :
    (setChanDelay ch d s).snapHighGain = s.snapHighGain := rfl
@[simp] theorem setChanDelay_snapMidQ (ch : Nat) (d : PerBand Delay) (s : State) :
    (setChanDelay ch d s).snapMidQ = s.snapMidQ := rfl
@[simp] theorem setChanDelay_snapSat (ch : Nat) (d : PerBand Delay) (s : State) :
    (setChanDelay ch d s).snapSat = s.snapSat := rfl
@[simp] theorem setChanDelay_delay (ch : Nat) (d : PerBand Delay) (s : State) :
    (setChanDelay ch d s).delay = s.delay.setIfInBounds ch d := rfl
@[simp] theorem setChanDelay_buf (ch : Nat) (d : PerBand Delay) (s : State) :
    (setChanDelay ch d s).buf = s.buf := rfl
@[simp] theorem setChanDelay_bufEpoch (ch : Nat) (d : PerBand Delay) (s : State) :
    (setChanDelay ch d s).bufEpoch = s.bufEpoch := rfl
@[simp] theorem setChanDelay_pending (ch : Nat) (d : PerBand Delay) (s : State) :
    (setChanDelay ch d s).pending = s.pending := rfl
@[simp] theorem setChanDelay_readData (ch : Nat) (d : PerBand Delay) (s : State) :
    (setChanDelay ch d s).readData = s.readData := rfl

/-! ## `setDelay` -/

@[simp] theorem setDelay_lowGainDb (ch : Nat) (b : Band) (d : Delay) (s : State) :
    (setDelay ch b d s).lowGainDb = s.lowGainDb := rfl
@[simp] theorem setDelay_midGainDb (ch : Nat) (b : Band) (d : Delay) (s : State) :
    (setDelay ch b d s).midGainDb = s.midGainDb := rfl
@[simp] theorem setDelay_highGainDb (ch : Nat) (b : Band) (d : Delay) (s : State) :
    (setDelay ch b d s).highGainDb = s.highGainDb := rfl
@[simp] theorem setDelay_midQ (ch : Nat) (b : Band) (d : Delay) (s : State) :
    (setDelay ch b d s).midQ = s.midQ := rfl
@[simp] theorem setDelay_satEn (ch : Nat) (b : Band) (d : Delay) (s : State) :
    (setDelay ch b d s).satEn = s.satEn := rfl
@[simp] theorem setDelay_sampleRateIn (ch : Nat) (b : Band) (d : Delay) (s : State) :
    (setDelay ch b d s).sampleRateIn = s.sampleRateIn := rfl
@[simp] theorem setDelay_maxBlockIn (ch : Nat) (b : Band) (d : Delay) (s : State) :
    (setDelay ch b d s).maxBlockIn = s.maxBlockIn := rfl
@[simp] theorem setDelay_opFs (ch : Nat) (b : Band) (d : Delay) (s : State) :
    (setDelay ch b d s).opFs = s.opFs := rfl
@[simp] theorem setDelay_opF0 (ch : Nat) (b : Band) (d : Delay) (s : State) :
    (setDelay ch b d s).opF0 = s.opF0 := rfl
@[simp] theorem setDelay_opQ (ch : Nat) (b : Band) (d : Delay) (s : State) :
    (setDelay ch b d s).opQ = s.opQ := rfl
@[simp] theorem setDelay_opGain (ch : Nat) (b : Band) (d : Delay) (s : State) :
    (setDelay ch b d s).opGain = s.opGain := rfl
@[simp] theorem setDelay_opX (ch : Nat) (b : Band) (d : Delay) (s : State) :
    (setDelay ch b d s).opX = s.opX := rfl
@[simp] theorem setDelay_cs (ch : Nat) (b : Band) (d : Delay) (s : State) :
    (setDelay ch b d s).cs = s.cs := rfl
@[simp] theorem setDelay_resY (ch : Nat) (b : Band) (d : Delay) (s : State) :
    (setDelay ch b d s).resY = s.resY := rfl
@[simp] theorem setDelay_life (ch : Nat) (b : Band) (d : Delay) (s : State) :
    (setDelay ch b d s).life = s.life := rfl
@[simp] theorem setDelay_eInvParam (ch : Nat) (b : Band) (d : Delay) (s : State) :
    (setDelay ch b d s).eInvParam = s.eInvParam := rfl
@[simp] theorem setDelay_eUninit (ch : Nat) (b : Band) (d : Delay) (s : State) :
    (setDelay ch b d s).eUninit = s.eUninit := rfl
@[simp] theorem setDelay_eBadCmd (ch : Nat) (b : Band) (d : Delay) (s : State) :
    (setDelay ch b d s).eBadCmd = s.eBadCmd := rfl
@[simp] theorem setDelay_calcCount (ch : Nat) (b : Band) (d : Delay) (s : State) :
    (setDelay ch b d s).calcCount = s.calcCount := rfl
@[simp] theorem setDelay_errCause (ch : Nat) (b : Band) (d : Delay) (s : State) :
    (setDelay ch b d s).errCause = s.errCause := rfl
@[simp] theorem setDelay_errCmd (ch : Nat) (b : Band) (d : Delay) (s : State) :
    (setDelay ch b d s).errCmd = s.errCmd := rfl
@[simp] theorem setDelay_fs (ch : Nat) (b : Band) (d : Delay) (s : State) :
    (setDelay ch b d s).fs = s.fs := rfl
@[simp] theorem setDelay_maxBlock (ch : Nat) (b : Band) (d : Delay) (s : State) :
    (setDelay ch b d s).maxBlock = s.maxBlock := rfl
@[simp] theorem setDelay_coef (ch : Nat) (b : Band) (d : Delay) (s : State) :
    (setDelay ch b d s).coef = s.coef := rfl
@[simp] theorem setDelay_lastGain (ch : Nat) (b : Band) (d : Delay) (s : State) :
    (setDelay ch b d s).lastGain = s.lastGain := rfl
@[simp] theorem setDelay_lastQ (ch : Nat) (b : Band) (d : Delay) (s : State) :
    (setDelay ch b d s).lastQ = s.lastQ := rfl
@[simp] theorem setDelay_valid (ch : Nat) (b : Band) (d : Delay) (s : State) :
    (setDelay ch b d s).valid = s.valid := rfl
@[simp] theorem setDelay_snapLowGain (ch : Nat) (b : Band) (d : Delay) (s : State) :
    (setDelay ch b d s).snapLowGain = s.snapLowGain := rfl
@[simp] theorem setDelay_snapMidGain (ch : Nat) (b : Band) (d : Delay) (s : State) :
    (setDelay ch b d s).snapMidGain = s.snapMidGain := rfl
@[simp] theorem setDelay_snapHighGain (ch : Nat) (b : Band) (d : Delay) (s : State) :
    (setDelay ch b d s).snapHighGain = s.snapHighGain := rfl
@[simp] theorem setDelay_snapMidQ (ch : Nat) (b : Band) (d : Delay) (s : State) :
    (setDelay ch b d s).snapMidQ = s.snapMidQ := rfl
@[simp] theorem setDelay_snapSat (ch : Nat) (b : Band) (d : Delay) (s : State) :
    (setDelay ch b d s).snapSat = s.snapSat := rfl
@[simp] theorem setDelay_delay (ch : Nat) (b : Band) (d : Delay) (s : State) :
    (setDelay ch b d s).delay = s.delay.setIfInBounds ch ((chanDelay s ch).set b d) := rfl
@[simp] theorem setDelay_buf (ch : Nat) (b : Band) (d : Delay) (s : State) :
    (setDelay ch b d s).buf = s.buf := rfl
@[simp] theorem setDelay_bufEpoch (ch : Nat) (b : Band) (d : Delay) (s : State) :
    (setDelay ch b d s).bufEpoch = s.bufEpoch := rfl
@[simp] theorem setDelay_pending (ch : Nat) (b : Band) (d : Delay) (s : State) :
    (setDelay ch b d s).pending = s.pending := rfl
@[simp] theorem setDelay_readData (ch : Nat) (b : Band) (d : Delay) (s : State) :
    (setDelay ch b d s).readData = s.readData := rfl

/-! ## `zeroDelays` -/

@[simp] theorem zeroDelays_lowGainDb (s : State) : (zeroDelays s).lowGainDb = s.lowGainDb := rfl
@[simp] theorem zeroDelays_midGainDb (s : State) : (zeroDelays s).midGainDb = s.midGainDb := rfl
@[simp] theorem zeroDelays_highGainDb (s : State) : (zeroDelays s).highGainDb = s.highGainDb := rfl
@[simp] theorem zeroDelays_midQ (s : State) : (zeroDelays s).midQ = s.midQ := rfl
@[simp] theorem zeroDelays_satEn (s : State) : (zeroDelays s).satEn = s.satEn := rfl
@[simp] theorem zeroDelays_sampleRateIn (s : State) :
    (zeroDelays s).sampleRateIn = s.sampleRateIn := rfl
@[simp] theorem zeroDelays_maxBlockIn (s : State) : (zeroDelays s).maxBlockIn = s.maxBlockIn := rfl
@[simp] theorem zeroDelays_opFs (s : State) : (zeroDelays s).opFs = s.opFs := rfl
@[simp] theorem zeroDelays_opF0 (s : State) : (zeroDelays s).opF0 = s.opF0 := rfl
@[simp] theorem zeroDelays_opQ (s : State) : (zeroDelays s).opQ = s.opQ := rfl
@[simp] theorem zeroDelays_opGain (s : State) : (zeroDelays s).opGain = s.opGain := rfl
@[simp] theorem zeroDelays_opX (s : State) : (zeroDelays s).opX = s.opX := rfl
@[simp] theorem zeroDelays_cs (s : State) : (zeroDelays s).cs = s.cs := rfl
@[simp] theorem zeroDelays_resY (s : State) : (zeroDelays s).resY = s.resY := rfl
@[simp] theorem zeroDelays_life (s : State) : (zeroDelays s).life = s.life := rfl
@[simp] theorem zeroDelays_eInvParam (s : State) : (zeroDelays s).eInvParam = s.eInvParam := rfl
@[simp] theorem zeroDelays_eUninit (s : State) : (zeroDelays s).eUninit = s.eUninit := rfl
@[simp] theorem zeroDelays_eBadCmd (s : State) : (zeroDelays s).eBadCmd = s.eBadCmd := rfl
@[simp] theorem zeroDelays_calcCount (s : State) : (zeroDelays s).calcCount = s.calcCount := rfl
@[simp] theorem zeroDelays_errCause (s : State) : (zeroDelays s).errCause = s.errCause := rfl
@[simp] theorem zeroDelays_errCmd (s : State) : (zeroDelays s).errCmd = s.errCmd := rfl
@[simp] theorem zeroDelays_fs (s : State) : (zeroDelays s).fs = s.fs := rfl
@[simp] theorem zeroDelays_maxBlock (s : State) : (zeroDelays s).maxBlock = s.maxBlock := rfl
@[simp] theorem zeroDelays_coef (s : State) : (zeroDelays s).coef = s.coef := rfl
@[simp] theorem zeroDelays_lastGain (s : State) : (zeroDelays s).lastGain = s.lastGain := rfl
@[simp] theorem zeroDelays_lastQ (s : State) : (zeroDelays s).lastQ = s.lastQ := rfl
@[simp] theorem zeroDelays_valid (s : State) : (zeroDelays s).valid = s.valid := rfl
@[simp] theorem zeroDelays_snapLowGain (s : State) :
    (zeroDelays s).snapLowGain = s.snapLowGain := rfl
@[simp] theorem zeroDelays_snapMidGain (s : State) :
    (zeroDelays s).snapMidGain = s.snapMidGain := rfl
@[simp] theorem zeroDelays_snapHighGain (s : State) :
    (zeroDelays s).snapHighGain = s.snapHighGain := rfl
@[simp] theorem zeroDelays_snapMidQ (s : State) : (zeroDelays s).snapMidQ = s.snapMidQ := rfl
@[simp] theorem zeroDelays_snapSat (s : State) : (zeroDelays s).snapSat = s.snapSat := rfl
@[simp] theorem zeroDelays_delay (s : State) :
    (zeroDelays s).delay = Vector.replicate Config.nch (PerBand.all Delay.zero) := rfl
@[simp] theorem zeroDelays_buf (s : State) : (zeroDelays s).buf = s.buf := rfl
@[simp] theorem zeroDelays_bufEpoch (s : State) : (zeroDelays s).bufEpoch = s.bufEpoch := rfl
@[simp] theorem zeroDelays_pending (s : State) : (zeroDelays s).pending = s.pending := rfl
@[simp] theorem zeroDelays_readData (s : State) : (zeroDelays s).readData = s.readData := rfl

/-! ## `writeMemWord` -/

@[simp] theorem writeMemWord_lowGainDb (addr : Nat) (v : Word) (s : State) :
    (writeMemWord addr v s).lowGainDb = s.lowGainDb := rfl
@[simp] theorem writeMemWord_midGainDb (addr : Nat) (v : Word) (s : State) :
    (writeMemWord addr v s).midGainDb = s.midGainDb := rfl
@[simp] theorem writeMemWord_highGainDb (addr : Nat) (v : Word) (s : State) :
    (writeMemWord addr v s).highGainDb = s.highGainDb := rfl
@[simp] theorem writeMemWord_midQ (addr : Nat) (v : Word) (s : State) :
    (writeMemWord addr v s).midQ = s.midQ := rfl
@[simp] theorem writeMemWord_satEn (addr : Nat) (v : Word) (s : State) :
    (writeMemWord addr v s).satEn = s.satEn := rfl
@[simp] theorem writeMemWord_sampleRateIn (addr : Nat) (v : Word) (s : State) :
    (writeMemWord addr v s).sampleRateIn = s.sampleRateIn := rfl
@[simp] theorem writeMemWord_maxBlockIn (addr : Nat) (v : Word) (s : State) :
    (writeMemWord addr v s).maxBlockIn = s.maxBlockIn := rfl
@[simp] theorem writeMemWord_opFs (addr : Nat) (v : Word) (s : State) :
    (writeMemWord addr v s).opFs = s.opFs := rfl
@[simp] theorem writeMemWord_opF0 (addr : Nat) (v : Word) (s : State) :
    (writeMemWord addr v s).opF0 = s.opF0 := rfl
@[simp] theorem writeMemWord_opQ (addr : Nat) (v : Word) (s : State) :
    (writeMemWord addr v s).opQ = s.opQ := rfl
@[simp] theorem writeMemWord_opGain (addr : Nat) (v : Word) (s : State) :
    (writeMemWord addr v s).opGain = s.opGain := rfl
@[simp] theorem writeMemWord_opX (addr : Nat) (v : Word) (s : State) :
    (writeMemWord addr v s).opX = s.opX := rfl
@[simp] theorem writeMemWord_cs (addr : Nat) (v : Word) (s : State) :
    (writeMemWord addr v s).cs = s.cs := rfl
@[simp] theorem writeMemWord_resY (addr : Nat) (v : Word) (s : State) :
    (writeMemWord addr v s).resY = s.resY := rfl
@[simp] theorem writeMemWord_life (addr : Nat) (v : Word) (s : State) :
    (writeMemWord addr v s).life = s.life := rfl
@[simp] theorem writeMemWord_eInvParam (addr : Nat) (v : Word) (s : State) :
    (writeMemWord addr v s).eInvParam = s.eInvParam := rfl
@[simp] theorem writeMemWord_eUninit (addr : Nat) (v : Word) (s : State) :
    (writeMemWord addr v s).eUninit = s.eUninit := rfl
@[simp] theorem writeMemWord_eBadCmd (addr : Nat) (v : Word) (s : State) :
    (writeMemWord addr v s).eBadCmd = s.eBadCmd := rfl
@[simp] theorem writeMemWord_calcCount (addr : Nat) (v : Word) (s : State) :
    (writeMemWord addr v s).calcCount = s.calcCount := rfl
@[simp] theorem writeMemWord_errCause (addr : Nat) (v : Word) (s : State) :
    (writeMemWord addr v s).errCause = s.errCause := rfl
@[simp] theorem writeMemWord_errCmd (addr : Nat) (v : Word) (s : State) :
    (writeMemWord addr v s).errCmd = s.errCmd := rfl
@[simp] theorem writeMemWord_fs (addr : Nat) (v : Word) (s : State) :
    (writeMemWord addr v s).fs = s.fs := rfl
@[simp] theorem writeMemWord_maxBlock (addr : Nat) (v : Word) (s : State) :
    (writeMemWord addr v s).maxBlock = s.maxBlock := rfl
@[simp] theorem writeMemWord_coef (addr : Nat) (v : Word) (s : State) :
    (writeMemWord addr v s).coef = s.coef := rfl
@[simp] theorem writeMemWord_lastGain (addr : Nat) (v : Word) (s : State) :
    (writeMemWord addr v s).lastGain = s.lastGain := rfl
@[simp] theorem writeMemWord_lastQ (addr : Nat) (v : Word) (s : State) :
    (writeMemWord addr v s).lastQ = s.lastQ := rfl
@[simp] theorem writeMemWord_valid (addr : Nat) (v : Word) (s : State) :
    (writeMemWord addr v s).valid = s.valid := rfl
@[simp] theorem writeMemWord_snapLowGain (addr : Nat) (v : Word) (s : State) :
    (writeMemWord addr v s).snapLowGain = s.snapLowGain := rfl
@[simp] theorem writeMemWord_snapMidGain (addr : Nat) (v : Word) (s : State) :
    (writeMemWord addr v s).snapMidGain = s.snapMidGain := rfl
@[simp] theorem writeMemWord_snapHighGain (addr : Nat) (v : Word) (s : State) :
    (writeMemWord addr v s).snapHighGain = s.snapHighGain := rfl
@[simp] theorem writeMemWord_snapMidQ (addr : Nat) (v : Word) (s : State) :
    (writeMemWord addr v s).snapMidQ = s.snapMidQ := rfl
@[simp] theorem writeMemWord_snapSat (addr : Nat) (v : Word) (s : State) :
    (writeMemWord addr v s).snapSat = s.snapSat := rfl
@[simp] theorem writeMemWord_delay (addr : Nat) (v : Word) (s : State) :
    (writeMemWord addr v s).delay = s.delay := rfl
@[simp] theorem writeMemWord_buf (addr : Nat) (v : Word) (s : State) :
    (writeMemWord addr v s).buf = Memory.storeWord s.buf addr v := rfl
@[simp] theorem writeMemWord_bufEpoch (addr : Nat) (v : Word) (s : State) :
    (writeMemWord addr v s).bufEpoch = s.bufEpoch := rfl
@[simp] theorem writeMemWord_pending (addr : Nat) (v : Word) (s : State) :
    (writeMemWord addr v s).pending = s.pending := rfl
@[simp] theorem writeMemWord_readData (addr : Nat) (v : Word) (s : State) :
    (writeMemWord addr v s).readData = s.readData := rfl

/-! ## `writeBuf` -/

@[simp] theorem writeBuf_lowGainDb (ch i : Nat) (v : Word) (s : State) :
    (writeBuf ch i v s).lowGainDb = s.lowGainDb := rfl
@[simp] theorem writeBuf_midGainDb (ch i : Nat) (v : Word) (s : State) :
    (writeBuf ch i v s).midGainDb = s.midGainDb := rfl
@[simp] theorem writeBuf_highGainDb (ch i : Nat) (v : Word) (s : State) :
    (writeBuf ch i v s).highGainDb = s.highGainDb := rfl
@[simp] theorem writeBuf_midQ (ch i : Nat) (v : Word) (s : State) :
    (writeBuf ch i v s).midQ = s.midQ := rfl
@[simp] theorem writeBuf_satEn (ch i : Nat) (v : Word) (s : State) :
    (writeBuf ch i v s).satEn = s.satEn := rfl
@[simp] theorem writeBuf_sampleRateIn (ch i : Nat) (v : Word) (s : State) :
    (writeBuf ch i v s).sampleRateIn = s.sampleRateIn := rfl
@[simp] theorem writeBuf_maxBlockIn (ch i : Nat) (v : Word) (s : State) :
    (writeBuf ch i v s).maxBlockIn = s.maxBlockIn := rfl
@[simp] theorem writeBuf_opFs (ch i : Nat) (v : Word) (s : State) :
    (writeBuf ch i v s).opFs = s.opFs := rfl
@[simp] theorem writeBuf_opF0 (ch i : Nat) (v : Word) (s : State) :
    (writeBuf ch i v s).opF0 = s.opF0 := rfl
@[simp] theorem writeBuf_opQ (ch i : Nat) (v : Word) (s : State) :
    (writeBuf ch i v s).opQ = s.opQ := rfl
@[simp] theorem writeBuf_opGain (ch i : Nat) (v : Word) (s : State) :
    (writeBuf ch i v s).opGain = s.opGain := rfl
@[simp] theorem writeBuf_opX (ch i : Nat) (v : Word) (s : State) :
    (writeBuf ch i v s).opX = s.opX := rfl
@[simp] theorem writeBuf_cs (ch i : Nat) (v : Word) (s : State) :
    (writeBuf ch i v s).cs = s.cs := rfl
@[simp] theorem writeBuf_resY (ch i : Nat) (v : Word) (s : State) :
    (writeBuf ch i v s).resY = s.resY := rfl
@[simp] theorem writeBuf_life (ch i : Nat) (v : Word) (s : State) :
    (writeBuf ch i v s).life = s.life := rfl
@[simp] theorem writeBuf_eInvParam (ch i : Nat) (v : Word) (s : State) :
    (writeBuf ch i v s).eInvParam = s.eInvParam := rfl
@[simp] theorem writeBuf_eUninit (ch i : Nat) (v : Word) (s : State) :
    (writeBuf ch i v s).eUninit = s.eUninit := rfl
@[simp] theorem writeBuf_eBadCmd (ch i : Nat) (v : Word) (s : State) :
    (writeBuf ch i v s).eBadCmd = s.eBadCmd := rfl
@[simp] theorem writeBuf_calcCount (ch i : Nat) (v : Word) (s : State) :
    (writeBuf ch i v s).calcCount = s.calcCount := rfl
@[simp] theorem writeBuf_errCause (ch i : Nat) (v : Word) (s : State) :
    (writeBuf ch i v s).errCause = s.errCause := rfl
@[simp] theorem writeBuf_errCmd (ch i : Nat) (v : Word) (s : State) :
    (writeBuf ch i v s).errCmd = s.errCmd := rfl
@[simp] theorem writeBuf_fs (ch i : Nat) (v : Word) (s : State) :
    (writeBuf ch i v s).fs = s.fs := rfl
@[simp] theorem writeBuf_maxBlock (ch i : Nat) (v : Word) (s : State) :
    (writeBuf ch i v s).maxBlock = s.maxBlock := rfl
@[simp] theorem writeBuf_coef (ch i : Nat) (v : Word) (s : State) :
    (writeBuf ch i v s).coef = s.coef := rfl
@[simp] theorem writeBuf_lastGain (ch i : Nat) (v : Word) (s : State) :
    (writeBuf ch i v s).lastGain = s.lastGain := rfl
@[simp] theorem writeBuf_lastQ (ch i : Nat) (v : Word) (s : State) :
    (writeBuf ch i v s).lastQ = s.lastQ := rfl
@[simp] theorem writeBuf_valid (ch i : Nat) (v : Word) (s : State) :
    (writeBuf ch i v s).valid = s.valid := rfl
@[simp] theorem writeBuf_snapLowGain (ch i : Nat) (v : Word) (s : State) :
    (writeBuf ch i v s).snapLowGain = s.snapLowGain := rfl
@[simp] theorem writeBuf_snapMidGain (ch i : Nat) (v : Word) (s : State) :
    (writeBuf ch i v s).snapMidGain = s.snapMidGain := rfl
@[simp] theorem writeBuf_snapHighGain (ch i : Nat) (v : Word) (s : State) :
    (writeBuf ch i v s).snapHighGain = s.snapHighGain := rfl
@[simp] theorem writeBuf_snapMidQ (ch i : Nat) (v : Word) (s : State) :
    (writeBuf ch i v s).snapMidQ = s.snapMidQ := rfl
@[simp] theorem writeBuf_snapSat (ch i : Nat) (v : Word) (s : State) :
    (writeBuf ch i v s).snapSat = s.snapSat := rfl
@[simp] theorem writeBuf_delay (ch i : Nat) (v : Word) (s : State) :
    (writeBuf ch i v s).delay = s.delay := rfl
@[simp] theorem writeBuf_buf (ch i : Nat) (v : Word) (s : State) :
    (writeBuf ch i v s).buf = Memory.storeWord s.buf (bufAddr ch i) v := rfl
@[simp] theorem writeBuf_bufEpoch (ch i : Nat) (v : Word) (s : State) :
    (writeBuf ch i v s).bufEpoch = s.bufEpoch := rfl
@[simp] theorem writeBuf_pending (ch i : Nat) (v : Word) (s : State) :
    (writeBuf ch i v s).pending = s.pending := rfl
@[simp] theorem writeBuf_readData (ch i : Nat) (v : Word) (s : State) :
    (writeBuf ch i v s).readData = s.readData := rfl

/-! ## `takeSnapshot` -/

@[simp] theorem takeSnapshot_lowGainDb (s : State) : (takeSnapshot s).lowGainDb = s.lowGainDb := rfl
@[simp] theorem takeSnapshot_midGainDb (s : State) : (takeSnapshot s).midGainDb = s.midGainDb := rfl
@[simp] theorem takeSnapshot_highGainDb (s : State) :
    (takeSnapshot s).highGainDb = s.highGainDb := rfl
@[simp] theorem takeSnapshot_midQ (s : State) : (takeSnapshot s).midQ = s.midQ := rfl
@[simp] theorem takeSnapshot_satEn (s : State) : (takeSnapshot s).satEn = s.satEn := rfl
@[simp] theorem takeSnapshot_sampleRateIn (s : State) :
    (takeSnapshot s).sampleRateIn = s.sampleRateIn := rfl
@[simp] theorem takeSnapshot_maxBlockIn (s : State) :
    (takeSnapshot s).maxBlockIn = s.maxBlockIn := rfl
@[simp] theorem takeSnapshot_opFs (s : State) : (takeSnapshot s).opFs = s.opFs := rfl
@[simp] theorem takeSnapshot_opF0 (s : State) : (takeSnapshot s).opF0 = s.opF0 := rfl
@[simp] theorem takeSnapshot_opQ (s : State) : (takeSnapshot s).opQ = s.opQ := rfl
@[simp] theorem takeSnapshot_opGain (s : State) : (takeSnapshot s).opGain = s.opGain := rfl
@[simp] theorem takeSnapshot_opX (s : State) : (takeSnapshot s).opX = s.opX := rfl
@[simp] theorem takeSnapshot_cs (s : State) : (takeSnapshot s).cs = s.cs := rfl
@[simp] theorem takeSnapshot_resY (s : State) : (takeSnapshot s).resY = s.resY := rfl
@[simp] theorem takeSnapshot_life (s : State) : (takeSnapshot s).life = s.life := rfl
@[simp] theorem takeSnapshot_eInvParam (s : State) : (takeSnapshot s).eInvParam = s.eInvParam := rfl
@[simp] theorem takeSnapshot_eUninit (s : State) : (takeSnapshot s).eUninit = s.eUninit := rfl
@[simp] theorem takeSnapshot_eBadCmd (s : State) : (takeSnapshot s).eBadCmd = s.eBadCmd := rfl
@[simp] theorem takeSnapshot_calcCount (s : State) : (takeSnapshot s).calcCount = s.calcCount := rfl
@[simp] theorem takeSnapshot_errCause (s : State) : (takeSnapshot s).errCause = s.errCause := rfl
@[simp] theorem takeSnapshot_errCmd (s : State) : (takeSnapshot s).errCmd = s.errCmd := rfl
@[simp] theorem takeSnapshot_fs (s : State) : (takeSnapshot s).fs = s.fs := rfl
@[simp] theorem takeSnapshot_maxBlock (s : State) : (takeSnapshot s).maxBlock = s.maxBlock := rfl
@[simp] theorem takeSnapshot_coef (s : State) : (takeSnapshot s).coef = s.coef := rfl
@[simp] theorem takeSnapshot_lastGain (s : State) : (takeSnapshot s).lastGain = s.lastGain := rfl
@[simp] theorem takeSnapshot_lastQ (s : State) : (takeSnapshot s).lastQ = s.lastQ := rfl
@[simp] theorem takeSnapshot_valid (s : State) : (takeSnapshot s).valid = s.valid := rfl
@[simp] theorem takeSnapshot_snapLowGain (s : State) :
    (takeSnapshot s).snapLowGain = s.lowGainDb := rfl
@[simp] theorem takeSnapshot_snapMidGain (s : State) :
    (takeSnapshot s).snapMidGain = s.midGainDb := rfl
@[simp] theorem takeSnapshot_snapHighGain (s : State) :
    (takeSnapshot s).snapHighGain = s.highGainDb := rfl
@[simp] theorem takeSnapshot_snapMidQ (s : State) : (takeSnapshot s).snapMidQ = s.midQ := rfl
@[simp] theorem takeSnapshot_snapSat (s : State) : (takeSnapshot s).snapSat = s.satEn := rfl
@[simp] theorem takeSnapshot_delay (s : State) : (takeSnapshot s).delay = s.delay := rfl
@[simp] theorem takeSnapshot_buf (s : State) : (takeSnapshot s).buf = s.buf := rfl
@[simp] theorem takeSnapshot_bufEpoch (s : State) : (takeSnapshot s).bufEpoch = s.bufEpoch := rfl
@[simp] theorem takeSnapshot_pending (s : State) : (takeSnapshot s).pending = s.pending := rfl
@[simp] theorem takeSnapshot_readData (s : State) : (takeSnapshot s).readData = s.readData := rfl

/-! ## `applyBand` -/

@[simp] theorem applyBand_lowGainDb (b : Band) (g q : Word) (r : CoefSet) (s : State) :
    (applyBand b g q r s).lowGainDb = s.lowGainDb := rfl
@[simp] theorem applyBand_midGainDb (b : Band) (g q : Word) (r : CoefSet) (s : State) :
    (applyBand b g q r s).midGainDb = s.midGainDb := rfl
@[simp] theorem applyBand_highGainDb (b : Band) (g q : Word) (r : CoefSet) (s : State) :
    (applyBand b g q r s).highGainDb = s.highGainDb := rfl
@[simp] theorem applyBand_midQ (b : Band) (g q : Word) (r : CoefSet) (s : State) :
    (applyBand b g q r s).midQ = s.midQ := rfl
@[simp] theorem applyBand_satEn (b : Band) (g q : Word) (r : CoefSet) (s : State) :
    (applyBand b g q r s).satEn = s.satEn := rfl
@[simp] theorem applyBand_sampleRateIn (b : Band) (g q : Word) (r : CoefSet) (s : State) :
    (applyBand b g q r s).sampleRateIn = s.sampleRateIn := rfl
@[simp] theorem applyBand_maxBlockIn (b : Band) (g q : Word) (r : CoefSet) (s : State) :
    (applyBand b g q r s).maxBlockIn = s.maxBlockIn := rfl
@[simp] theorem applyBand_opFs (b : Band) (g q : Word) (r : CoefSet) (s : State) :
    (applyBand b g q r s).opFs = s.opFs := rfl
@[simp] theorem applyBand_opF0 (b : Band) (g q : Word) (r : CoefSet) (s : State) :
    (applyBand b g q r s).opF0 = s.opF0 := rfl
@[simp] theorem applyBand_opQ (b : Band) (g q : Word) (r : CoefSet) (s : State) :
    (applyBand b g q r s).opQ = s.opQ := rfl
@[simp] theorem applyBand_opGain (b : Band) (g q : Word) (r : CoefSet) (s : State) :
    (applyBand b g q r s).opGain = s.opGain := rfl
@[simp] theorem applyBand_opX (b : Band) (g q : Word) (r : CoefSet) (s : State) :
    (applyBand b g q r s).opX = s.opX := rfl
@[simp] theorem applyBand_cs (b : Band) (g q : Word) (r : CoefSet) (s : State) :
    (applyBand b g q r s).cs = s.cs := rfl
@[simp] theorem applyBand_resY (b : Band) (g q : Word) (r : CoefSet) (s : State) :
    (applyBand b g q r s).resY = s.resY := rfl
@[simp] theorem applyBand_life (b : Band) (g q : Word) (r : CoefSet) (s : State) :
    (applyBand b g q r s).life = s.life := rfl
@[simp] theorem applyBand_eInvParam (b : Band) (g q : Word) (r : CoefSet) (s : State) :
    (applyBand b g q r s).eInvParam = s.eInvParam := rfl
@[simp] theorem applyBand_eUninit (b : Band) (g q : Word) (r : CoefSet) (s : State) :
    (applyBand b g q r s).eUninit = s.eUninit := rfl
@[simp] theorem applyBand_eBadCmd (b : Band) (g q : Word) (r : CoefSet) (s : State) :
    (applyBand b g q r s).eBadCmd = s.eBadCmd := rfl
@[simp] theorem applyBand_calcCount (b : Band) (g q : Word) (r : CoefSet) (s : State) :
    (applyBand b g q r s).calcCount = s.calcCount := rfl
@[simp] theorem applyBand_errCause (b : Band) (g q : Word) (r : CoefSet) (s : State) :
    (applyBand b g q r s).errCause = s.errCause := rfl
@[simp] theorem applyBand_errCmd (b : Band) (g q : Word) (r : CoefSet) (s : State) :
    (applyBand b g q r s).errCmd = s.errCmd := rfl
@[simp] theorem applyBand_fs (b : Band) (g q : Word) (r : CoefSet) (s : State) :
    (applyBand b g q r s).fs = s.fs := rfl
@[simp] theorem applyBand_maxBlock (b : Band) (g q : Word) (r : CoefSet) (s : State) :
    (applyBand b g q r s).maxBlock = s.maxBlock := rfl
@[simp] theorem applyBand_coef (b : Band) (g q : Word) (r : CoefSet) (s : State) :
    (applyBand b g q r s).coef = s.coef.set b r := rfl
@[simp] theorem applyBand_lastGain (b : Band) (g q : Word) (r : CoefSet) (s : State) :
    (applyBand b g q r s).lastGain = s.lastGain.set b g := rfl
@[simp] theorem applyBand_lastQ (b : Band) (g q : Word) (r : CoefSet) (s : State) :
    (applyBand b g q r s).lastQ = if b = .mid then q else s.lastQ := rfl
@[simp] theorem applyBand_valid (b : Band) (g q : Word) (r : CoefSet) (s : State) :
    (applyBand b g q r s).valid = s.valid.set b true := rfl
@[simp] theorem applyBand_snapLowGain (b : Band) (g q : Word) (r : CoefSet) (s : State) :
    (applyBand b g q r s).snapLowGain = s.snapLowGain := rfl
@[simp] theorem applyBand_snapMidGain (b : Band) (g q : Word) (r : CoefSet) (s : State) :
    (applyBand b g q r s).snapMidGain = s.snapMidGain := rfl
@[simp] theorem applyBand_snapHighGain (b : Band) (g q : Word) (r : CoefSet) (s : State) :
    (applyBand b g q r s).snapHighGain = s.snapHighGain := rfl
@[simp] theorem applyBand_snapMidQ (b : Band) (g q : Word) (r : CoefSet) (s : State) :
    (applyBand b g q r s).snapMidQ = s.snapMidQ := rfl
@[simp] theorem applyBand_snapSat (b : Band) (g q : Word) (r : CoefSet) (s : State) :
    (applyBand b g q r s).snapSat = s.snapSat := rfl
@[simp] theorem applyBand_delay (b : Band) (g q : Word) (r : CoefSet) (s : State) :
    (applyBand b g q r s).delay = s.delay := rfl
@[simp] theorem applyBand_buf (b : Band) (g q : Word) (r : CoefSet) (s : State) :
    (applyBand b g q r s).buf = s.buf := rfl
@[simp] theorem applyBand_bufEpoch (b : Band) (g q : Word) (r : CoefSet) (s : State) :
    (applyBand b g q r s).bufEpoch = s.bufEpoch := rfl
@[simp] theorem applyBand_pending (b : Band) (g q : Word) (r : CoefSet) (s : State) :
    (applyBand b g q r s).pending = s.pending := rfl
@[simp] theorem applyBand_readData (b : Band) (g q : Word) (r : CoefSet) (s : State) :
    (applyBand b g q r s).readData = s.readData := rfl

/-! ## `applyPrepare` -/

@[simp] theorem applyPrepare_lowGainDb (s : State) : (applyPrepare s).lowGainDb = s.lowGainDb := rfl
@[simp] theorem applyPrepare_midGainDb (s : State) : (applyPrepare s).midGainDb = s.midGainDb := rfl
@[simp] theorem applyPrepare_highGainDb (s : State) :
    (applyPrepare s).highGainDb = s.highGainDb := rfl
@[simp] theorem applyPrepare_midQ (s : State) : (applyPrepare s).midQ = s.midQ := rfl
@[simp] theorem applyPrepare_satEn (s : State) : (applyPrepare s).satEn = s.satEn := rfl
@[simp] theorem applyPrepare_sampleRateIn (s : State) :
    (applyPrepare s).sampleRateIn = s.sampleRateIn := rfl
@[simp] theorem applyPrepare_maxBlockIn (s : State) :
    (applyPrepare s).maxBlockIn = s.maxBlockIn := rfl
@[simp] theorem applyPrepare_opFs (s : State) : (applyPrepare s).opFs = s.opFs := rfl
@[simp] theorem applyPrepare_opF0 (s : State) : (applyPrepare s).opF0 = s.opF0 := rfl
@[simp] theorem applyPrepare_opQ (s : State) : (applyPrepare s).opQ = s.opQ := rfl
@[simp] theorem applyPrepare_opGain (s : State) : (applyPrepare s).opGain = s.opGain := rfl
@[simp] theorem applyPrepare_opX (s : State) : (applyPrepare s).opX = s.opX := rfl
@[simp] theorem applyPrepare_cs (s : State) : (applyPrepare s).cs = s.cs := rfl
@[simp] theorem applyPrepare_resY (s : State) : (applyPrepare s).resY = s.resY := rfl
@[simp] theorem applyPrepare_life (s : State) : (applyPrepare s).life = .prepared := rfl
@[simp] theorem applyPrepare_eInvParam (s : State) : (applyPrepare s).eInvParam = s.eInvParam := rfl
@[simp] theorem applyPrepare_eUninit (s : State) : (applyPrepare s).eUninit = s.eUninit := rfl
@[simp] theorem applyPrepare_eBadCmd (s : State) : (applyPrepare s).eBadCmd = s.eBadCmd := rfl
@[simp] theorem applyPrepare_calcCount (s : State) : (applyPrepare s).calcCount = s.calcCount := rfl
@[simp] theorem applyPrepare_errCause (s : State) : (applyPrepare s).errCause = s.errCause := rfl
@[simp] theorem applyPrepare_errCmd (s : State) : (applyPrepare s).errCmd = s.errCmd := rfl
@[simp] theorem applyPrepare_fs (s : State) : (applyPrepare s).fs = s.sampleRateIn := rfl
@[simp] theorem applyPrepare_maxBlock (s : State) : (applyPrepare s).maxBlock = s.maxBlockIn := rfl
@[simp] theorem applyPrepare_coef (s : State) : (applyPrepare s).coef = s.coef := rfl
@[simp] theorem applyPrepare_lastGain (s : State) : (applyPrepare s).lastGain = s.lastGain := rfl
@[simp] theorem applyPrepare_lastQ (s : State) : (applyPrepare s).lastQ = s.lastQ := rfl
@[simp] theorem applyPrepare_valid (s : State) : (applyPrepare s).valid = PerBand.all false := rfl
@[simp] theorem applyPrepare_snapLowGain (s : State) :
    (applyPrepare s).snapLowGain = s.snapLowGain := rfl
@[simp] theorem applyPrepare_snapMidGain (s : State) :
    (applyPrepare s).snapMidGain = s.snapMidGain := rfl
@[simp] theorem applyPrepare_snapHighGain (s : State) :
    (applyPrepare s).snapHighGain = s.snapHighGain := rfl
@[simp] theorem applyPrepare_snapMidQ (s : State) : (applyPrepare s).snapMidQ = s.snapMidQ := rfl
@[simp] theorem applyPrepare_snapSat (s : State) : (applyPrepare s).snapSat = s.snapSat := rfl
@[simp] theorem applyPrepare_delay (s : State) :
    (applyPrepare s).delay = Vector.replicate Config.nch (PerBand.all Delay.zero) := rfl
@[simp] theorem applyPrepare_buf (s : State) : (applyPrepare s).buf = s.buf := rfl
@[simp] theorem applyPrepare_bufEpoch (s : State) : (applyPrepare s).bufEpoch = s.bufEpoch := rfl
@[simp] theorem applyPrepare_pending (s : State) : (applyPrepare s).pending = s.pending := rfl
@[simp] theorem applyPrepare_readData (s : State) : (applyPrepare s).readData = s.readData := rfl

/-! ## `hardwareReset` -/

@[simp] theorem hardwareReset_lowGainDb (s : State) :
    (hardwareReset s).lowGainDb = State.reset.lowGainDb := rfl
@[simp] theorem hardwareReset_midGainDb (s : State) :
    (hardwareReset s).midGainDb = State.reset.midGainDb := rfl
@[simp] theorem hardwareReset_highGainDb (s : State) :
    (hardwareReset s).highGainDb = State.reset.highGainDb := rfl
@[simp] theorem hardwareReset_midQ (s : State) : (hardwareReset s).midQ = State.reset.midQ := rfl
@[simp] theorem hardwareReset_satEn (s : State) : (hardwareReset s).satEn = State.reset.satEn := rfl
@[simp] theorem hardwareReset_sampleRateIn (s : State) :
    (hardwareReset s).sampleRateIn = State.reset.sampleRateIn := rfl
@[simp] theorem hardwareReset_maxBlockIn (s : State) :
    (hardwareReset s).maxBlockIn = State.reset.maxBlockIn := rfl
@[simp] theorem hardwareReset_opFs (s : State) : (hardwareReset s).opFs = State.reset.opFs := rfl
@[simp] theorem hardwareReset_opF0 (s : State) : (hardwareReset s).opF0 = State.reset.opF0 := rfl
@[simp] theorem hardwareReset_opQ (s : State) : (hardwareReset s).opQ = State.reset.opQ := rfl
@[simp] theorem hardwareReset_opGain (s : State) :
    (hardwareReset s).opGain = State.reset.opGain := rfl
@[simp] theorem hardwareReset_opX (s : State) : (hardwareReset s).opX = State.reset.opX := rfl
@[simp] theorem hardwareReset_cs (s : State) : (hardwareReset s).cs = State.reset.cs := rfl
@[simp] theorem hardwareReset_resY (s : State) : (hardwareReset s).resY = State.reset.resY := rfl
@[simp] theorem hardwareReset_life (s : State) : (hardwareReset s).life = State.reset.life := rfl
@[simp] theorem hardwareReset_eInvParam (s : State) :
    (hardwareReset s).eInvParam = State.reset.eInvParam := rfl
@[simp] theorem hardwareReset_eUninit (s : State) :
    (hardwareReset s).eUninit = State.reset.eUninit := rfl
@[simp] theorem hardwareReset_eBadCmd (s : State) :
    (hardwareReset s).eBadCmd = State.reset.eBadCmd := rfl
@[simp] theorem hardwareReset_calcCount (s : State) :
    (hardwareReset s).calcCount = State.reset.calcCount := rfl
@[simp] theorem hardwareReset_errCause (s : State) :
    (hardwareReset s).errCause = State.reset.errCause := rfl
@[simp] theorem hardwareReset_errCmd (s : State) :
    (hardwareReset s).errCmd = State.reset.errCmd := rfl
@[simp] theorem hardwareReset_fs (s : State) : (hardwareReset s).fs = State.reset.fs := rfl
@[simp] theorem hardwareReset_maxBlock (s : State) :
    (hardwareReset s).maxBlock = State.reset.maxBlock := rfl
@[simp] theorem hardwareReset_coef (s : State) : (hardwareReset s).coef = State.reset.coef := rfl
@[simp] theorem hardwareReset_lastGain (s : State) :
    (hardwareReset s).lastGain = State.reset.lastGain := rfl
@[simp] theorem hardwareReset_lastQ (s : State) : (hardwareReset s).lastQ = State.reset.lastQ := rfl
@[simp] theorem hardwareReset_valid (s : State) : (hardwareReset s).valid = State.reset.valid := rfl
@[simp] theorem hardwareReset_snapLowGain (s : State) :
    (hardwareReset s).snapLowGain = State.reset.snapLowGain := rfl
@[simp] theorem hardwareReset_snapMidGain (s : State) :
    (hardwareReset s).snapMidGain = State.reset.snapMidGain := rfl
@[simp] theorem hardwareReset_snapHighGain (s : State) :
    (hardwareReset s).snapHighGain = State.reset.snapHighGain := rfl
@[simp] theorem hardwareReset_snapMidQ (s : State) :
    (hardwareReset s).snapMidQ = State.reset.snapMidQ := rfl
@[simp] theorem hardwareReset_snapSat (s : State) :
    (hardwareReset s).snapSat = State.reset.snapSat := rfl
@[simp] theorem hardwareReset_delay (s : State) : (hardwareReset s).delay = State.reset.delay := rfl
@[simp] theorem hardwareReset_buf (s : State) : (hardwareReset s).buf = State.reset.buf := rfl
@[simp] theorem hardwareReset_bufEpoch (s : State) :
    (hardwareReset s).bufEpoch = s.bufEpoch + 1 := rfl
@[simp] theorem hardwareReset_pending (s : State) : (hardwareReset s).pending = s.pending := rfl
@[simp] theorem hardwareReset_readData (s : State) : (hardwareReset s).readData = s.readData := rfl

end Sys2Proof.Machine
end

