-- ==== Sys2Proof/Laws/Memory.lean ====
section
/-! SUPPORT. The laws of memory: a read after a write, the canonical form, and the sample buffer's
words. -/

namespace Sys2Proof.Machine

/-! ## Bytes -/

theorem Memory.lookup_store (m : Memory) (a k : Nat) (v : Byte) :
    Memory.lookup (Memory.store m a v) k = if k = a then some v else Memory.lookup m k := by
  induction m with
  | nil => simp [Memory.store, Memory.lookup]
  | cons x rest ih =>
    obtain ⟨b, w⟩ := x
    unfold Memory.store
    split
    · simp [Memory.lookup]
    · split
      · rename_i h
        subst h
        simp only [Memory.lookup]
        split <;> rfl
      · simp only [Memory.lookup, ih]
        by_cases hb : k = b
        · simp [hb]
          omega
        · simp [hb]

theorem Memory.mem_store {m : Memory} {a : Nat} {v : Byte} {x : Host.Cell}
    (h : x ∈ Memory.store m a v) : x = (a, v) ∨ x ∈ m := by
  induction m with
  | nil => simpa [Memory.store] using h
  | cons y rest ih =>
    obtain ⟨b, w⟩ := y
    unfold Memory.store at h
    split at h
    · simpa using h
    · split at h
      · rcases List.mem_cons.1 h with h | h
        · exact .inl h
        · exact .inr (List.mem_cons_of_mem _ h)
      · rcases List.mem_cons.1 h with h | h
        · exact .inr (by simp [h])
        · rcases ih h with h | h
          · exact .inl h
          · exact .inr (List.mem_cons_of_mem _ h)

/-- A write keeps the canonical form. -/
theorem Memory.wf_store {m : Memory} (h : Memory.wf m) (a : Nat) (v : Byte) :
    Memory.wf (Memory.store m a v) := by
  induction m with
  | nil => simp [Memory.store, Memory.wf]
  | cons x rest ih =>
    obtain ⟨b, w⟩ := x
    rw [Memory.wf, List.pairwise_cons] at h
    unfold Memory.store
    split
    · rename_i hab
      rw [Memory.wf, List.pairwise_cons]
      refine ⟨fun y hy => ?_, List.pairwise_cons.2 h⟩
      rcases List.mem_cons.1 hy with rfl | hy
      · exact hab
      · exact lt_trans hab (h.1 y hy)
    · split
      · rename_i hab
        subst hab
        exact List.pairwise_cons.2 ⟨fun y hy => h.1 y hy, h.2⟩
      · refine List.pairwise_cons.2 ⟨fun y hy => ?_, ih h.2⟩
        rcases Memory.mem_store hy with rfl | hy
        · simp only; omega
        · exact h.1 y hy

/-- Two canonical memories that list the same byte at every address are equal. -/
theorem Memory.ext_lookup {m m' : Memory} (h : Memory.wf m) (h' : Memory.wf m')
    (e : ∀ a, Memory.lookup m a = Memory.lookup m' a) : m = m' := by
  have absent : ∀ (l : Memory) (k : Nat), (∀ x ∈ l, k < x.1) → Memory.lookup l k = none := by
    intro l k hl
    induction l with
    | nil => rfl
    | cons x rest ih =>
      obtain ⟨b, w⟩ := x
      have hb : k < b := hl (b, w) (by simp)
      rw [Memory.lookup, if_neg (by omega)]
      exact ih fun y hy => hl y (List.mem_cons_of_mem _ hy)
  induction m generalizing m' with
  | nil =>
    cases m' with
    | nil => rfl
    | cons x rest =>
      have := e x.1
      simp [Memory.lookup] at this
  | cons x rest ih =>
    obtain ⟨a, v⟩ := x
    cases m' with
    | nil =>
      have := e a
      simp [Memory.lookup] at this
    | cons y rest' =>
      obtain ⟨b, w⟩ := y
      rw [Memory.wf, List.pairwise_cons] at h h'
      have ha := e a
      have hb := e b
      rcases Nat.lt_trichotomy a b with hab | hab | hab
      · rw [absent ((b, w) :: rest') a (by
          intro z hz
          rcases List.mem_cons.1 hz with rfl | hz
          · exact hab
          · exact lt_trans hab (h'.1 z hz))] at ha
        simp [Memory.lookup] at ha
      · subst hab
        simp only [Memory.lookup, if_true, Option.some.injEq] at ha
        subst ha
        rw [ih h.2 h'.2 fun k => ?_]
        by_cases hk : k = a
        · subst hk
          rw [absent rest k h.1, absent rest' k h'.1]
        · have := e k
          simpa [Memory.lookup, hk] using this
      · rw [absent ((a, v) :: rest) b (by
          intro z hz
          rcases List.mem_cons.1 hz with rfl | hz
          · exact hab
          · exact lt_trans hab (h.1 z hz))] at hb
        simp [Memory.lookup] at hb

/-! ## Words -/

theorem Memory.wf_storeWord {m : Memory} (h : Memory.wf m) (addr : Nat) (v : Word) :
    Memory.wf (Memory.storeWord m addr v) := by
  unfold Memory.storeWord
  exact Memory.wf_store (Memory.wf_store (Memory.wf_store (Memory.wf_store h _ _) _ _) _ _) _ _

theorem Memory.mem_storeWord {m : Memory} {addr : Nat} {v : Word} {x : Host.Cell}
    (h : x ∈ Memory.storeWord m addr v) : (∃ k, k < 4 ∧ x.1 = 4 * addr + k) ∨ x ∈ m := by
  unfold Memory.storeWord at h
  rcases Memory.mem_store h with rfl | h
  · exact .inl ⟨3, by omega, rfl⟩
  rcases Memory.mem_store h with rfl | h
  · exact .inl ⟨2, by omega, rfl⟩
  rcases Memory.mem_store h with rfl | h
  · exact .inl ⟨1, by omega, rfl⟩
  rcases Memory.mem_store h with rfl | h
  · exact .inl ⟨0, by omega, rfl⟩
  · exact .inr h

/-- A byte outside the word written reads as before. -/
theorem readByte_writeMemWord_other (addr : Nat) (v : Word) (s : State) (a : Nat)
    (h : a / 4 ≠ addr) : readByte (writeMemWord addr v s) a = readByte s a := by
  have h0 : a ≠ 4 * addr := by omega
  have h1 : a ≠ 4 * addr + 1 := by omega
  have h2 : a ≠ 4 * addr + 2 := by omega
  have h3 : a ≠ 4 * addr + 3 := by omega
  simp [readByte, Memory.storeWord, Memory.lookup_store, h0, h1, h2, h3]

/-- The four bytes of a word, put together again, are the word. -/
theorem bytes_append (v : Word) :
    v.extractLsb' 24 8 ++ v.extractLsb' 16 8 ++ v.extractLsb' 8 8 ++ v.extractLsb' 0 8 = v := by
  apply BitVec.eq_of_getLsbD_eq
  intro i hi
  simp only [BitVec.getLsbD_append, BitVec.getLsbD_extractLsb']
  split
  · simp_all
  · split
    · simp only [show i - 8 < 8 by omega, decide_true, Bool.true_and]
      congr 1; omega
    · split
      · simp only [show i - 8 - 8 < 8 by omega, decide_true, Bool.true_and]
        congr 1; omega
      · simp only [show i - 8 - 8 - 8 < 8 by omega, decide_true, Bool.true_and]
        congr 1; omega

/-- A read after a write of the same word gives the value written. -/
theorem readMemWord_writeMemWord_same (addr : Nat) (v : Word) (s : State) :
    readMemWord (writeMemWord addr v s) addr = v := by
  have e := bytes_append v
  simp only [readMemWord, readByte, writeMemWord_buf, Memory.storeWord, Memory.lookup_store]
  simp
  exact e

/-- A write leaves every other word alone. -/
theorem readMemWord_writeMemWord_other {addr addr' : Nat} (h : addr' ≠ addr) (v : Word)
    (s : State) : readMemWord (writeMemWord addr v s) addr' = readMemWord s addr' := by
  unfold readMemWord
  rw [readByte_writeMemWord_other _ _ _ _ (by omega), readByte_writeMemWord_other _ _ _ _ (by omega),
    readByte_writeMemWord_other _ _ _ _ (by omega), readByte_writeMemWord_other _ _ _ _ (by omega)]

/-- Reading memory looks at the listed contents and the free values' number only. -/
theorem readMemWord_congr {s t : State} (h : t.buf = s.buf) (h' : t.bufEpoch = s.bufEpoch)
    (addr : Nat) : readMemWord t addr = readMemWord s addr := by
  simp [readMemWord, readByte, h, h']

/-! ## The sample buffer -/

theorem bufAddr_inj {c c' i i' : Nat} (hi : i < 0x1000) (hi' : i' < 0x1000)
    (h : bufAddr c i = bufAddr c' i') : c = c' ∧ i = i' := by
  unfold bufAddr at h
  omega

theorem readBuf_writeBuf_same (c i : Nat) (v : Word) (s : State) :
    readBuf (writeBuf c i v s) c i = v :=
  readMemWord_writeMemWord_same _ v s

theorem readBuf_writeBuf_other {c c' i i' : Nat} (hi : i < 0x1000) (hi' : i' < 0x1000)
    (h : ¬ (c' = c ∧ i' = i)) (v : Word) (s : State) :
    readBuf (writeBuf c i v s) c' i' = readBuf s c' i' := by
  apply readMemWord_writeMemWord_other
  intro e
  obtain ⟨h1, h2⟩ := bufAddr_inj hi' hi e
  exact h ⟨h1, h2⟩

theorem readBuf_congr {s t : State} (h : t.buf = s.buf) (h' : t.bufEpoch = s.bufEpoch)
    (c i : Nat) : readBuf t c i = readBuf s c i :=
  readMemWord_congr h h' _

/-- A write of a buffer word keeps the memory invariant. -/
theorem memoryInv_writeBuf {s : State} (h : Safety.MemoryInv s) {c i : Nat} (hc : c < Config.nch)
    (hi : i < Config.bufDepth) (v : Word) : Safety.MemoryInv (writeBuf c i v s) := by
  refine ⟨by rw [writeBuf_buf]; exact Memory.wf_storeWord h.1 _ _, fun x hx => ?_⟩
  rw [writeBuf_buf] at hx
  rcases Memory.mem_storeWord hx with ⟨k, hk, e⟩ | hx
  · exact ⟨c, i, k, hc, hi, hk, e⟩
  · exact h.2 x hx

end Sys2Proof.Machine
end

