-- ==== Sys2Proof/Laws/Events.lean ====
section
/-! SUPPORT. What the host's events of a listing do (R66): the writes and commands that the
unit-command sequence of R189 is made of. -/

namespace Sys2Proof.Machine

theorem regAt_buf {a : Nat} (h1 : 0x1000 ≤ a) (h2 : a < 0x3000) :
    regAt a = some (.buf (a / 0x1000 - 1) (a % 0x1000)) := by
  unfold regAt
  rw [if_neg (by omega), if_neg (by omega), if_neg (by omega),
    if_neg (by simp only [Config.nch]; omega), if_neg (by omega),
    if_pos (by simp only [Config.nch, Config.bufDepth]; omega)]

theorem hostEvent_wr_opX (v : Word) (s : State) :
    hostEvent (wr .opX v) s = .next { s with opX := v } := rfl

theorem hostEvent_sat (s : State) :
    hostEvent (cmdLine .sat) s = .next { s with resY := saturate s.satEn s.opX } := rfl

theorem hostEvent_update (b : Band) {s : State} (h : s.life ≠ .uninitialized) :
    hostEvent (cmdLine (.update b)) s =
      .next (updateBand b (liveGain s b) s.midQ (encode (.update b)) s) := by
  have hd : decode (encode (.update b)) = .ok (.update b) := by cases b <;> rfl
  simp only [hostEvent, cmdLine, if_true, runCommand, hd, exec, execUpdate, if_neg h]

theorem hostEvent_chsample {c : Nat} (hc : c < 2) {s : State} (h : s.life ≠ .uninitialized) :
    hostEvent (cmdLine (.chsample (BitVec.ofNat 4 c))) s = .next (sampleChannel c s) := by
  have hc' : c = 0 ∨ c = 1 := by omega
  rcases hc' with rfl | rfl
  · have hd : decode (encode (.chsample (BitVec.ofNat 4 0))) =
      .ok (.chsample (BitVec.ofNat 4 0)) := rfl
    simp only [hostEvent, cmdLine, if_true, runCommand, hd, exec, execChsample, if_neg h]
    rfl
  · have hd : decode (encode (.chsample (BitVec.ofNat 4 1))) =
      .ok (.chsample (BitVec.ofNat 4 1)) := rfl
    simp only [hostEvent, cmdLine, if_true, runCommand, hd, exec, execChsample, if_neg h]
    rfl

theorem hostEvent_wr_buf {c i : Nat} (hc : c < 2) (hi : i < 0x1000) (v : Word) (s : State) :
    hostEvent (wr (.buf c i) v) s = .next (writeBuf c i v s) := by
  have hn : (BitVec.ofNat 16 (bufAddr c i)).toNat = bufAddr c i := by
    simp only [bufAddr, BitVec.toNat_ofNat]; omega
  simp only [hostEvent, wr, regAddr]
  rw [if_neg, memWrite, hn, regAt_buf (by unfold bufAddr; omega) (by unfold bufAddr; omega)]
  · simp only [writeReg]
    congr 2 <;> unfold bufAddr <;> omega
  · intro e
    have e' := congrArg BitVec.toNat e
    rw [hn] at e'
    simp only [bufAddr, cmdAddr, BitVec.toNat_ofNat] at e'
    omega

end Sys2Proof.Machine
end

