-- ==== Sys2Proof/Laws/Ideal.lean ====
section
/-! SUPPORT. The ideal filter under a stationary input: what stability does to the registers (R123,
R140), and the sine that a filter settles to (R188). -/

namespace Sys2Proof.Ideal

open Filter Topology

/-- The response of a normalised filter is the ratio of the polynomials (R116, R121). -/
theorem response_normalise {K : Type} [Field K] {r : Raw K} (h : r.a0 ≠ 0) (x : K) :
    (normalise r).response x = r.num x / r.den x := by
  have hn : r.b0 / r.a0 + r.b1 / r.a0 * x + r.b2 / r.a0 * x ^ 2 = r.num x / r.a0 := by
    unfold Raw.num; field_simp
  have hd : 1 + r.a1 / r.a0 * x + r.a2 / r.a0 * x ^ 2 = r.den x / r.a0 := by
    unfold Raw.den; field_simp
  simp only [Coefs.response, normalise, hn, hd]
  exact div_div_div_cancel_right₀ h _ _

/-! ## Decay -/

/-- One pole inside the unit circle forgets its past: with an input that vanishes, so does the
state. -/
theorem tendsto_zero_of_pole {u e : ℕ → ℂ} {r : ℂ} (hr : ‖r‖ < 1)
    (hu : ∀ n, u (n + 1) = r * u n + e n) (he : Tendsto e atTop (𝓝 0)) :
    Tendsto u atTop (𝓝 0) := by
  rw [Metric.tendsto_atTop] at he ⊢
  intro d hd
  have h1 : 0 < 1 - ‖r‖ := by linarith
  obtain ⟨N, hN⟩ := he (d / 2 * (1 - ‖r‖)) (by positivity)
  have hbound : ∀ k, ‖u (N + k)‖ ≤ ‖r‖ ^ k * ‖u N‖ + d / 2 := by
    intro k
    induction k with
    | zero => simpa using (by positivity : (0 : ℝ) ≤ d / 2)
    | succ k ih =>
      have hek : ‖e (N + k)‖ ≤ d / 2 * (1 - ‖r‖) := by
        have := hN (N + k) (Nat.le_add_right _ _)
        rw [dist_zero_right] at this
        exact this.le
      calc ‖u (N + (k + 1))‖ = ‖r * u (N + k) + e (N + k)‖ := by rw [← Nat.add_assoc, hu]
        _ ≤ ‖r‖ * ‖u (N + k)‖ + ‖e (N + k)‖ := by rw [← norm_mul]; exact norm_add_le _ _
        _ ≤ ‖r‖ * (‖r‖ ^ k * ‖u N‖ + d / 2) + d / 2 * (1 - ‖r‖) :=
          add_le_add (mul_le_mul_of_nonneg_left ih (norm_nonneg r)) hek
        _ = ‖r‖ ^ (k + 1) * ‖u N‖ + d / 2 := by ring
  have hpow : Tendsto (fun k => ‖r‖ ^ k * ‖u N‖) atTop (𝓝 0) := by
    simpa using (tendsto_pow_atTop_nhds_zero_of_lt_one (norm_nonneg r) hr).mul_const ‖u N‖
  obtain ⟨M, hM⟩ := (Metric.tendsto_atTop.1 hpow) (d / 2) (by positivity)
  refine ⟨N + M, fun n hn => ?_⟩
  obtain ⟨k, rfl⟩ := Nat.exists_eq_add_of_le (show N ≤ n by omega)
  have hk := hM k (by omega)
  rw [dist_zero_right, Real.norm_eq_abs] at hk
  have := le_abs_self (‖r‖ ^ k * ‖u N‖)
  rw [dist_zero_right]
  linarith [hbound k]

/-- The two poles of a stable pair of feedback coefficients lie inside the unit circle (R123). -/
theorem exists_poles {a1 a2 : ℝ} (h2 : |a2| < 1) (h1 : |a1| < 1 + a2) :
    ∃ r1 r2 : ℂ, r1 + r2 = -a1 ∧ r1 * r2 = a2 ∧ ‖r1‖ < 1 ∧ ‖r2‖ < 1 := by
  obtain ⟨h2l, h2u⟩ := abs_lt.1 h2
  obtain ⟨h1l, h1u⟩ := abs_lt.1 h1
  rcases le_or_gt 0 (a1 ^ 2 - 4 * a2) with hd | hd
  · obtain ⟨d, hd0, hdd⟩ : ∃ d : ℝ, 0 ≤ d ∧ d * d = a1 ^ 2 - 4 * a2 :=
      ⟨_, Real.sqrt_nonneg _, Real.mul_self_sqrt hd⟩
    refine ⟨((-a1 + d) / 2 : ℝ), ((-a1 - d) / 2 : ℝ), ?_, ?_, ?_, ?_⟩
    · push_cast; ring
    · rw [← Complex.ofReal_mul]; congr 1; nlinarith
    · rw [Complex.norm_real, Real.norm_eq_abs, abs_lt]; constructor <;> nlinarith
    · rw [Complex.norm_real, Real.norm_eq_abs, abs_lt]; constructor <;> nlinarith
  · obtain ⟨d, -, hdd⟩ : ∃ d : ℝ, 0 ≤ d ∧ d * d = 4 * a2 - a1 ^ 2 :=
      ⟨_, Real.sqrt_nonneg _, Real.mul_self_sqrt (by linarith)⟩
    have hnorm : ∀ e : ℝ, e * e = 4 * a2 - a1 ^ 2 →
        ‖((-a1 / 2 : ℝ) : ℂ) + ((e / 2 : ℝ) : ℂ) * Complex.I‖ < 1 := by
      intro e he
      rw [Complex.norm_add_mul_I, Real.sqrt_lt' one_pos]
      nlinarith
    refine ⟨_, _, ?_, ?_, hnorm d hdd, hnorm (-d) (by linarith)⟩
    · push_cast; ring
    · have : (d : ℂ) * d = 4 * a2 - a1 ^ 2 := by exact_mod_cast hdd
      push_cast
      linear_combination (1 / 4 : ℂ) * this - (d * d / 4 : ℂ) * Complex.I_mul_I

/-- The registers of a stable filter decay when what is fed into them vanishes (R123, R140). -/
theorem tendsto_zero_of_stable {a1 a2 : ℝ} (h2 : |a2| < 1) (h1 : |a1| < 1 + a2)
    {d1 d2 e1 e2 : ℕ → ℂ} (hd1 : ∀ n, d1 (n + 1) = d2 n - a1 * d1 n + e1 n)
    (hd2 : ∀ n, d2 (n + 1) = -a2 * d1 n + e2 n) (he1 : Tendsto e1 atTop (𝓝 0))
    (he2 : Tendsto e2 atTop (𝓝 0)) :
    Tendsto d1 atTop (𝓝 0) ∧ Tendsto d2 atTop (𝓝 0) := by
  obtain ⟨r1, r2, hs, hp, hr1, hr2⟩ := exists_poles h2 h1
  have hu : Tendsto (fun n => d1 (n + 1) - r1 * d1 n) atTop (𝓝 0) := by
    refine tendsto_zero_of_pole (e := fun n => e2 n + e1 (n + 1)) hr2 (fun n => ?_) ?_
    · linear_combination hd1 (n + 1) + hd2 n - d1 (n + 1) * hs + d1 n * hp
    · simpa using he2.add ((tendsto_add_atTop_iff_nat 1).2 he1)
  have hd1z : Tendsto d1 atTop (𝓝 0) :=
    tendsto_zero_of_pole (e := fun n => d1 (n + 1) - r1 * d1 n) hr1 (fun n => by ring) hu
  refine ⟨hd1z, (tendsto_add_atTop_iff_nat 1).1 ?_⟩
  simp only [hd2]
  simpa using (hd1z.const_mul (-(a2 : ℂ))).add he2

/-! ## The stationary response -/

/-- A stable filter has no pole on the unit circle (R123). -/
theorem response_den_ne_zero {a1 a2 : ℝ} (h2 : |a2| < 1) (h1 : |a1| < 1 + a2) {x : ℂ}
    (hx : ‖x‖ = 1) : 1 + (a1 : ℂ) * x + a2 * x ^ 2 ≠ 0 := by
  obtain ⟨r1, r2, hs, hp, hr1, hr2⟩ := exists_poles h2 h1
  have hne : ∀ r : ℂ, ‖r‖ < 1 → 1 - r * x ≠ 0 := by
    intro r hr h
    have : ‖r * x‖ = 1 := by rw [← sub_eq_zero.1 h, norm_one]
    rw [norm_mul, hx, mul_one] at this
    exact hr.ne this
  rw [show 1 + (a1 : ℂ) * x + a2 * x ^ 2 = (1 - r1 * x) * (1 - r2 * x) by
    linear_combination x * hs - x ^ 2 * hp]
  exact mul_ne_zero (hne r1 hr1) (hne r2 hr2)

/-- A stable filter whose input settles to the imaginary part of the phasor Z·zⁿ, |z| = 1, settles to
that of H·Z·zⁿ, with H its response at z⁻¹ (R132, R188). -/
theorem output_settles {co : Coefs ℝ} (h2 : |co.a2| < 1) (h1 : |co.a1| < 1 + co.a2) {z Z : ℂ}
    (hz : ‖z‖ = 1) {x : ℕ → ℝ}
    (hx : Tendsto (fun n => x n - (Z * z ^ n).im) atTop (𝓝 0)) :
    Tendsto (fun n => output co x n -
      ((co.map Complex.ofReal).response z⁻¹ * Z * z ^ n).im) atTop (𝓝 0) := by
  set H := (co.map Complex.ofReal).response z⁻¹ with hH
  have hz0 : z ≠ 0 := by intro h; rw [h, norm_zero] at hz; exact zero_ne_one hz
  have hden := response_den_ne_zero h2 h1 (x := z⁻¹) (by rw [norm_inv, hz, inv_one])
  have hbal : H * (z ^ 2 + co.a1 * z + co.a2) = co.b0 * z ^ 2 + co.b1 * z + co.b2 := by
    have h : H * (1 + co.a1 * z⁻¹ + co.a2 * z⁻¹ ^ 2) =
        co.b0 + co.b1 * z⁻¹ + co.b2 * z⁻¹ ^ 2 := by
      rw [hH]; exact div_mul_cancel₀ _ hden
    field_simp at h
    linear_combination h
  -- the stationary registers, as phasors
  set S1 : ℂ := (H - co.b0) * Z with hS1
  set S2 : ℂ := S1 * z - (co.b1 - co.a1 * H) * Z with hS2
  have hS2' : S2 * z = (co.b2 - co.a2 * H) * Z := by
    rw [hS2, hS1]; linear_combination Z * hbal
  set e : ℕ → ℝ := fun n => x n - (Z * z ^ n).im with he
  set d1 : ℕ → ℝ := fun n => (regs co x n).1 - (S1 * z ^ n).im with hd1
  set d2 : ℕ → ℝ := fun n => (regs co x n).2 - (S2 * z ^ n).im with hd2
  have im_eq : ∀ (r : ℝ) (v : ℂ), ((r : ℂ) * v).im = r * v.im := fun r v => by simp
  have hout : ∀ n, output co x n - (H * Z * z ^ n).im = co.b0 * e n + d1 n := by
    intro n
    have : H * Z * z ^ n = (co.b0 : ℂ) * (Z * z ^ n) + S1 * z ^ n := by rw [hS1]; ring
    rw [this, Complex.add_im, im_eq]
    simp only [output, step, he, hd1]
    ring
  have hr1 : ∀ n, d1 (n + 1) = d2 n - co.a1 * d1 n + (co.b1 - co.a1 * co.b0) * e n := by
    intro n
    have : S1 * z ^ (n + 1) = S2 * z ^ n + (co.b1 : ℂ) * (Z * z ^ n) -
        (co.a1 : ℂ) * ((co.b0 : ℂ) * (Z * z ^ n) + S1 * z ^ n) := by
      rw [hS2, hS1]; ring
    simp only [hd1, hd2, he, this, Complex.add_im, Complex.sub_im, im_eq, regs, step]
    ring
  have hr2 : ∀ n, d2 (n + 1) = -co.a2 * d1 n + (co.b2 - co.a2 * co.b0) * e n := by
    intro n
    have : S2 * z ^ (n + 1) = (co.b2 : ℂ) * (Z * z ^ n) -
        (co.a2 : ℂ) * ((co.b0 : ℂ) * (Z * z ^ n) + S1 * z ^ n) := by
      rw [pow_succ', ← mul_assoc, hS2', hS1]; ring
    simp only [hd1, hd2, he, this, Complex.add_im, Complex.sub_im, im_eq, regs, step]
    ring
  have cast0 : ∀ {f : ℕ → ℝ}, Tendsto (fun n => (f n : ℂ)) atTop (𝓝 0) ↔
      Tendsto f atTop (𝓝 0) := by
    intro f
    rw [tendsto_zero_iff_norm_tendsto_zero, tendsto_zero_iff_norm_tendsto_zero (f := f)]
    simp only [Complex.norm_real]
  have hscaled : ∀ k : ℝ, Tendsto (fun n => ((k * e n : ℝ) : ℂ)) atTop (𝓝 0) := fun k =>
    cast0.2 (by simpa using hx.const_mul k)
  have hdz := (tendsto_zero_of_stable (d1 := fun n => (d1 n : ℂ)) (d2 := fun n => (d2 n : ℂ))
    h2 h1 (fun n => by rw [hr1]; push_cast; ring) (fun n => by rw [hr2]; push_cast; ring)
    (hscaled (co.b1 - co.a1 * co.b0)) (hscaled (co.b2 - co.a2 * co.b0))).1
  simp only [hout]
  simpa using (hx.const_mul co.b0).add (cast0.1 hdz)

/-- The imaginary part of a phasor on the unit circle is a sine of the phasor's magnitude. -/
theorem phasor_im (Z : ℂ) (w : ℝ) (n : ℕ) :
    (Z * Complex.exp (Complex.I * w) ^ n).im = ‖Z‖ * Real.sin (w * n + Z.arg) := by
  conv_lhs => rw [← Complex.norm_mul_exp_arg_mul_I Z]
  rw [← Complex.exp_nat_mul, mul_assoc, ← Complex.exp_add,
    show (Z.arg : ℂ) * Complex.I + n * (Complex.I * w) = ((w * n + Z.arg : ℝ) : ℂ) * Complex.I by
      push_cast; ring,
    Complex.im_ofReal_mul, Complex.exp_ofReal_mul_I_im]

/-- A real sampled sine as the imaginary part of its phasor. -/
theorem sine_eq_phasor_im (a w phase : ℝ) (n : ℕ) :
    a * Real.sin (w * n + phase) =
      (a * Complex.exp (Complex.I * phase) * Complex.exp (Complex.I * w) ^ n).im := by
  rw [mul_assoc, Complex.im_ofReal_mul, ← Complex.exp_nat_mul, ← Complex.exp_add,
    show Complex.I * (phase : ℂ) + n * (Complex.I * w) = ((w * n + phase : ℝ) : ℂ) * Complex.I by
      push_cast; ring,
    Complex.exp_ofReal_mul_I_im]

/-- Three stable filters in series multiply the amplitude of a sine by their magnitudes, whatever
their designs (R188). -/
theorem chainOutput_settles {lo pk hi : Coefs ℝ} (hlo : |lo.a2| < 1 ∧ |lo.a1| < 1 + lo.a2)
    (hpk : |pk.a2| < 1 ∧ |pk.a1| < 1 + pk.a2) (hhi : |hi.a2| < 1 ∧ |hi.a1| < 1 + hi.a2)
    (w a phase : ℝ) (z : ℂ) (hz : z = Complex.exp (-(Complex.I * w))) :
    SettlesToSine (chainOutput lo pk hi fun n => a * Real.sin (w * n + phase)) w
      (a * ‖(lo.map Complex.ofReal).response z‖ * ‖(pk.map Complex.ofReal).response z‖ *
        ‖(hi.map Complex.ofReal).response z‖) := by
  have hnorm : ∀ r : ℝ, ‖Complex.exp (Complex.I * r)‖ = 1 := fun r => by
    rw [mul_comm, Complex.norm_exp_ofReal_mul_I]
  rw [hz, Complex.exp_neg]
  set v := Complex.exp (Complex.I * w) with hv
  set H1 := (lo.map Complex.ofReal).response v⁻¹
  set H2 := (pk.map Complex.ofReal).response v⁻¹
  set H3 := (hi.map Complex.ofReal).response v⁻¹
  set E := Complex.exp (Complex.I * phase) with hE
  have hin : Tendsto (fun n : ℕ => a * Real.sin (w * n + phase) - (a * E * v ^ n).im) atTop
      (𝓝 0) := by
    simp only [sine_eq_phasor_im, ← hv, ← hE, sub_self]
    exact tendsto_const_nhds
  have hout := output_settles hhi.1 hhi.2 (hnorm w) (output_settles hpk.1 hpk.2 (hnorm w)
    (output_settles hlo.1 hlo.2 (hnorm w) hin))
  refine ⟨(H3 * (H2 * (H1 * E))).arg, hout.congr fun n => ?_⟩
  have h : H3 * (H2 * (H1 * (a * E))) * v ^ n = (a : ℂ) * (H3 * (H2 * (H1 * E)) * v ^ n) := by ring
  show _ - (H3 * (H2 * (H1 * (a * E))) * v ^ n).im = _
  rw [h, Complex.im_ofReal_mul, hv, phasor_im, norm_mul, norm_mul, norm_mul, hnorm phase]
  unfold chainOutput
  ring

/-! ## Squared magnitudes -/

@[simp] theorem map_normalise_lowShelf (A c beta : ℝ) :
    (normalise (lowShelf A c beta)).map Complex.ofReal = normalise (lowShelf (A : ℂ) c beta) := by
  simp only [Coefs.map, normalise, lowShelf]; push_cast; rfl

@[simp] theorem map_normalise_peak (A c alpha : ℝ) :
    (normalise (peak A c alpha)).map Complex.ofReal = normalise (peak (A : ℂ) c alpha) := by
  simp only [Coefs.map, normalise, peak]; push_cast; rfl

@[simp] theorem map_normalise_highShelf (A c beta : ℝ) :
    (normalise (highShelf A c beta)).map Complex.ofReal = normalise (highShelf (A : ℂ) c beta) := by
  simp only [Coefs.map, normalise, highShelf]; push_cast; rfl

/-- The squared magnitude of the polynomial b0 + b1 x + b2 x² on the unit circle, from p = sin²(w/2),
so that near frequency 0 little cancels. -/
def power (b0 b1 b2 p : ℝ) : ℝ :=
  (b0 + b1 + b2) ^ 2 - 4 * p * (b0 * b1 + 4 * b0 * b2 + b1 * b2) + 16 * p ^ 2 * b0 * b2

theorem normSq_eq_power (b0 b1 b2 p : ℝ) {c s : ℝ} (h : c ^ 2 + s ^ 2 = 1) (hc : c = 1 - 2 * p) :
    Complex.normSq ((b0 : ℂ) + b1 * (c - Complex.I * s) + b2 * (c - Complex.I * s) ^ 2) =
      power b0 b1 b2 p := by
  have hs : s ^ 2 = 4 * p - 4 * p ^ 2 := by rw [hc] at h; linarith
  rw [Complex.normSq_apply, power, hc]
  simp only [pow_two, Complex.add_re, Complex.mul_re, Complex.ofReal_re, Complex.sub_re,
    Complex.I_re, Complex.I_im, Complex.add_im, Complex.mul_im, Complex.ofReal_im, Complex.sub_im,
    Complex.ofReal_sub, Complex.ofReal_mul, Complex.ofReal_one, Complex.ofReal_ofNat,
    Complex.one_re, Complex.one_im, Complex.re_ofNat, Complex.im_ofNat]
  linear_combination (b1 ^ 2 + b2 ^ 2 * s ^ 2 + b2 ^ 2 * (4 * p - 4 * p ^ 2) + 2 * b1 * b2 *
    (1 - 2 * p) + 2 * b2 ^ 2 * (1 - 2 * p) ^ 2 - 2 * b0 * b2) * hs

/-- How far the high shelf is from magnitude 1 near frequency 0: the difference of the two squared
magnitudes has no term without p, and its term in p nearly vanishes for Q near 1/√2 (R122, R188). -/
theorem highShelf_power_sub (A c beta p : ℝ) :
    power (highShelf A c beta).a0 (highShelf A c beta).a1 (highShelf A c beta).a2 p -
        power (highShelf A c beta).b0 (highShelf A c beta).b1 (highShelf A c beta).b2 p =
      16 * p * (1 - A ^ 2) * (beta ^ 2 - 2 * A * (1 - c ^ 2)) +
        16 * p ^ 2 * (((A + 1) - (A - 1) * c) ^ 2 - A ^ 2 * ((A + 1) + (A - 1) * c) ^ 2 -
          (1 - A ^ 2) * beta ^ 2) := by
  simp only [power, highShelf]
  ring

end Sys2Proof.Ideal
end

