-- ==== Sys2Proof/Laws/Ops.lean ====
section
/-! SUPPORT. What the shared operations do, each said once: indexed state, error entry, the band
update, the sample path and the loops of a block. -/

namespace Sys2Proof.Machine

/-! ## Indexed state -/

@[simp] theorem PerBand.get_set {α : Type} (p : PerBand α) (b b' : Band) (v : α) :
    (p.set b v).get b' = if b' = b then v else p.get b' := by
  cases b <;> cases b' <;> rfl

theorem PerBand.ext_get {α : Type} {p q : PerBand α} (h : ∀ b, p.get b = q.get b) : p = q := by
  have h0 := h .low
  have h1 := h .mid
  have h2 := h .high
  cases p; cases q
  simp only [PerBand.get] at h0 h1 h2
  rw [h0, h1, h2]

@[simp] theorem PerBand.set_get_self {α : Type} (p : PerBand α) (b : Band) :
    p.set b (p.get b) = p := by
  cases b <;> rfl

@[simp] theorem PerBand.get_all {α : Type} (x : α) (b : Band) : (PerBand.all x).get b = x := by
  cases b <;> rfl

theorem chanDelay_congr {s t : State} (h : t.delay = s.delay) (ch : Nat) :
    chanDelay t ch = chanDelay s ch := by
  simp [chanDelay, h]

theorem chanDelay_setChanDelay_same {ch : Nat} (h : ch < Config.nch) (d : PerBand Delay)
    (s : State) : chanDelay (setChanDelay ch d s) ch = d := by
  simp [chanDelay, h]

theorem chanDelay_setChanDelay_other {ch ch' : Nat} (h : ch' ≠ ch) (d : PerBand Delay)
    (s : State) : chanDelay (setChanDelay ch d s) ch' = chanDelay s ch' := by
  simp only [chanDelay, setChanDelay_delay]
  rw [Vector.getElem?_setIfInBounds_ne (Ne.symm h)]

theorem chanDelay_setDelay_same {ch : Nat} (h : ch < Config.nch) (b : Band) (d : Delay)
    (s : State) : chanDelay (setDelay ch b d s) ch = (chanDelay s ch).set b d :=
  chanDelay_setChanDelay_same h _ s

theorem chanDelay_setDelay_other {ch ch' : Nat} (h : ch' ≠ ch) (b : Band) (d : Delay)
    (s : State) : chanDelay (setDelay ch b d s) ch' = chanDelay s ch' :=
  chanDelay_setChanDelay_other h _ s

/-- Two delay vectors with the same pairs on every channel are equal. -/
theorem delay_ext {s t : State} (h : ∀ ch, ch < Config.nch → chanDelay t ch = chanDelay s ch) :
    t.delay = s.delay := by
  apply Vector.ext
  intro i hi
  have := h i hi
  simpa [chanDelay, hi] using this

theorem chanDelay_of_zeroed {s : State}
    (h : s.delay = Vector.replicate Config.nch (PerBand.all Delay.zero)) (ch : Nat) :
    chanDelay s ch = PerBand.all Delay.zero := by
  unfold chanDelay
  rw [h]
  by_cases hc : ch < Config.nch
  · simp [hc]
  · rw [Vector.getElem?_eq_none (by omega)]; rfl

/-! ## Band update -/

/-- Everything a band update can do (R149): record InvalidParameter with nothing changed, find
nothing changed, count an invocation that the calculator rejects, or recompute. -/
theorem updateBand_cases (b : Band) (g q w : Word) (s : State) :
    (paramNaN b g q = true ∧ updateBand b g q w s = raiseError .invalidParameter w s) ∨
    (paramNaN b g q = false ∧ cacheHit b g q s = true ∧ updateBand b g q w s = s) ∨
    (paramNaN b g q = false ∧ cacheHit b g q s = false ∧
      designBand b s.fs q (linearGain g) = none ∧
      updateBand b g q w s = raiseError .invalidParameter w (countInvocation s)) ∨
    (∃ r, paramNaN b g q = false ∧ cacheHit b g q s = false ∧
      designBand b s.fs q (linearGain g) = some r ∧
      updateBand b g q w s = applyBand b g q r (countInvocation s)) := by
  unfold updateBand
  cases h1 : paramNaN b g q
  · cases h2 : cacheHit b g q s
    · cases h3 : designBand b s.fs q (linearGain g) with
      | none => exact .inr (.inr (.inl ⟨rfl, rfl, rfl, by simp⟩))
      | some r => exact .inr (.inr (.inr ⟨r, rfl, rfl, rfl, by simp⟩))
    · exact .inr (.inl ⟨rfl, rfl, by simp⟩)
  · exact .inl ⟨rfl, by simp⟩

/-- The cache of a band that has just been recomputed holds the patterns it was computed from. -/
theorem cacheHit_applyBand (b : Band) (g q : Word) (r : CoefSet) (s : State) :
    cacheHit b g q (applyBand b g q r s) = true := by
  cases b <;> simp [cacheHit, PerBand.get_set]

/-- A cache test looks at the cache alone. -/
theorem cacheHit_congr {s t : State} (h1 : t.valid = s.valid) (h2 : t.lastGain = s.lastGain)
    (h3 : t.lastQ = s.lastQ) (b : Band) (g q : Word) : cacheHit b g q t = cacheHit b g q s := by
  simp [cacheHit, h1, h2, h3]

/-- The state fields a band update leaves alone, as one equation. -/
theorem updateBand_frame (b : Band) (g q w : Word) (s : State) :
    updateBand b g q w s =
      { s with
        coef := (updateBand b g q w s).coef
        lastGain := (updateBand b g q w s).lastGain
        lastQ := (updateBand b g q w s).lastQ
        valid := (updateBand b g q w s).valid
        calcCount := (updateBand b g q w s).calcCount
        eInvParam := (updateBand b g q w s).eInvParam
        errCause := (updateBand b g q w s).errCause
        errCmd := (updateBand b g q w s).errCmd } := by
  rcases updateBand_cases b g q w s with ⟨_, h⟩ | ⟨_, _, h⟩ | ⟨_, _, _, h⟩ | ⟨r, _, _, _, h⟩ <;>
    rw [h] <;> rfl

/-- The other bands' coefficients and caches are untouched by a band update (R29). -/
theorem updateBand_other {b b' : Band} (h : b' ≠ b) (g q w : Word) (s : State) :
    (updateBand b g q w s).coef.get b' = s.coef.get b' ∧
    (updateBand b g q w s).lastGain.get b' = s.lastGain.get b' ∧
    (updateBand b g q w s).valid.get b' = s.valid.get b' := by
  rcases updateBand_cases b g q w s with ⟨_, e⟩ | ⟨_, _, e⟩ | ⟨_, _, _, e⟩ | ⟨r, _, _, _, e⟩ <;>
    rw [e] <;> simp [h]

/-! ## Sample path -/

/-- A channel sample writes that channel's delays and nothing else (R147). -/
theorem chainSample_eq (ch : Nat) (x : Word) (s : State) :
    chainSample ch x s = ((chainStep s.coef (chanDelay s ch) x).1,
      setChanDelay ch (chainStep s.coef (chanDelay s ch) x).2 s) := rfl

/-! ## The loops of a block -/

theorem zeroFill_frame (c n : Nat) (s : State) :
    zeroFill c n s = { s with buf := (zeroFill c n s).buf } := by
  induction n with
  | zero => rfl
  | succ i ih => rw [zeroFill, ih]; rfl

theorem zeroFillFrom_frame (n c k : Nat) (s : State) :
    zeroFillFrom n c k s = { s with buf := (zeroFillFrom n c k s).buf } := by
  induction k generalizing c s with
  | zero => rfl
  | succ k ih => rw [zeroFillFrom, ih, zeroFill_frame]

theorem blockSample_frame (c i : Nat) (s : State) :
    blockSample c i s =
      { s with buf := (blockSample c i s).buf, delay := (blockSample c i s).delay } := rfl

theorem blockChannel_frame (c n : Nat) (s : State) :
    blockChannel c n s =
      { s with buf := (blockChannel c n s).buf, delay := (blockChannel c n s).delay } := by
  induction n with
  | zero => rfl
  | succ i ih => rw [blockChannel, blockSample_frame, ih]

theorem blockChannels_frame (n k : Nat) (s : State) :
    blockChannels n k s =
      { s with buf := (blockChannels n k s).buf, delay := (blockChannels n k s).delay } := by
  induction k with
  | zero => rfl
  | succ c ih => rw [blockChannels, blockChannel_frame, ih]

/-- The words a zero fill writes are +0.0 and the others are as before (R178). -/
theorem readBuf_zeroFill (c n : Nat) (hn : n ≤ 0x1000) (s : State) (c' i' : Nat)
    (hi' : i' < 0x1000) :
    readBuf (zeroFill c n s) c' i' =
      if c' = c ∧ i' < n then posZero else readBuf s c' i' := by
  induction n with
  | zero => simp [zeroFill]
  | succ i ih =>
    rw [zeroFill]
    by_cases h : c' = c ∧ i' = i
    · obtain ⟨rfl, rfl⟩ := h
      rw [readBuf_writeBuf_same, if_pos ⟨rfl, by omega⟩]
    · rw [readBuf_writeBuf_other (by omega) hi' h, ih (by omega)]
      by_cases hc : c' = c
      · simp only [hc, true_and] at h ⊢
        by_cases hl : i' < i
        · rw [if_pos hl, if_pos (by omega)]
        · rw [if_neg hl, if_neg (by omega)]
      · simp [hc]

theorem readBuf_zeroFillFrom (n c k : Nat) (hn : n ≤ 0x1000) (s : State) (c' i' : Nat)
    (hi' : i' < 0x1000) :
    readBuf (zeroFillFrom n c k s) c' i' =
      if c ≤ c' ∧ c' < c + k ∧ i' < n then posZero else readBuf s c' i' := by
  induction k generalizing c s with
  | zero =>
    rw [zeroFillFrom, if_neg (by omega)]
  | succ k ih =>
    rw [zeroFillFrom, ih, readBuf_zeroFill c n hn s c' i' hi']
    by_cases h1 : c' = c
    · subst h1
      by_cases hl : i' < n
      · simp only [hl, and_true, and_self, if_true, le_refl, true_and]
        rw [if_neg (by omega), if_pos (by omega)]
      · simp [hl]
    · by_cases h2 : c + 1 ≤ c' ∧ c' < c + 1 + k ∧ i' < n
      · rw [if_pos h2, if_pos (by omega)]
      · rw [if_neg h2, if_neg (by omega), if_neg (by omega)]

/-! ## One sample of a block (R176, R180) -/

theorem readBuf_blockSample_same (c i : Nat) (s : State) :
    readBuf (blockSample c i s) c i =
      saturate s.snapSat (chainStep s.coef (chanDelay s c) (readBuf s c i)).1 :=
  readBuf_writeBuf_same c i _ _

theorem readBuf_blockSample_other {c c' i i' : Nat} (hi : i < 0x1000) (hi' : i' < 0x1000)
    (h : ¬ (c' = c ∧ i' = i)) (s : State) :
    readBuf (blockSample c i s) c' i' = readBuf s c' i' :=
  (readBuf_writeBuf_other hi hi' h _ _).trans rfl

theorem chanDelay_blockSample_same {c : Nat} (h : c < Config.nch) (i : Nat) (s : State) :
    chanDelay (blockSample c i s) c = (chainStep s.coef (chanDelay s c) (readBuf s c i)).2 :=
  chanDelay_setChanDelay_same h _ s

theorem chanDelay_blockSample_other {c c' : Nat} (h : c' ≠ c) (i : Nat) (s : State) :
    chanDelay (blockSample c i s) c' = chanDelay s c' :=
  chanDelay_setChanDelay_other h _ s

/-- A channel's loop leaves the other channels' words and its own words from n on (R29, R180). -/
theorem readBuf_blockChannel_other {c c' n i' : Nat} (hn : n ≤ 0x1000) (hi' : i' < 0x1000)
    (h : c' ≠ c ∨ n ≤ i') (s : State) :
    readBuf (blockChannel c n s) c' i' = readBuf s c' i' := by
  induction n with
  | zero => rfl
  | succ i ih =>
    rw [blockChannel, readBuf_blockSample_other (by omega) hi' (by omega),
      ih (by omega) (by omega)]

/-- The first word of a channel's loop is the first sample's result, however many samples follow
(R179, R180). -/
theorem readBuf_blockChannel_first {c n : Nat} (hn : n + 1 ≤ 0x1000) (s : State) :
    readBuf (blockChannel c (n + 1) s) c 0 =
      saturate s.snapSat (chainStep s.coef (chanDelay s c) (readBuf s c 0)).1 := by
  induction n with
  | zero => exact readBuf_blockSample_same c 0 s
  | succ i ih =>
    rw [blockChannel, readBuf_blockSample_other (by omega) (by omega) (by omega), ih (by omega)]

/-- A channel's loop leaves the other channels' delays (R29). -/
theorem chanDelay_blockChannel_other {c c' : Nat} (h : c' ≠ c) (n : Nat) (s : State) :
    chanDelay (blockChannel c n s) c' = chanDelay s c' := by
  induction n with
  | zero => rfl
  | succ i ih => rw [blockChannel, chanDelay_blockSample_other h, ih]

/-! ## The calculator's commands (R117) -/

/-- What a calculator command does with the verdict: record InvalidParameter or stage the set, the
invocation counted in both cases. -/
theorem finishCalc_cases (w : Word) (r : Option CoefSet) (s : State) :
    (r = none ∧ finishCalc w r s = raiseError .invalidParameter w (countInvocation s)) ∨
    ∃ c, r = some c ∧ finishCalc w r s = { s with calcCount := s.calcCount + 1#32, cs := c } := by
  cases r with
  | none => exact .inl ⟨rfl, rfl⟩
  | some c => exact .inr ⟨c, rfl, rfl⟩

end Sys2Proof.Machine
end

