-- ==== Sys2Proof/Laws/PerInstr.lean ====
section
/-! SUPPORT. Statements about every command as syntax, one lemma a constructor. -/

namespace Sys2Proof.Laws

/-- A row of the opcode table: the bits it fixes, and their values. -/
structure TableRow where
  mask : Word
  bits : Word
deriving DecidableEq, Repr

/-- The row of the opcode table that a command belongs to (R63). -/
def tableRow : Instr → TableRow
  | .nop => { mask := 0xFFFFFFFF#32, bits := 0x00000000#32 }
  | .prepare => { mask := 0xFFFFFFFF#32, bits := 0x01000000#32 }
  | .reset => { mask := 0xFFFFFFFF#32, bits := 0x02000000#32 }
  | .update _ => { mask := 0xFF0FFFFF#32, bits := 0x03000000#32 }
  | .chsample _ => { mask := 0xFFF0FFFF#32, bits := 0x04000000#32 }
  | .block _ _ => { mask := 0xFFF00000#32, bits := 0x05000000#32 }
  | .bqstep _ _ => { mask := 0xFF00FFFF#32, bits := 0x06000000#32 }
  | .bqreset _ _ => { mask := 0xFF00FFFF#32, bits := 0x07000000#32 }
  | .ldcoef _ => { mask := 0xFF0FFFFF#32, bits := 0x08000000#32 }
  | .calcls => { mask := 0xFFFFFFFF#32, bits := 0x09000000#32 }
  | .calchs => { mask := 0xFFFFFFFF#32, bits := 0x0A000000#32 }
  | .calcpk => { mask := 0xFFFFFFFF#32, bits := 0x0B000000#32 }
  | .sat => { mask := 0xFFFFFFFF#32, bits := 0x0C000000#32 }
  | .clrerr => { mask := 0xFFFFFFFF#32, bits := 0x0D000000#32 }

/-- The word of a command has the bits that its row of the opcode table fixes (R63). -/
def EncodingRow.Statement (i : Instr) : Prop := encode i &&& (tableRow i).mask = (tableRow i).bits

/-- A word assembled from fields, under a mask made of fields, is the masked fields assembled. -/
theorem assemble_and (o o' : BitVec 8) (b b' c c' : BitVec 4) (n n' : BitVec 16) :
    assemble o b c n &&& assemble o' b' c' n' =
      assemble (o &&& o') (b &&& b') (c &&& c') (n &&& n') := by
  apply BitVec.eq_of_getLsbD_eq
  intro i hi
  simp only [BitVec.getLsbD_and, getLsbD_assemble]
  split
  · rfl
  · split
    · rfl
    · split <;> rfl

theorem EncodingRow.nop : EncodingRow.Statement (.nop) := rfl

theorem EncodingRow.prepare : EncodingRow.Statement (.prepare) := rfl

theorem EncodingRow.reset : EncodingRow.Statement (.reset) := rfl

theorem EncodingRow.update (band : Band) : EncodingRow.Statement (.update band) := by
  cases band <;> rfl

theorem EncodingRow.chsample (ch : BitVec 4) : EncodingRow.Statement (.chsample ch) := by
  revert ch
  unfold EncodingRow.Statement
  decide

theorem EncodingRow.block (nin : BitVec 4) (n : BitVec 16) : EncodingRow.Statement (.block nin n) := by
  have h := assemble_and 0x05#8 0xFF#8 0#4 0xF#4 nin 0#4 n 0#16
  exact h.trans (by simp [tableRow, assemble])

theorem EncodingRow.bqstep (band : Band) (ch : BitVec 4) : EncodingRow.Statement (.bqstep band ch) := by
  cases band <;> (revert ch; unfold EncodingRow.Statement; decide)

theorem EncodingRow.bqreset (band : Band) (ch : BitVec 4) : EncodingRow.Statement (.bqreset band ch) := by
  cases band <;> (revert ch; unfold EncodingRow.Statement; decide)

theorem EncodingRow.ldcoef (band : Band) : EncodingRow.Statement (.ldcoef band) := by
  cases band <;> rfl

theorem EncodingRow.calcls : EncodingRow.Statement (.calcls) := rfl

theorem EncodingRow.calchs : EncodingRow.Statement (.calchs) := rfl

theorem EncodingRow.calcpk : EncodingRow.Statement (.calcpk) := rfl

theorem EncodingRow.sat : EncodingRow.Statement (.sat) := rfl

theorem EncodingRow.clrerr : EncodingRow.Statement (.clrerr) := rfl

end Sys2Proof.Laws
end

