-- ==== Sys2Proof/Laws/Rounding.lean ====
section
/-! SUPPORT. What rounding does (R82, R84): the nearest integer, monotonicity, exactness on
representable values, and the place of a rounded result in the order of R92. -/

namespace Sys2Proof.Machine

/-! ## Nearest integer -/

/-- `roundNearestEven` is within half a unit, and even when it is exactly half a unit away (R82). -/
theorem roundNearestEven_spec (num den : Nat) (h : 0 < den) :
    2 * (roundNearestEven num den * den) ≤ 2 * num + den ∧
    2 * num ≤ 2 * (roundNearestEven num den * den) + den ∧
    (2 * (roundNearestEven num den * den) = 2 * num + den → roundNearestEven num den % 2 = 0) ∧
    (2 * num = 2 * (roundNearestEven num den * den) + den → roundNearestEven num den % 2 = 0) := by
  have hd := Nat.div_add_mod num den
  have hr := Nat.mod_lt num h
  have hv : roundNearestEven num den =
      if 2 * (num % den) < den then num / den
      else if den < 2 * (num % den) then num / den + 1 else num / den + num / den % 2 := rfl
  rw [hv]
  generalize num / den = q at *
  generalize num % den = r at *
  have hq : den * q = q * den := Nat.mul_comm _ _
  have h1 : (q + 1) * den = q * den + den := by ring
  split
  · refine ⟨by omega, by omega, by omega, by omega⟩
  · split
    · refine ⟨by omega, by omega, by omega, by omega⟩
    · rcases Nat.mod_two_eq_zero_or_one q with e | e <;> rw [e]
      · rw [Nat.add_zero]
        exact ⟨by omega, by omega, fun _ => e, fun _ => e⟩
      · refine ⟨by omega, by omega, fun _ => by omega, fun _ => by omega⟩

theorem roundNearestEven_mono {n d n' d' : Nat} (h : 0 < d) (h' : 0 < d')
    (hle : n * d' ≤ n' * d) : roundNearestEven n d ≤ roundNearestEven n' d' := by
  obtain ⟨a1, -, a3, -⟩ := roundNearestEven_spec n d h
  obtain ⟨-, b2, -, b4⟩ := roundNearestEven_spec n' d' h'
  set r := roundNearestEven n d
  set r' := roundNearestEven n' d'
  by_contra hlt
  have hr : r' + 1 ≤ r := by omega
  have hpos : 0 < d * d' := Nat.mul_pos h h'
  have e1 : (2 * r) * (d * d') ≤ 2 * (n * d') + d * d' := by
    have := Nat.mul_le_mul_right d' a1
    nlinarith
  have e2 : 2 * (n' * d) ≤ (2 * r' + 1) * (d * d') := by
    have := Nat.mul_le_mul_right d b2
    nlinarith
  have e3 : (2 * r) * (d * d') ≤ (2 * r' + 2) * (d * d') := by nlinarith
  have e4 : 2 * r ≤ 2 * r' + 2 := Nat.le_of_mul_le_mul_right e3 hpos
  have hreq : r = r' + 1 := by omega
  have t1 : 2 * (r * d) = 2 * n + d := by
    have : 2 * (r * d) * d' = (2 * n + d) * d' := by
      rw [hreq] at e1 ⊢
      apply le_antisymm <;> nlinarith
    exact Nat.eq_of_mul_eq_mul_right h' this
  have t2 : 2 * n' = 2 * (r' * d') + d' := by
    have : 2 * n' * d = (2 * (r' * d') + d') * d := by
      rw [hreq] at e1
      apply le_antisymm <;> nlinarith
    exact Nat.eq_of_mul_eq_mul_right h this
  have := a3 t1
  have := b4 t2
  omega

theorem roundNearestEven_exact (k d : Nat) (h : 0 < d) : roundNearestEven (k * d) d = k := by
  unfold roundNearestEven
  simp [Nat.mul_div_cancel k h, h]

theorem roundNearestEven_scale (n d k : Nat) (h : 0 < k) :
    roundNearestEven (n * k) (d * k) = roundNearestEven n d := by
  unfold roundNearestEven
  rw [Nat.mul_div_mul_right _ _ h, Nat.mul_mod_mul_right]
  simp only [← Nat.mul_assoc, Nat.mul_lt_mul_right h]

/-! ## The rounded magnitude -/

/-- The shift that leaves 24 significant bits. -/
def roundShift (num den : Nat) : Nat := (num / den).log2 - 23

theorem roundMag_eq (num den : Nat) :
    roundMag num den = roundShift num den * 2 ^ 23 +
      roundNearestEven num (den * 2 ^ roundShift num den) := rfl

theorem roundMag_scale (n d k : Nat) (h : 0 < k) : roundMag (n * k) (d * k) = roundMag n d := by
  have e : roundShift (n * k) (d * k) = roundShift n d := by
    rw [roundShift, roundShift, Nat.mul_div_mul_right _ _ h]
  rw [roundMag_eq, roundMag_eq, e,
    show d * k * 2 ^ roundShift n d = d * 2 ^ roundShift n d * k by ring,
    roundNearestEven_scale _ _ _ h]

/-- The significand before rounding is below 2^24. -/
theorem lt_of_roundShift (n d : Nat) (h : 0 < d) : n < 2 ^ 24 * (d * 2 ^ roundShift n d) := by
  have h1 : n / d < 2 ^ ((n / d).log2 + 1) := Nat.lt_log2_self
  have h2 : (n / d).log2 + 1 ≤ 24 + roundShift n d := by rw [roundShift]; omega
  have h3 : n / d < 2 ^ (24 + roundShift n d) :=
    lt_of_lt_of_le h1 (Nat.pow_le_pow_right (by norm_num) h2)
  rw [Nat.div_lt_iff_lt_mul h] at h3
  calc n < 2 ^ (24 + roundShift n d) * d := h3
    _ = _ := by rw [pow_add]; ring

/-- When bits are dropped, the significand before rounding is at least 2^23. -/
theorem le_of_roundShift (n d : Nat) (h : 0 < d) (hs : 0 < roundShift n d) :
    2 ^ 23 * (d * 2 ^ roundShift n d) ≤ n := by
  have h0 : n / d ≠ 0 := by
    intro e; rw [roundShift, e] at hs; simp at hs
  have h1 : 2 ^ (n / d).log2 ≤ n / d := Nat.log2_self_le h0
  have h2 : 23 + roundShift n d = (n / d).log2 := by rw [roundShift] at hs ⊢; omega
  rw [← h2, Nat.le_div_iff_mul_le h] at h1
  calc _ = 2 ^ (23 + roundShift n d) * d := by rw [pow_add]; ring
    _ ≤ n := h1

theorem roundNearestEven_le {n d k : Nat} (h : 0 < d) (hle : n ≤ k * d) :
    roundNearestEven n d ≤ k := by
  have := roundNearestEven_mono (n := n) (d := d) (n' := k * d) (d' := d) h h (by nlinarith)
  rwa [roundNearestEven_exact k d h] at this

theorem le_roundNearestEven {n d k : Nat} (h : 0 < d) (hle : k * d ≤ n) :
    k ≤ roundNearestEven n d := by
  have := roundNearestEven_mono (n := k * d) (d := d) (n' := n) (d' := d) h h (by nlinarith)
  rwa [roundNearestEven_exact k d h] at this

/-- A larger exact value never rounds to a smaller magnitude (R82). -/
theorem roundMag_mono {n d n' d' : Nat} (h : 0 < d) (h' : 0 < d') (hle : n * d' ≤ n' * d) :
    roundMag n d ≤ roundMag n' d' := by
  have hq : n / d ≤ n' / d' := by
    rw [Nat.le_div_iff_mul_le h']
    have h1 : n / d * d ≤ n := Nat.div_mul_le_self n d
    have : n / d * d' * d ≤ n' * d := by nlinarith
    exact Nat.le_of_mul_le_mul_right this h
  have hs : roundShift n d ≤ roundShift n' d' := by
    have : (n / d).log2 ≤ (n' / d').log2 := by
      rw [Nat.log2_eq_log_two, Nat.log2_eq_log_two]
      exact Nat.log_mono_right hq
    rw [roundShift, roundShift]; omega
  rw [roundMag_eq, roundMag_eq]
  have p : 0 < d * 2 ^ roundShift n d := Nat.mul_pos h (Nat.pow_pos (by norm_num))
  have p' : 0 < d' * 2 ^ roundShift n' d' := Nat.mul_pos h' (Nat.pow_pos (by norm_num))
  rcases Nat.lt_or_ge (roundShift n d) (roundShift n' d') with hlt | hge
  · have u := roundNearestEven_le p (Nat.le_of_lt (lt_of_roundShift n d h))
    have l := le_roundNearestEven p' (le_of_roundShift n' d' h' (by omega))
    have := Nat.mul_le_mul_right (2 ^ 23) (show roundShift n d + 1 ≤ roundShift n' d' by omega)
    omega
  · have e : roundShift n d = roundShift n' d' := by omega
    rw [e] at p ⊢
    have := roundNearestEven_mono p p' (show n * (d' * 2 ^ roundShift n' d') ≤
      n' * (d * 2 ^ roundShift n' d') by
        calc _ = n * d' * 2 ^ roundShift n' d' := by ring
          _ ≤ n' * d * 2 ^ roundShift n' d' := Nat.mul_le_mul_right _ hle
          _ = _ := by ring)
    omega

/-! ## Representable values -/

/-- The magnitude of a finite pattern from its number (R80). -/
theorem units_eq (a : Word) :
    units a = if a.toNat % 2 ^ 31 < 2 ^ 23 then a.toNat % 2 ^ 31
      else (2 ^ 23 + a.toNat % 2 ^ 23) * 2 ^ (a.toNat % 2 ^ 31 / 2 ^ 23 - 1) := by
  unfold units
  have e : a.toNat / 2 ^ 23 % 256 = a.toNat % 2 ^ 31 / 2 ^ 23 := by omega
  simp only [expField_eq_iff, expField_toNat, fracField_toNat, e, BitVec.toNat_ofNat]
  by_cases h : a.toNat % 2 ^ 31 < 2 ^ 23
  · rw [if_pos (by omega), if_pos h]; omega
  · rw [if_neg (by omega), if_neg h]

/-- The magnitude in units of 2^-149 of a magnitude pattern. -/
def magUnits (m : Nat) : Nat :=
  if m < 2 ^ 23 then m else (2 ^ 23 + m % 2 ^ 23) * 2 ^ (m / 2 ^ 23 - 1)

theorem units_eq_magUnits (a : Word) : units a = magUnits (a.toNat % 2 ^ 31) := by
  rw [units_eq, magUnits]
  have : a.toNat % 2 ^ 31 % 2 ^ 23 = a.toNat % 2 ^ 23 := by omega
  rw [this]

/-- A representable magnitude rounds to itself (R82). -/
theorem roundMag_magUnits (m : Nat) : roundMag (magUnits m) 1 = m := by
  unfold magUnits
  split
  · rename_i h
    have hl : m.log2 ≤ 23 := by
      rcases Nat.eq_zero_or_pos m with rfl | hp
      · decide
      · have := (Nat.log2_lt (by omega)).2 h
        omega
    have hs : roundShift m 1 = 0 := by rw [roundShift, Nat.div_one]; omega
    rw [roundMag_eq, hs]
    have := roundNearestEven_exact m 1 (by norm_num)
    simpa using this
  · rename_i h
    set f := m % 2 ^ 23 with hf
    set k := m / 2 ^ 23 - 1 with hk
    have hflt : f < 2 ^ 23 := Nat.mod_lt _ (by norm_num)
    have hlog : ((2 ^ 23 + f) * 2 ^ k).log2 = 23 + k := by
      rw [Nat.log2_eq_log_two]
      apply Nat.log_eq_of_pow_le_of_lt_pow
      · rw [pow_add]; exact Nat.mul_le_mul_right _ (by omega)
      · rw [show 23 + k + 1 = 24 + k by ring, pow_add]
        exact Nat.mul_lt_mul_of_pos_right (by omega) (Nat.pow_pos (by norm_num))
    have hs : roundShift ((2 ^ 23 + f) * 2 ^ k) 1 = k := by
      rw [roundShift, Nat.div_one, hlog]; omega
    rw [roundMag_eq, hs, Nat.one_mul, roundNearestEven_exact _ _ (Nat.pow_pos (by norm_num))]
    omega

/-- Larger patterns are larger magnitudes (R80). -/
theorem magUnits_lt_iff {m m' : Nat} : magUnits m < magUnits m' ↔ m < m' := by
  have mono : ∀ {a b : Nat}, magUnits a ≤ magUnits b → a ≤ b := by
    intro a b h
    have := roundMag_mono (n := magUnits a) (n' := magUnits b) Nat.one_pos Nat.one_pos (by omega)
    rwa [roundMag_magUnits, roundMag_magUnits] at this
  constructor
  · intro h
    refine lt_of_le_of_ne (mono h.le) fun e => ?_
    rw [e] at h
    exact lt_irrefl _ h
  · intro h
    by_contra hc
    exact absurd (mono (Nat.le_of_not_lt hc)) (by omega)

/-- One more in the exponent doubles a normal magnitude (R80). -/
theorem magUnits_add (m : Nat) (h : 2 ^ 23 ≤ m) : magUnits (m + 2 ^ 23) = 2 * magUnits m := by
  unfold magUnits
  rw [if_neg (by omega), if_neg (by omega), show (m + 2 ^ 23) % 2 ^ 23 = m % 2 ^ 23 by omega,
    show (m + 2 ^ 23) / 2 ^ 23 - 1 = (m / 2 ^ 23 - 1) + 1 by omega, pow_succ]
  ring

/-! ## The rounded result -/

/-- The magnitude pattern of a rounded result: infinite from 2^128 on (R82), zero where it would be
subnormal (R84). -/
def resultMag (num den : Nat) : Nat :=
  if min (roundMag num den) 0x7F800000 < 2 ^ 23 then 0 else min (roundMag num den) 0x7F800000

theorem resultMag_le (num den : Nat) : resultMag num den ≤ 0x7F800000 := by
  unfold resultMag; split <;> omega

theorem signBit_packSign (s : Bool) (m : Nat) (h : m < 2 ^ 31) : signBit (packSign s m) = s := by
  have := signBit_iff (packSign s m)
  rw [packSign_toNat s m h] at this
  cases s <;> cases hb : signBit (packSign _ m) <;> simp only [hb] at this <;>
    first | rfl | (exfalso; simp at this; try omega)

theorem packSign_mod (s : Bool) (m : Nat) (h : m < 2 ^ 31) :
    (packSign s m).toNat % 2 ^ 31 = m := by
  rw [packSign_toNat s m h]
  cases s <;> simp <;> omega

theorem roundResult_eq (s : Bool) (num den : Nat) :
    roundResult s num den = packSign s (resultMag num den) := by
  unfold roundResult resultMag
  set m := min (roundMag num den) 0x7F800000
  have hm : m < 2 ^ 31 := by omega
  have hmod := packSign_mod s m hm
  cases hsub : isSubnormal (packSign s m)
  · rw [flush_of_not_subnormal hsub]
    rw [Bool.eq_false_iff, ne_eq, isSubnormal_iff, hmod] at hsub
    split
    · have : m = 0 := by omega
      rw [this]
    · rfl
  · rw [flush_of_subnormal hsub, signBit_packSign s m hm]
    rw [isSubnormal_iff, hmod] at hsub
    rw [if_pos (by omega)]
    rfl

/-- A rounded result is never a NaN, never subnormal, and has the sign it was given. -/
theorem roundResult_class (s : Bool) (num den : Nat) :
    isNaN (roundResult s num den) = false ∧ isSubnormal (roundResult s num den) = false ∧
    signBit (roundResult s num den) = s := by
  have hle := resultMag_le num den
  rw [roundResult_eq]
  have hmod := packSign_mod s (resultMag num den) (by omega)
  refine ⟨?_, ?_, signBit_packSign s _ (by omega)⟩
  · rw [Bool.eq_false_iff, ne_eq, isNaN_iff, hmod]; omega
  · rw [Bool.eq_false_iff, ne_eq, isSubnormal_iff, hmod]
    unfold resultMag
    split <;> omega

theorem roundResult_toNat_mod (s : Bool) (num den : Nat) :
    (roundResult s num den).toNat % 2 ^ 31 = resultMag num den := by
  have hle := resultMag_le num den
  rw [roundResult_eq, packSign_mod _ _ (by omega)]

theorem orderKey_roundResult (s : Bool) (num den : Nat) :
    orderKey (roundResult s num den) =
      if s then -(resultMag num den : Int) else (resultMag num den : Int) := by
  rw [orderKey_eq, (roundResult_class s num den).2.2, roundResult_toNat_mod]

theorem resultMag_mono {n d n' d' : Nat} (h : 0 < d) (h' : 0 < d') (hle : n * d' ≤ n' * d) :
    resultMag n d ≤ resultMag n' d' := by
  have := roundMag_mono h h' hle
  unfold resultMag
  split <;> split <;> omega

/-- An exact value that a finite pattern represents, if it is not subnormal, is its own result. -/
theorem roundResult_exact {a : Word} (hf : isFinite a = true) (hs : isSubnormal a = false)
    (k : Nat) (hk : 0 < k) : roundResult (signBit a) (units a * k) k = a := by
  have hm : roundMag (units a * k) k = a.toNat % 2 ^ 31 := by
    have := roundMag_scale (units a) 1 k hk
    rw [Nat.one_mul] at this
    rw [this, units_eq_magUnits, roundMag_magUnits]
  rw [isFinite_iff] at hf
  rw [Bool.eq_false_iff, ne_eq, isSubnormal_iff] at hs
  apply word_ext (roundResult_class _ _ _).2.2
  rw [roundResult_toNat_mod, resultMag, hm]
  split <;> omega

/-- A zero numerator gives the zero of the sign. -/
theorem roundResult_zero (s : Bool) (k : Nat) : roundResult s 0 k = signedZero s := by
  rw [roundResult_eq]
  have : resultMag 0 k = 0 := by
    have h0 : roundMag 0 k = 0 := by
      unfold roundMag roundNearestEven
      simp
    rw [resultMag, h0]
    simp
  rw [this]
  rfl

/-! ## Products of finite numbers (R88) -/

theorem isNaN_of_isFinite {a : Word} (h : isFinite a = true) : isNaN a = false := by
  rw [isFinite_iff] at h
  rw [Bool.eq_false_iff, ne_eq, isNaN_iff]
  omega

theorem isInf_of_isFinite {a : Word} (h : isFinite a = true) : isInf a = false := by
  rw [isFinite_iff] at h
  rw [Bool.eq_false_iff, ne_eq, isInf_iff]
  omega

/-- The product of two numbers that are zero or normal is the exact product, rounded once (R88). -/
theorem fmul_of_isFinite {a b : Word} (ha : isFinite a = true) (hb : isFinite b = true)
    (sa : isSubnormal a = false) (sb : isSubnormal b = false) :
    fmul a b = roundResult (signBit a ^^ signBit b) (units a * units b) (2 ^ 149) := by
  unfold fmul mulFlushed
  rw [flush_of_not_subnormal sa, flush_of_not_subnormal sb]
  simp [isNaN_of_isFinite ha, isNaN_of_isFinite hb, isInf_of_isFinite ha, isInf_of_isFinite hb]

theorem units_eq_zero_iff {a : Word} : units a = 0 ↔ isZero a = true := by
  rw [units_eq_magUnits, isZero_iff, magUnits]
  split
  · rfl
  · constructor
    · intro h
      have : 0 < (2 ^ 23 + a.toNat % 2 ^ 31 % 2 ^ 23) *
          2 ^ (a.toNat % 2 ^ 31 / 2 ^ 23 - 1) := Nat.mul_pos (by omega) (Nat.pow_pos (by norm_num))
      omega
    · intro h; omega

end Sys2Proof.Machine
end

