-- ==== Sys2Proof/Laws/Transcendental.lean ====
section
/-! SUPPORT. The configuration functions as the datapath applies them are the implementation's
functions, and so have the properties R96 to R99 require. -/

namespace Sys2Proof.Machine

theorem isZero_cases {v : Word} (h : isZero (flush v) = true) :
    flush v = posZero ∨ flush v = negZero := by
  rw [eq_signedZero_of_isZero h]
  cases signBit (flush v)
  · exact .inl rfl
  · exact .inr rfl

theorem isInf_cases {v : Word} (h : isInf v = true) :
    v = signedInf false ∨ v = signedInf true := by
  rw [eq_signedInf_of_isInf h]
  cases signBit v
  · exact .inl rfl
  · exact .inr rfl

/-- On a zero or a subnormal an instance takes its value at the zero of the sign (R96(b)). -/
theorem Common.flush_eq {f : Word → Word} (h : Common f) (v : Word) : f v = f (flush v) := by
  cases hs : isSubnormal v
  · rw [flush_of_not_subnormal hs]
  · exact h.subnormal_operand v hs

theorem fsin_eq : fsin = Config.sinImpl.val.1 := by
  funext v
  have p := Config.sinImpl.val.2
  unfold fsin
  split
  · exact (p.nan_operand v ‹_›).symm
  split
  · exact (p.infinite v ‹_›).symm
  split
  · rw [p.toCommon.flush_eq v]
    rcases isZero_cases ‹_› with e | e <;> rw [e]
    · exact p.zero_pos.symm
    · exact p.zero_neg.symm
  · rfl

theorem fcos_eq : fcos = Config.cosImpl.val.1 := by
  funext v
  have p := Config.cosImpl.val.2
  unfold fcos
  split
  · exact (p.nan_operand v ‹_›).symm
  split
  · exact (p.infinite v ‹_›).symm
  split
  · rw [p.toCommon.flush_eq v]
    rcases isZero_cases ‹_› with e | e <;> rw [e]
    · exact p.zero_pos.symm
    · exact p.zero_neg.symm
  · rfl

theorem ftanh_eq : ftanh = Config.tanhImpl.val.1 := by
  funext v
  have p := Config.tanhImpl.val.2
  unfold ftanh
  split
  · exact (p.nan_operand v ‹_›).symm
  split
  · rcases isInf_cases ‹_› with rfl | rfl
    · exact p.infinite_pos.symm
    · exact p.infinite_neg.symm
  split
  · rw [p.toCommon.flush_eq v]
    rcases isZero_cases ‹_› with e | e <;> rw [e]
    · exact p.zero_pos.symm
    · exact p.zero_neg.symm
  · rfl

theorem fexp10_eq : fexp10 = Config.exp10Impl.val.1 := by
  funext v
  have p := Config.exp10Impl.val.2
  unfold fexp10
  split
  · exact (p.nan_operand v ‹_›).symm
  split
  · rcases isInf_cases ‹_› with rfl | rfl
    · exact p.infinite_pos.symm
    · exact p.infinite_neg.symm
  split
  · rw [p.toCommon.flush_eq v]
    rcases isZero_cases ‹_› with e | e <;> rw [e]
    · exact p.zero_pos.symm
    · exact p.zero_neg.symm
  · rfl

/-- What R96 and R97 require holds of `fsin`. -/
theorem fsin_ok : SinOk fsin := by rw [fsin_eq]; exact Config.sinImpl.val.2

/-- What R96 and R97 require holds of `fcos`. -/
theorem fcos_ok : CosOk fcos := by rw [fcos_eq]; exact Config.cosImpl.val.2

/-- What R96 and R98 require holds of `ftanh`. -/
theorem ftanh_ok : TanhOk ftanh := by rw [ftanh_eq]; exact Config.tanhImpl.val.2

/-- What R96 and R99 require holds of `fexp10`. -/
theorem fexp10_ok : Exp10Ok fexp10 := by rw [fexp10_eq]; exact Config.exp10Impl.val.2

end Sys2Proof.Machine
end

