-- ==== Sys2Proof/Tests/Slice0.lean ====
section
/-! SUPPORT. Tests: the checks of WellFormed, every constructor's decoding, spec vectors on one step,
and for every statement with hypotheses a state and operands that meet them. -/

namespace Sys2Proof.Tests

open Sys2Proof.Machine Sys2Proof.Safety

/-! ## States -/

/-- The state that follows a command. -/
def after (i : Instr) (s : State) : State :=
  match exec i s with
  | .next t => t
  | .fault _ => s
  | .refused _ => s

/-- A core prepared at 44100 Hz for blocks of 4. -/
def ready : State :=
  { State.reset with life := .prepared, fs := 0x472C4400#32, maxBlock := 4#32 }

/-- Right after reset, with events to come. -/
def pend (es : List HostEvent) : State := { State.reset with pending := es }

/-- The low shelf of vector K1 at +6 dB. -/
def lsSix : CoefSet :=
  { b0 := 0x3F80E5FA#32, b1 := 0xBFFB9FA3#32, b2 := 0x3F75BD3B#32, a1 := 0xBFFBA8DC#32,
    a2 := 0x3F7776C4#32 }

/-- The peak filter of vector K1 at +6 dB, Q 1. -/
def pkSix : CoefSet :=
  { b0 := 0x3F946DC7#32, b1 := 0xBFB4F9DE#32, b2 := 0x3F0509C5#32, a1 := 0xBFB4F9DE#32,
    a2 := 0x3F2DE552#32 }

/-- Valid calculator operands (vector K4), the sample +infinity, the filters dirtied. -/
def operands : State :=
  { State.reset with
    life := .active, fs := 0x472C4400#32, maxBlock := 4#32,
    opFs := 0x472C4400#32, opF0 := 0x43480000#32, opQ := 0x3F800000#32, opGain := 0x3F800000#32,
    opX := 0x3F800000#32, coef := { low := lsSix, mid := pkSix, high := CoefSet.identity },
    delay := Vector.replicate 2
      { low := { s1 := 0x3F800000#32, s2 := 0x40000000#32 }, mid := Delay.zero,
        high := Delay.zero } }

/-- Invalid calculator operands: the frequency is half the rate, which the strict test rejects. -/
def halfRate : State :=
  { State.reset with
    opFs := 0x472C4400#32, opF0 := 0x46AC4400#32, opQ := 0x3F800000#32, opGain := 0x3F800000#32 }

/-- Ready, the caches agreeing with the live parameters, so that a block changes no coefficient; a
word in channel 1 at index 0. -/
def cached : State :=
  writeBuf 1 0 0x3E99999A#32 { ready with
    valid := PerBand.all true, lastQ := 0x3F800000#32 }

/-! ## WellFormed: each check refuses an ill-formed term -/

theorem test_wf_chsample : (Instr.chsample 2#4).wf = false := by decide
theorem test_wf_bqstep : (Instr.bqstep .low 2#4).wf = false := by decide
theorem test_wf_bqreset : (Instr.bqreset .high 15#4).wf = false := by decide
theorem test_wf_block : (Instr.block 3#4 0#16).wf = false := by decide

/-! ## Decoding: words written out from the fields of R60 and the opcodes of R63 -/

theorem test_decode_nop : decode 0x00000000#32 = .ok .nop := by decide
theorem test_decode_prepare : decode 0x01000000#32 = .ok .prepare := by decide
theorem test_decode_reset : decode 0x02000000#32 = .ok .reset := by decide
theorem test_decode_update : decode 0x03200000#32 = .ok (.update .high) := by decide
theorem test_decode_chsample : decode 0x04010000#32 = .ok (.chsample 1#4) := by decide
theorem test_decode_block : decode 0x0501FFFF#32 = .ok (.block 1#4 0xFFFF#16) := by decide
theorem test_decode_bqstep : decode 0x06110000#32 = .ok (.bqstep .mid 1#4) := by decide
theorem test_decode_bqreset : decode 0x07200000#32 = .ok (.bqreset .high 0#4) := by decide
theorem test_decode_ldcoef : decode 0x08100000#32 = .ok (.ldcoef .mid) := by decide
theorem test_decode_calcls : decode 0x09000000#32 = .ok .calcls := by decide
theorem test_decode_calchs : decode 0x0A000000#32 = .ok .calchs := by decide
theorem test_decode_calcpk : decode 0x0B000000#32 = .ok .calcpk := by decide
theorem test_decode_sat : decode 0x0C000000#32 = .ok .sat := by decide
theorem test_decode_clrerr : decode 0x0D000000#32 = .ok .clrerr := by decide

theorem test_reject_op : decode 0x0E000000#32 = .error .reservedOp := by decide
theorem test_reject_band_zero : decode 0x04100000#32 = .error .bandNotZero := by decide
theorem test_reject_band : decode 0x03300000#32 = .error .bandOutOfRange := by decide
theorem test_reject_ch_zero : decode 0x08010000#32 = .error .chNotZero := by decide
theorem test_reject_ch : decode 0x04020000#32 = .error .chOutOfRange := by decide
theorem test_reject_nin : decode 0x05030000#32 = .error .ninOutOfRange := by decide
theorem test_reject_n : decode 0x0C000001#32 = .error .nNotZero := by decide

/-- The word of an instruction placed with `withFetchWord` is the one the next step runs. -/
theorem test_fetch_word :
    step (State.reset.withFetchWord 32 0x0C000000) = .next (after .sat State.reset) := by rfl

theorem test_table_word : decodeTableWord 32 0x05020040 = some (.block 2#4 64#16) := by decide

/-! ## Arithmetic: vectors of section 2.1 -/

theorem test_A2_tie_down : fadd 0x3F800000#32 0x33800000#32 = 0x3F800000#32 := by decide
theorem test_A3_tie_up : fadd 0x3F800001#32 0x33800000#32 = 0x3F800002#32 := by decide
theorem test_A10_result_flushed : fadd 0x00800000#32 0x80800001#32 = 0x80000000#32 := by decide
theorem test_A14_negative_zero : fsub 0x80000000#32 0x00000000#32 = 0x80000000#32 := by decide
theorem test_A18_rounds_before_flush : fmul 0x00FFFFFF#32 0x3F000000#32 = 0x00800000#32 := by decide
theorem test_A24_division : fdiv 0x40C00000#32 0x41A00000#32 = 0x3E99999A#32 := by decide
theorem test_A31_subnormal_divisor : fdiv 0x3F800000#32 0x00400000#32 = 0x7F800000#32 := by decide
theorem test_A32_square_root : fsqrt 0x3FFF64C2#32 = 0x3FB4CE08#32 := by decide
theorem test_A56_clamp_keeps_pattern : clampf 0x80000000#32 gainMin gainMax = 0x80000000#32 := by
  decide
theorem test_A102_db2lin_subnormal : db2lin 0x000116C2#32 = 0x3F800000#32 := by decide

/-! ## Commands: one step each -/

theorem test_nop : exec .nop operands = .next operands := by rfl

theorem test_prepare_accepts :
    let t := after .prepare { operands with sampleRateIn := 0x472C4400#32, maxBlockIn := 512#32 }
    t.life = .prepared ∧ t.maxBlock = 512#32 ∧ (chanDelay t 1).low = Delay.zero := by decide

/-- 24000.0 Hz itself is rejected (R153). -/
theorem test_prepare_rejects :
    let t := after .prepare { ready with sampleRateIn := 0x46BB8000#32, maxBlockIn := 512#32 }
    statusWord t = 0x00000101#32 ∧ t.errCmd = 0x01000000#32 ∧ t.fs = 0x472C4400#32 := by decide

theorem test_reset_command :
    let t := after .reset operands
    t.life = .prepared ∧ (chanDelay t 0).low = Delay.zero ∧ t.coef = operands.coef := by decide

/-- At 0 dB the recomputation is counted and the cache takes the patterns (R149). -/
theorem test_update_recomputes :
    let t := after (.update .mid) { ready with midGainDb := 0x80000000#32 }
    t.valid.mid = true ∧ t.lastGain.mid = 0x80000000#32 ∧ t.lastQ = 0x3F800000#32 ∧
      t.calcCount = 1#32 ∧ t.valid.low = false := by
  refine ⟨?_, ?_, ?_, ?_, ?_⟩ <;> rfl

theorem test_update_nan_gain :
    let t := after (.update .low) { ready with lowGainDb := 0x7FC00000#32 }
    statusWord t = 0x00000101#32 ∧ t.errCmd = 0x03000000#32 ∧ t.calcCount = 0#32 := by decide

/-- B1, step 0, through a chain whose other two filters are the identity, on channel 1. -/
theorem test_chsample :
    let t := after (.chsample 1#4) { ready with
      opX := 0x3F800000#32, coef := { low := lsSix, mid := CoefSet.identity,
                                      high := CoefSet.identity } }
    t.resY = 0x3F80E5FA#32 ∧
      (chanDelay t 1).low = { s1 := 0x3C66B080#32, s2 := 0xBC5D89C0#32 } ∧
      (chanDelay t 0).low = Delay.zero ∧ t.life = .active := by decide +kernel

theorem test_chsample_uninitialized :
    statusWord (after (.chsample 0#4) State.reset) = 0x00000200#32 := by decide

/-- One input channel of two: channel 1 is filled with zeros, channel 0 unread beyond n (R178). -/
theorem test_block_zero_fill :
    let t := after (.block 1#4 1#16) (writeBuf 0 0 0x3F000000#32 cached)
    readBuf t 0 0 = 0x3F000000#32 ∧ readBuf t 1 0 = 0x00000000#32 ∧ t.life = .active := by
  decide +kernel

theorem test_block_too_long :
    let t := after (.block 2#4 5#16) ready
    statusWord t = 0x00000401#32 ∧ t.errCause = some .badCommand ∧ t.errCmd = 0x05020005#32 := by
  decide

/-- B2, step 0. -/
theorem test_bqstep :
    let t := after (.bqstep .mid 1#4) operands
    t.resY = 0x3F946DC7#32 ∧
      (chanDelay t 1).mid = { s1 := 0x3E671208#32, s2 := 0xBE89390A#32 } ∧
      (chanDelay t 1).low = { s1 := 0x3F800000#32, s2 := 0x40000000#32 } := by decide

theorem test_bqreset :
    let t := after (.bqreset .low 0#4) operands
    (chanDelay t 0).low = Delay.zero ∧
      (chanDelay t 1).low = { s1 := 0x3F800000#32, s2 := 0x40000000#32 } := by decide

theorem test_ldcoef :
    let t := after (.ldcoef .low) operands
    t.coef.low = CoefSet.identity ∧ t.coef.mid = pkSix ∧ t.valid.low = false := by decide

/-- The worked example of R114, from the prelude it gives. -/
theorem test_calcls_example :
    normalise (rawLowShelf
      { A := 0x3FB4CE08#32, w0 := 0x3CE96EB5#32, c := 0x3F7FE565#32, s := 0x3CE9669F#32 } shelfQ) =
      lsSix := by decide +kernel

theorem test_calcls_half_rate :
    let t := after .calcls halfRate
    statusWord t = 0x00000100#32 ∧ t.calcCount = 1#32 ∧ t.cs = CoefSet.identity := by decide

/-- The worked example of R115, from the prelude it gives. -/
theorem test_calchs_example :
    normalise (rawHighShelf
      { A := 0x3F353BEF#32, w0 := 0x3FDAD7CA#32, c := 0xBE0DCA79#32, s := 0x3F7D88B0#32 } shelfQ) =
      { b0 := 0x3F3A6265#32, b1 := 0x3E86A05F#32, b2 := 0x3E111F64#32, a1 := 0xBD1FEA2E#32,
        a2 := 0x3E2FE43F#32 } := by decide +kernel

theorem test_calchs_half_rate : (after .calchs halfRate).errCmd = 0x0A000000#32 := by decide

/-- The worked example of R113, from the prelude it gives. -/
theorem test_calcpk_example :
    normalise (rawPeak
      { A := 0x3FB4CE08#32, w0 := 0x3F11E531#32, c := 0x3F578A3D#32, s := 0x3F0A1FFF#32 } one) =
      pkSix := by decide +kernel

theorem test_calcpk_half_rate : (after .calcpk halfRate).errCmd = 0x0B000000#32 := by decide

/-- Disabled, the stage copies the bits of a signalling NaN (R172). -/
theorem test_sat_disabled :
    (after .sat { State.reset with opX := 0x7FA00001#32 }).resY = 0x7FA00001#32 := by decide

theorem test_sat_enabled :
    (after .sat { State.reset with satEn := true, opX := 0xFF800000#32 }).resY = 0xBF7FFFFF#32 := by
  decide

theorem test_clrerr :
    let t := after .clrerr { ready with eUninit := true, errCause := some .uninitializedState }
    statusWord t = 0x00000001#32 ∧ t.errCause = none := by decide

/-- A read-only register ignores the host's write (R46). -/
theorem test_write_read_only :
    step (pend [.busWrite 0x001D#16 7#32]) = .next State.reset := by rfl

/-! ## Witnesses: for each statement with hypotheses, a state and operands that meet them -/

theorem ready_lifecycle : LifecycleInv ready :=
  ⟨fun _ => by decide, fun h => absurd h (by decide)⟩

theorem ready_inv : Inv ready :=
  ⟨ready_lifecycle, ⟨fun k => by cases k <;> rfl, rfl⟩, ⟨List.Pairwise.nil, fun _ h => nomatch h⟩⟩

theorem witness_DecodeOfEncodeIsTheCommand :
    (Instr.block 2#4 0xFFFF#16).wf = true ∧ (Instr.bqstep .high 1#4).wf = true := by decide

theorem witness_EncodeOfDecodeIsTheWord :
    decode 0x0502FFFF#32 = .ok (.block 2#4 0xFFFF#16) := by decide

/-- The least word that fails each test of R64, and the legal words beside them. -/
theorem witness_IllegalWordRaisesBadCommand :
    (∀ n ∈ ([0x0E000000, 0xFF000000, 0x00100000, 0x05100000, 0x03010000, 0x0D010000, 0x0C000001,
        0x03300000, 0x06300000, 0x04020000, 0x07020000, 0x05030000] : List Nat),
      IllegalWord (BitVec.ofNat 32 n)) ∧
    (∀ n ∈ ([0x0D000000, 0x03200000, 0x04010000, 0x0502FFFF] : List Nat),
      ¬ IllegalWord (BitVec.ofNat 32 n)) ∧
    (pend [.busWrite 0x001F#16 0x0E000000#32]).pending =
      .busWrite 0x001F#16 0x0E000000#32 :: [] := by
  unfold IllegalWord
  exact ⟨by decide, by decide, rfl⟩

theorem witness_StepRunsTheDecodedCommand :
    decode 0x0C000000#32 = .ok .sat ∧
      (pend [.busWrite 0x001F#16 0x0C000000#32]).pending =
        .busWrite 0x001F#16 0x0C000000#32 :: [] := by decide

theorem witness_IdleCoreHoldsItsState : State.reset.pending = [] := rfl

theorem witness_BusReadHasNoSideEffect :
    (pend [.busRead 0xFFFF#16]).pending = .busRead 0xFFFF#16 :: [] := rfl

/-- The last location of each group that exists, and what stands at its address. -/
theorem witness_AddressMapIsOneToOne :
    (Reg.buf 1 4095).present = true ∧ (Reg.delay 1 .high .s2).present = true ∧
      regAt 0x2FFF = some (.buf 1 4095) ∧ regAt 0x004D = some (.delay 1 .high .s2) := by decide

/-- Each end of each reserved range of R32. -/
theorem witness_ReservedAddressIsSilent :
    (∀ n ∈ ([0x0007, 0x000D, 0x000F, 0x0016, 0x0017, 0x001E, 0x0026, 0x0036, 0x003D, 0x003F, 0x0046,
        0x0047, 0x004E, 0x0FFF, 0x3000, 0xFFFF] : List Nat),
      ReservedAddr (BitVec.ofNat 16 n).toNat) ∧
    (pend [.busWrite 0xFFFF#16 1#32]).pending = .busWrite 0xFFFF#16 1#32 :: [] := by
  unfold ReservedAddr
  exact ⟨by decide, rfl⟩

theorem witness_BusWriteReplacesOneLocation :
    (Reg.satEn.present = true ∧ (0x0004#16).toNat = regAddr .satEn ∧ Reg.satEn ≠ .cmd ∧
      Reg.satEn.hostWritable = true) ∧
    ((Reg.buf 1 4095).present = true ∧ (0x2FFF#16).toNat = regAddr (.buf 1 4095) ∧
      (Reg.buf 1 4095).hostWritable = true) ∧
    (Reg.status.present = true ∧ (0x0018#16).toNat = regAddr .status ∧
      Reg.status.hostWritable = false) ∧
    (pend [.busWrite 0x0004#16 3#32]).pending = .busWrite 0x0004#16 3#32 :: [] := by decide

theorem witness_HardwareResetRestoresEveryRegister :
    (pend [.hwReset]).pending = .hwReset :: [] ∧ (0x0FFF#16).toNat < 0x1000 ∧
      0x3000 ≤ (0x3000#16).toNat := by decide

/-- With BadCommand on record: `PREPARE` of the reset operands records InvalidParameter and its word
from the blank record, `NOP` records nothing. -/
theorem witness_ErrorRecordInfluencesNoCommand :
    let s : State := raiseError .badCommand 0xFF000000#32 State.reset
    Instr.prepare ≠ .clrerr ∧ (after .prepare (eraseErrors s)).errCause = some .invalidParameter ∧
      (after .prepare (eraseErrors s)).errCmd = 0x01000000#32 ∧
      Instr.nop ≠ .clrerr ∧ (after .nop (eraseErrors s)).errCause = none ∧
      s.errCause = some .badCommand := by decide

/-- A flag is set, and the next event is an ordinary write. -/
theorem witness_ErrorFlagsAreSticky :
    let s : State :=
      { State.reset with eBadCmd := true, pending := [.busWrite 0x001F#16 0x00000000#32] }
    (∃ t, step s = .next t) ∧ errorFlag s .badCommand = true ∧
      s.pending.head? ≠ some .hwReset ∧
      s.pending.head? ≠ some (.busWrite 0x001F#16 0x0D000000#32) :=
  ⟨⟨_, rfl⟩, rfl, by decide, by decide⟩

theorem witness_UninitializedCommandsAreNoOps :
    (Instr.block 2#4 0#16).wf = true ∧ (Instr.chsample 1#4).wf = true ∧
      (Instr.bqstep .low 1#4).wf = true ∧ State.reset.life = .uninitialized := by decide

/-- nin = 3 is the decoder's, nin = 2 before `PREPARE` the lifecycle's, n = `MAX_BLOCK` + 1 the
size's. -/
theorem witness_BlockErrorPriority :
    ((pend [.busWrite 0x001F#16 (0x05000000#32 ||| ((3#4).setWidth 32 <<< 16) |||
        (1#16).setWidth 32)]).pending = .busWrite 0x001F#16 0x05030001#32 :: [] ∧
      2 < (3#4).toNat) ∧
    ((2#4).toNat ≤ 2 ∧ State.reset.life = .uninitialized) ∧
    ((2#4).toNat ≤ 2 ∧ ready.life ≠ .uninitialized ∧ ready.maxBlock.toNat < (5#16).toNat) := by
  decide

/-- Each side of the `PREPARE` row (the rate just above 24000 Hz and 24000 Hz itself, a block of 4096
and of 4097) and of the `BLOCK` row (n = `MAX_BLOCK`, `MAX_BLOCK` + 1, and before `PREPARE`); a
`RESET` from Active. -/
theorem witness_LifecycleTransitions :
    (Instr.prepare.wf = true ∧ isFinite 0x46BB8001#32 = true ∧
      flt srMinExcl 0x46BB8001#32 = true ∧ (4096#32).toNat ≤ 4096 ∧
      flt srMinExcl 0x46BB8000#32 = false ∧ ¬ (4097#32).toNat ≤ 4096) ∧
    ((Instr.block 2#4 4#16).wf = true ∧ ready.life ≠ .uninitialized ∧
      (4#16).toNat ≤ ready.maxBlock.toNat) ∧
    ((Instr.block 2#4 5#16).wf = true ∧ ¬ (5#16).toNat ≤ ready.maxBlock.toNat) ∧
    State.reset.life = .uninitialized ∧ operands.life = .active := by decide

/-- The new state on each of those sides. -/
theorem test_lifecycle_boundaries :
    let at' (r m : Word) : State := { State.reset with sampleRateIn := r, maxBlockIn := m }
    (after .prepare (at' 0x46BB8001#32 4096#32)).life = .prepared ∧
      (after .prepare (at' 0x46BB8000#32 4096#32)).life = .uninitialized ∧
      (after .prepare (at' 0x46BB8001#32 4097#32)).life = .uninitialized ∧
      (after (.block 2#4 5#16) ready).life = .prepared ∧
      (after (.block 0#4 0#16) ready).life = .active := by
  refine ⟨?_, ?_, ?_, ?_, ?_⟩ <;> rfl

theorem witness_EveryStepKeepsTheInvariant : Inv ready ∧ ∃ t, step ready = .next t :=
  ⟨ready_inv, _, rfl⟩

/-- For the three `Calc…Stages…` statements, both clauses. -/
theorem witness_calculator_valid :
    calcValid operands.opFs operands.opF0 operands.opQ operands.opGain = true ∧
      calcValid halfRate.opFs halfRate.opF0 halfRate.opQ halfRate.opGain = false := by decide

/-- The accepted neighbours of vector K4, all at once. -/
theorem test_K4_accepted :
    calcValid 0x472C4400#32 0x46AC43FF#32 0x00800000#32 0x00800000#32 = true := by decide

/-- The rejected patterns of vector K4, row by row. -/
theorem test_K4_rejected :
    (∀ n ∈ ([0x00000000, 0xC72C4400, 0x7F800000, 0x7FC00000, 0x007FFFFF] : List Nat),
      calcValid (BitVec.ofNat 32 n) 0x43480000#32 one one = false) ∧
    (∀ n ∈ ([0x00000000, 0xC3480000, 0x46AC4400, 0x46EA6000, 0x7F800000, 0x7FC00000,
        0x007FFFFF] : List Nat), calcValid 0x472C4400#32 (BitVec.ofNat 32 n) one one = false) ∧
    (∀ n ∈ ([0x00000000, 0x80000000, 0xBF800000, 0x00400000, 0x7F800000, 0x7FC00000] : List Nat),
      calcValid 0x472C4400#32 0x43480000#32 (BitVec.ofNat 32 n) one = false) ∧
    (∀ n ∈ ([0x00000000, 0xBF800000, 0x00000001, 0x7F800000, 0x7FC00000] : List Nat),
      calcValid 0x472C4400#32 0x43480000#32 one (BitVec.ofNat 32 n) = false) := by
  decide +kernel

/-- Four operands above zero with f0 one pattern below half the rate and at it, and a rate of which
half underflows the normal numbers. -/
theorem witness_CalcValidIsTheNineTests :
    (∀ v : Word, v ∈ [0x472C4400#32, 0x46AC43FF#32, 0x00800000#32, 0x00800000#32] →
      isFinite v = true ∧ signBit v = false ∧ isZero v = false ∧ isSubnormal v = false) ∧
    flt 0x46AC43FF#32 (fmul 0x472C4400#32 half) = true ∧
    flt 0x46AC4400#32 (fmul 0x472C4400#32 half) = false ∧
    (∀ v : Word, v ∈ [0x00FFFFFE#32, 0x00800000#32] →
      isFinite v = true ∧ signBit v = false ∧ isZero v = false ∧ isSubnormal v = false) := by
  refine ⟨?_, by decide, by decide, ?_⟩ <;>
    simp only [List.mem_cons, List.not_mem_nil, or_false, forall_eq_or_imp, forall_eq] <;> decide

/-- A prelude with a cosine that is not a zero and one with cosine -0, and valid operands. -/
theorem witness_UnityAtGainOne :
    let p : Prelude := { A := one, w0 := 0#32, c := 0x3F000000#32, s := 0x3F5DB3D7#32 }
    let z : Prelude := { A := one, w0 := 0#32, c := 0x80000000#32, s := one }
    (isFinite (rawPeak p one).a0 = true ∧ isZero (rawPeak p one).a0 = false) ∧
    (isFinite (rawLowShelf p one).a0 = true ∧ isZero (rawLowShelf p one).a0 = false ∧
      isZero (flush p.c) = false) ∧
    (isFinite (rawHighShelf z one).a0 = true ∧ isZero (rawHighShelf z one).a0 = false ∧
      isZero (flush z.c) = true) ∧
    calcValid 0x472C4400#32 0x43480000#32 one one = true := by
  decide +kernel

/-- For `BqstepComputesOneSample`, `BqresetZeroesOneFilter` and `ChsampleRunsTheChain`. -/
theorem witness_legal_channel : (1#4).toNat < 2 ∧ ready.life ≠ .uninitialized := by decide

theorem witness_NaNPoisonsTheFilter :
    isNaN 0x7F800001#32 = true ∧ isNaN (Delay.mk 0xFFFFFFFF#32 0#32).s1 = true ∧
      isNaN (Delay.mk 0#32 0x7FC00000#32).s2 = true := by decide

/-- The 0 dB peak set of vector K1 at Q 1, from zeros of both signs. -/
theorem witness_UnityFilterPassesSamplesExactly :
    let co : CoefSet :=
      { b0 := one, b1 := 0xBFA9BF1E#32, b2 := 0x3F13388E#32, a1 := 0xBFA9BF1E#32,
        a2 := 0x3F13388E#32 }
    FiniteSet co ∧ feq co.b1 co.a1 = true ∧ feq co.b2 co.a2 = true ∧
      ZeroPair { s1 := 0x80000000#32, s2 := 0x00000000#32 } ∧ isFinite 0x3F000000#32 = true ∧
      isSubnormal 0x3F000000#32 = false ∧ isFinite (fmul co.b1 0x3F000000#32) = true ∧
      isFinite (fmul co.b2 0x3F000000#32) = true := by
  unfold FiniteSet ZeroPair
  decide

/-- The least accepted rate with the greatest accepted block, and one operand each that is
rejected. -/
theorem witness_PrepareAcceptsOrRejects :
    (isFinite 0x46BB8001#32 = true ∧ flt 0x46BB8000#32 0x46BB8001#32 = true ∧
      (4096#32).toNat ≤ 4096) ∧
    isFinite 0x7F800000#32 = false ∧ flt 0x46BB8000#32 0x46BB8000#32 = false ∧
    4096 < (4097#32).toNat := by decide

/-- Before `PREPARE`; a NaN gain and a NaN Q; a cache hit on every band; a first update. -/
theorem witness_UpdateRecomputesOnChange :
    (LifecycleInv State.reset ∧ State.reset.life = .uninitialized) ∧
    (isNaN (liveGain { ready with lowGainDb := 0x7FC00000#32 } .low) = true ∧
      isNaN ({ ready with midQ := 0xFFC00000#32 } : State).midQ = true) ∧
    (LifecycleInv cached ∧ cached.life ≠ .uninitialized ∧ cached.valid.get .mid = true ∧
      cached.lastGain.get .mid = liveGain cached .mid ∧ cached.lastQ = cached.midQ) ∧
    (LifecycleInv ready ∧ ready.life ≠ .uninitialized ∧ isNaN (liveGain ready .mid) = false ∧
      isNaN ready.midQ = false ∧ ¬ ready.valid.get .mid = true) :=
  ⟨⟨⟨fun h => absurd rfl h, fun _ => ⟨rfl, rfl, rfl⟩⟩, rfl⟩, by decide,
    ⟨⟨fun _ => by decide, fun h => absurd h (by decide)⟩, by decide, by decide, by decide,
      by decide⟩,
    ready_lifecycle, by decide, by decide, by decide, by decide⟩

theorem witness_CalculatorNeverRejectsABandUpdate :
    LifecycleInv ready ∧ ready.life ≠ .uninitialized ∧ isNaN 0x7F800000#32 = false ∧
      isNaN 0x80000001#32 = false :=
  ⟨ready_lifecycle, by decide, by decide, by decide⟩

theorem witness_UpdateIsIdempotent :
    LifecycleInv ready ∧ ready.life ≠ .uninitialized ∧ isNaN (liveGain ready .mid) = false ∧
      isNaN ready.midQ = false :=
  ⟨ready_lifecycle, by decide, by decide, by decide⟩

theorem witness_OnlyBandUpdatesMoveTheCache :
    (∀ b, Instr.calcls ≠ .update b) ∧ ∀ m n, Instr.calcls ≠ .block m n := 
  ⟨fun _ => by simp, fun _ _ => by simp⟩

/-- Two states that differ in the other channel only. -/
theorem witness_ChannelsAreIndependent :
    let s : State := { ready with delay := Vector.replicate 2 (PerBand.all Delay.zero) }
    let s' : State := setChanDelay 1 (PerBand.all { s1 := one, s2 := one }) s
    (0#4).toNat < 2 ∧ s.life ≠ .uninitialized ∧ s'.life ≠ .uninitialized ∧ s.coef = s'.coef ∧
      s.opX = s'.opX ∧ chanDelay s 0 = chanDelay s' 0 ∧ chanDelay s 1 ≠ chanDelay s' 1 := by
  decide

theorem witness_SilenceStaysSilent :
    (1#4).toNat < 2 ∧ ready.life ≠ .uninitialized ∧ (∀ b, FiniteSet (ready.coef.get b)) ∧
      (∀ b, ZeroPair ((chanDelay ready 1).get b)) ∧ isZero ready.opX = true := by
  refine ⟨by decide, by decide, fun b => ?_, fun b => ?_, by decide⟩
  · cases b <;> (unfold FiniteSet; decide)
  · cases b <;> (unfold ZeroPair; decide)

theorem witness_SatWritesTheResult :
    State.reset.satEn = false ∧ ({ State.reset with satEn := true } : State).satEn = true := by
  decide

/-- For `SatIsBounded`, `SatIsMonotonic` and `SatIsOdd`. -/
theorem witness_saturation_laws :
    isNaN 0x7F800000#32 = false ∧ fle 0xFF800000#32 0x3F000000#32 = true := by decide

/-- For `BlockTakesTheSnapshotAndKeepsTheRest`, a block of the greatest legal size; for
`BlockFirstSample` that block and one of a single sample. -/
theorem witness_block_accepted :
    (2#4).toNat ≤ 2 ∧ ready.life ≠ .uninitialized ∧ (4#16).toNat ≤ ready.maxBlock.toNat ∧
      1 ≤ (4#16).toNat ∧ (4#16).toNat ≤ 4096 ∧ (0#4).toNat ≤ 2 ∧ 1 ≤ (1#16).toNat ∧
      (1#16).toNat ≤ ready.maxBlock.toNat := by decide

/-- A block of the greatest legal size and an empty one, no parameter a NaN; and a NaN gain. -/
theorem witness_BlockEqualsUnitCommands :
    Inv ready ∧ ready.life ≠ .uninitialized ∧ (4#16).toNat ≤ ready.maxBlock.toNat ∧
      (0#16).toNat ≤ ready.maxBlock.toNat ∧ isNaN ready.lowGainDb = false ∧
      isNaN ready.midGainDb = false ∧ isNaN ready.highGainDb = false ∧ isNaN ready.midQ = false ∧
      isNaN ({ ready with midGainDb := 0x7FC00000#32 } : State).midGainDb = true :=
  ⟨ready_inv, by decide, by decide, by decide, by decide, by decide, by decide, by decide,
    by decide⟩

/-- Ready, the second input sample of channel 0 at index 1. -/
def loaded : State := writeBuf 0 1 0x3F000000#32 ready

theorem loaded_inv : Inv loaded :=
  ⟨⟨fun _ => by decide, fun h => absurd h (by decide)⟩, ⟨fun k => by cases k <;> rfl, rfl⟩,
    memoryInv_writeBuf ready_inv.memory (by decide) (by decide) _⟩

/-- A block of 2 split into 1 and 1 with one input channel: after the first part the host loads the
second sample, 0.5, at index 0 of channel 0. -/
theorem witness_BlockSplitting :
    Inv loaded ∧ loaded.life ≠ .uninitialized ∧ (1#4).toNat ≤ 2 ∧
      (2#16).toNat = (1#16).toNat + (1#16).toNat ∧ (2#16).toNat ≤ loaded.maxBlock.toNat ∧
      readBuf loaded 0 1 = 0x3F000000#32 ∧
      ∃ t1 v, exec (.block 1#4 1#16) loaded = .next t1 ∧ v = writeBuf 0 0 0x3F000000#32 t1 ∧
        v = { t1 with buf := v.buf, pending := v.pending, readData := v.readData } ∧
        ∀ c j, c < (1#4).toNat → j < (1#16).toNat →
          readBuf v c j = readBuf loaded c ((1#16).toNat + j) := by
  have hread : readBuf loaded 0 1 = 0x3F000000#32 := readBuf_writeBuf_same 0 1 _ _
  refine ⟨loaded_inv, by decide, by decide, by decide, by decide, hread, _, _, rfl, rfl, rfl, ?_⟩
  intro c j hc hj
  obtain rfl : c = 0 := Nat.lt_one_iff.1 hc
  obtain rfl : j = 0 := Nat.lt_one_iff.1 hj
  exact (readBuf_writeBuf_same 0 0 _ _).trans hread.symm

theorem witness_ChannelOrderIsImmaterial : 4096 ≤ 4096 ∧ MemoryInv ready :=
  ⟨Nat.le_refl _, ready_inv.memory⟩

theorem witness_NaNResultsAreCanonical :
    isNaN 0x7F800001#32 = true ∧
    (isInf 0x7F800000#32 = true ∧ isInf 0xFF800000#32 = true ∧
      signBit 0x7F800000#32 ≠ signBit 0xFF800000#32) ∧
    (isZero (flush 0x00000001#32) = true ∧ isZero (flush 0x807FFFFF#32) = true) ∧
    (signBit 0xBF800000#32 = true ∧ isZero (flush 0xBF800000#32) = false) := by decide

/-- For `ExactQuotientsAndProducts`: the greatest number whose double is finite and the least whose is
not, a zero, and the least number whose half is not subnormal. -/
theorem witness_ExactQuotientsAndProducts :
    (∀ n ∈ ([0x7EFFFFFF, 0x7F000000, 0x80000000, 0x01000000] : List Nat),
      isFinite (BitVec.ofNat 32 n) = true ∧ isSubnormal (BitVec.ofNat 32 n) = false) ∧
    (expField 0x7EFFFFFF#32).toNat < 254 ∧ (expField 0x7F000000#32).toNat = 254 ∧
    isZero 0x80000000#32 = true ∧ 1 < (expField 0x01000000#32).toNat := by decide

/-- The products at those numbers. -/
theorem test_double_and_half :
    fmul two 0x7EFFFFFF#32 = 0x7F7FFFFF#32 ∧ fmul two 0xFF000000#32 = 0xFF800000#32 ∧
      fmul half 0x01000000#32 = 0x00800000#32 := by decide

/-- For `ExactQuotientsAndProducts` and `AdditionLaws`. -/
theorem witness_exact_operands :
    isFinite 0x00800000#32 = true ∧ isSubnormal 0x00800000#32 = false ∧
      isZero 0x00800000#32 = false ∧ isZero 0x80000000#32 = true := by decide

/-- The complex numbers with A = 2 and w0 = π/2 for the peak's values; g = 4 and w0 = 1 for the
magnitudes. -/
theorem witness_IdealGainsOfTheThreeDesigns :
    ((2 : ℂ) ≠ 0 ∧ (2 : ℂ) * 2 = 4 ∧ (0 : ℂ) * 0 + 1 * 1 = 1 ∧ Complex.I * Complex.I = -1) ∧
    (0 : ℝ) < 4 ∧ (0 : ℝ) < 1 ∧ (1 : ℝ) < Real.pi ∧ (0 : ℝ) < 1 / 2 := by
  refine ⟨⟨by norm_num, by norm_num, by norm_num, Complex.I_mul_I⟩, by norm_num, by norm_num, ?_,
    by norm_num⟩
  linarith [Real.pi_gt_three]

/-- For the stability any ordered field with A = 2, c = 1/2, x = 3; for the chain the scenario of
R188 itself, whose rate and gains meet both clauses. -/
theorem witness_IdealDesignsAreStableAndTheChainSettles :
    ((0 : ℚ) < 2 ∧ (-1 : ℚ) < 1 / 2 ∧ (1 / 2 : ℚ) < 1 ∧ (0 : ℚ) < 3) ∧
    (24000 : ℝ) < 44100 ∧ (0 : ℝ) < 10 ^ ((6 : ℝ) / 20) ∧ (0 : ℝ) < 10 ^ ((0 : ℝ) / 20) ∧
      (0 : ℝ) < 10 ^ ((-6 : ℝ) / 20) ∧ (0 : ℝ) < 1 :=
  ⟨by norm_num, by norm_num, Real.rpow_pos_of_pos (by norm_num) _,
    Real.rpow_pos_of_pos (by norm_num) _, Real.rpow_pos_of_pos (by norm_num) _, one_pos⟩

theorem witness_IdealBoostCutSymmetry : (2 : ℚ) ≠ 0 := by norm_num

end Sys2Proof.Tests
end

/-! # The state, the address map and the invariant (10_state.md)

The lemmas stand before the statements they serve: steps and commands, the address map, the sample
path of one channel, the invariant kept operation by operation. -/

/-! ## Steps and commands (R27, R51, R68) -/

section
namespace Sys2Proof.Machine

theorem step_of_pending {s : State} {e : HostEvent} {rest : List HostEvent}
    (h : s.pending = e :: rest) : step s = hostEvent e { s with pending := rest } := by
  simp only [step, stepOnce, h]

theorem step_of_idle {s : State} (h : s.pending = []) : step s = .next s := by
  simp only [step, stepOnce, h]

@[simp] theorem hostEvent_cmd (w : Word) (s : State) :
    hostEvent (.busWrite cmdAddr w) s = runCommand w s := by
  simp only [hostEvent, if_true]

theorem hostEvent_busWrite_of_ne {a : Addr} (h : a ≠ cmdAddr) (v : Word) (s : State) :
    hostEvent (.busWrite a v) s = .next (memWrite a v s) := if_neg h

theorem runCommand_of_decode {w : Word} {i : Instr} (h : decode w = .ok i) (s : State) :
    runCommand w s = exec i s := by
  simp only [runCommand, h]

theorem runCommand_of_error {w : Word} {e : DecodeError} (h : decode w = .error e) (s : State) :
    runCommand w s = .next (raiseError .badCommand w s) := by
  simp only [runCommand, h]

/-- A command placed as the next event is run by the next step, on the state it was placed in. -/
theorem step_placeCommand (w : Word) (s : State) : step (placeCommand w s) = runCommand w s :=
  (step_of_pending rfl).trans (hostEvent_cmd w s)

theorem withFetchWord_toNat (w : Word) (s : State) :
    s.withFetchWord 32 w.toNat = placeCommand w s := by
  rw [State.withFetchWord, Nat.mod_eq_of_lt w.isLt, BitVec.ofNat_toNat, BitVec.setWidth_eq]

/-- Settles O5: the next event decides the step, and placing a word makes its write the next
event. -/
theorem stepRunsTheDecodedCommand : Obligations.StepRunsTheDecodedCommand := by
  intro w i s hdec
  refine ⟨fun rest hpend => ?_, ?_⟩
  · rw [step_of_pending hpend, ← runCommand_of_decode hdec]
    exact hostEvent_cmd w _
  · rw [withFetchWord_toNat, step_placeCommand, runCommand_of_decode hdec]

end Sys2Proof.Machine
end

/-! ## The address map (R32, R41) -/

section
namespace Sys2Proof.Machine

/-- What it means that the map is right about a location at an address. -/
def StandsAt (r : Reg) (a : Nat) : Prop := r.present = true ∧ regAddr r = a

theorem bandOfNat_eq_some_iff {k : Nat} {b : Band} : bandOfNat k = some b ↔ k = bandNum b := by
  constructor
  · intro h
    unfold bandOfNat at h
    split at h <;> cases h <;> rfl
  · rintro rfl
    cases b <;> rfl

/-! Each table of the map, read at an offset, finds a location that stands at that offset. -/

theorem standsAt_of_fixedReg {a : Nat} {r : Reg} (h : fixedReg a = some r) : StandsAt r a := by
  unfold fixedReg at h
  split at h <;> cases h <;> exact ⟨rfl, rfl⟩

theorem standsAt_of_bandReg {b : Band} {k : Nat} {r : Reg} (h : bandReg b k = some r) :
    StandsAt r (0x20 + 8 * bandNum b + k) := by
  unfold bandReg at h
  split at h
  case h_7 =>
    split at h
    next hb => subst hb; cases h; exact ⟨rfl, rfl⟩
    next => cases h
  all_goals cases h <;> exact ⟨rfl, by cases b <;> rfl⟩

theorem standsAt_of_snapReg {k : Nat} {r : Reg} (h : snapReg k = some r) :
    StandsAt r (0x38 + k) := by
  unfold snapReg at h
  split at h <;> cases h <;> exact ⟨rfl, rfl⟩

theorem standsAt_of_delayReg {ch k : Nat} {r : Reg} (hch : ch < Config.nch)
    (h : delayReg ch k = some r) : StandsAt r (0x40 + 8 * ch + k) := by
  unfold delayReg at h
  split at h
  next b hb =>
    have hk : k / 2 = bandNum b := bandOfNat_eq_some_iff.1 hb
    cases h
    refine ⟨decide_eq_true hch, ?_⟩
    by_cases hodd : k % 2 = 0 <;> simp only [regAddr, hodd, if_true, if_false, DelayField.num] <;>
      omega
  next => cases h

/-- What the map finds at an address exists and has that address. -/
theorem standsAt_of_regAt {a : Nat} {r : Reg} (h : regAt a = some r) : StandsAt r a := by
  unfold regAt at h
  split_ifs at h with hfixed hband hsnap hdelay hgap hbuf
  · exact standsAt_of_fixedReg h
  · split at h
    next b hb =>
      have hnum := bandOfNat_eq_some_iff.1 hb
      obtain ⟨hpres, haddr⟩ := standsAt_of_bandReg h
      exact ⟨hpres, by omega⟩
    next => cases h
  · obtain ⟨hpres, haddr⟩ := standsAt_of_snapReg h
    exact ⟨hpres, by omega⟩
  · obtain ⟨hpres, haddr⟩ := standsAt_of_delayReg (by omega) h
    exact ⟨hpres, by omega⟩
  · obtain ⟨hch, hi⟩ := hbuf
    cases h
    refine ⟨by simp only [Reg.present, hch, hi, decide_true, Bool.and_self], ?_⟩
    simp only [regAddr, bufAddr]
    omega

theorem present_delay_iff {ch : Nat} {b : Band} {f : DelayField} :
    (Reg.delay ch b f).present = true ↔ ch < Config.nch := decide_eq_true_iff

theorem present_buf_iff {ch i : Nat} :
    (Reg.buf ch i).present = true ↔ ch < Config.nch ∧ i < Config.bufDepth := by
  simp only [Reg.present, Bool.and_eq_true, decide_eq_true_eq]

theorem regAt_regAddr_delay {ch : Nat} (hch : ch < 2) (b : Band) (f : DelayField) :
    regAt (regAddr (.delay ch b f)) = some (.delay ch b f) := by
  obtain rfl | rfl : ch = 0 ∨ ch = 1 := by omega
  all_goals cases b <;> cases f <;> rfl

theorem regAt_regAddr_buf {ch i : Nat} (hch : ch < 2) (hi : i < 0x1000) :
    regAt (regAddr (.buf ch i)) = some (.buf ch i) := by
  have hquot : bufAddr ch i / 0x1000 - 1 = ch := by unfold bufAddr; omega
  have hrem : bufAddr ch i % 0x1000 = i := by unfold bufAddr; omega
  rw [regAddr, regAt_buf (by unfold bufAddr; omega) (by unfold bufAddr; omega), hquot, hrem]

/-- The map finds every location that exists at its own address. -/
theorem regAt_regAddr {r : Reg} (h : r.present = true) : regAt (regAddr r) = some r := by
  cases r with
  | delay ch b f => exact regAt_regAddr_delay (present_delay_iff.1 h) b f
  | buf ch i =>
    obtain ⟨hch, hi⟩ := present_buf_iff.1 h
    exact regAt_regAddr_buf hch hi
  | cs f => cases f <;> rfl
  | coef b f => cases b <;> cases f <;> rfl
  | lastGain b => cases b <;> rfl
  | valid b => cases b <;> rfl
  | _ => rfl

/-- No location lies beyond the map's end, 0x2FFF. -/
theorem lt_of_regAt {a : Nat} {r : Reg} (h : regAt a = some r) : a < 0x3000 := by
  by_contra hge
  unfold regAt at h
  rw [if_neg (by omega), if_neg (by omega), if_neg (by omega),
    if_neg (by simp only [Config.nch]; omega), if_neg (by omega),
    if_neg (by simp only [Config.nch]; omega)] at h
  cases h

/-- Settles O8. -/
theorem addressMapIsOneToOne : Obligations.AddressMapIsOneToOne := by
  refine ⟨fun r hpres => ?_, fun a r hfound => standsAt_of_regAt hfound⟩
  have hfound := regAt_regAddr hpres
  exact ⟨(lt_of_regAt hfound).trans (by decide), hfound⟩

end Sys2Proof.Machine
end

/-! ## The sample path of one channel (R29, R147, R148) -/

section
namespace Sys2Proof.Machine

theorem chLegal_iff {ch : BitVec 4} : chLegal ch = true ↔ ch.toNat < Config.nch :=
  decide_eq_true_iff

theorem exec_chsample_of_legal {ch : BitVec 4} (hch : ch.toNat < Config.nch) {s : State}
    (hlife : s.life ≠ .uninitialized) :
    exec (.chsample ch) s = .next (sampleChannel ch.toNat s) := by
  simp only [exec, execChsample, chLegal_iff.2 hch, Bool.true_eq_false, if_false, if_neg hlife]

@[simp] theorem sampleChannel_resY (ch : Nat) (s : State) :
    (sampleChannel ch s).resY = (chainStep s.coef (chanDelay s ch) s.opX).1 := rfl

theorem chanDelay_sampleChannel_same {ch : Nat} (hch : ch < Config.nch) (s : State) :
    chanDelay (sampleChannel ch s) ch = (chainStep s.coef (chanDelay s ch) s.opX).2 :=
  chanDelay_setChanDelay_same hch _ s

/-- Settles O40: the output and the channel's new delays are `chainStep` of the coefficients, the
channel's delays and the sample. -/
theorem channelsAreIndependent : Obligations.ChannelsAreIndependent := by
  intro ch s s' hch hlife hlife' hcoef hx hdelay
  refine ⟨_, _, exec_chsample_of_legal hch hlife, exec_chsample_of_legal hch hlife', ?_, ?_⟩
  · simp only [sampleChannel_resY, hcoef, hx, hdelay]
  · simp only [chanDelay_sampleChannel_same hch, hcoef, hx, hdelay]

end Sys2Proof.Machine
end

/-! ## The invariant, operation by operation (R14, R204, R205, R234)

An operation that writes no field of a part of the invariant keeps that part as it is: the part of
the new state then is, by definition, the part of the old one. -/

section
namespace Sys2Proof.Safety
open Sys2Proof.Machine

variable {s : State}

theorem errorFlag_raiseError_self (k : ErrorKind) (w : Word) (s : State) :
    errorFlag (raiseError k w s) k = true := by
  cases k <;> rfl

/-- Error entry makes the record agree with itself, whatever was recorded before (R205). -/
theorem errorInv_raiseError (k : ErrorKind) (w : Word) (s : State) :
    ErrorInv (raiseError k w s) :=
  errorFlag_raiseError_self k w s

theorem errorInv_acknowledgeErrors (s : State) : ErrorInv (acknowledgeErrors s) :=
  ⟨fun k => by cases k <;> rfl, rfl⟩

/-- The lifecycle part looks at four fields alone. -/
theorem lifecycleInv_congr {t : State} (hlife : t.life = s.life) (hfs : t.fs = s.fs)
    (hmax : t.maxBlock = s.maxBlock) (hvalid : t.valid = s.valid) :
    LifecycleInv t ↔ LifecycleInv s := by
  rw [LifecycleInv, LifecycleInv, hlife, hfs, hmax, hvalid]

/-- Once prepared, the lifecycle part does not look at `VALID`. -/
theorem lifecycleInv_of_initialized {t : State} (h : LifecycleInv s)
    (hs : s.life ≠ .uninitialized) (ht : t.life ≠ .uninitialized) (hfs : t.fs = s.fs)
    (hmax : t.maxBlock = s.maxBlock) : LifecycleInv t := by
  refine ⟨fun _ => ?_, fun hu => absurd hu ht⟩
  rw [hfs, hmax]
  exact h.1 hs

theorem lifecycleInv_applyPrepare (h : prepareAccepts s = true) :
    LifecycleInv (applyPrepare s) := by
  simp only [prepareAccepts, Bool.and_eq_true, decide_eq_true_eq] at h
  obtain ⟨⟨hfinite, habove⟩, hmax⟩ := h
  exact ⟨fun _ => ⟨hfinite, habove, hmax⟩, fun hu => nomatch hu⟩

/-! ### Shared operations -/

theorem inv_raiseError (h : Inv s) (k : ErrorKind) (w : Word) : Inv (raiseError k w s) where
  lifecycle := (lifecycleInv_congr (by simp) (by simp) (by simp) (by simp)).2 h.lifecycle
  errors := errorInv_raiseError k w s
  memory := by
    rw [MemoryInv, raiseError_buf]
    exact h.memory

theorem inv_acknowledgeErrors (h : Inv s) : Inv (acknowledgeErrors s) :=
  ⟨h.lifecycle, errorInv_acknowledgeErrors s, h.memory⟩

theorem inv_countInvocation (h : Inv s) : Inv (countInvocation s) :=
  ⟨h.lifecycle, h.errors, h.memory⟩

theorem inv_setDelay (h : Inv s) (ch : Nat) (b : Band) (d : Delay) : Inv (setDelay ch b d s) :=
  ⟨h.lifecycle, h.errors, h.memory⟩

theorem inv_setChanDelay (h : Inv s) (ch : Nat) (d : PerBand Delay) : Inv (setChanDelay ch d s) :=
  ⟨h.lifecycle, h.errors, h.memory⟩

theorem inv_zeroDelays (h : Inv s) : Inv (zeroDelays s) :=
  ⟨h.lifecycle, h.errors, h.memory⟩

theorem inv_takeSnapshot (h : Inv s) : Inv (takeSnapshot s) :=
  ⟨h.lifecycle, h.errors, h.memory⟩

theorem inv_writeBuf (h : Inv s) {c i : Nat} (hc : c < Config.nch) (hi : i < Config.bufDepth)
    (v : Word) : Inv (writeBuf c i v s) :=
  ⟨h.lifecycle, h.errors, memoryInv_writeBuf h.memory hc hi v⟩

theorem inv_setPending (h : Inv s) (es : List HostEvent) : Inv { s with pending := es } :=
  ⟨h.lifecycle, h.errors, h.memory⟩

theorem inv_setResY (h : Inv s) (v : Word) : Inv { s with resY := v } :=
  ⟨h.lifecycle, h.errors, h.memory⟩

/-- The lifecycle moves between Prepared and Active, or stays. -/
theorem inv_setLife (h : Inv s) {l : Life} (hl : l = .uninitialized ↔ s.life = .uninitialized) :
    Inv { s with life := l } :=
  ⟨⟨fun hi => h.lifecycle.1 (mt hl.2 hi), fun hu => h.lifecycle.2 (hl.1 hu)⟩, h.errors, h.memory⟩

theorem inv_setActive (h : Inv s) (hlife : s.life ≠ .uninitialized) :
    Inv { s with life := .active } :=
  inv_setLife h ⟨(nomatch ·), fun hu => absurd hu hlife⟩

theorem inv_applyPrepare (h : Inv s) (ha : prepareAccepts s = true) : Inv (applyPrepare s) :=
  ⟨lifecycleInv_applyPrepare ha, h.errors, h.memory⟩

theorem inv_hardwareReset (s : State) : Inv (hardwareReset s) where
  lifecycle := ⟨fun hi => absurd rfl hi, fun _ => ⟨rfl, rfl, rfl⟩⟩
  errors := ⟨fun k => by cases k <;> rfl, rfl⟩
  memory := ⟨List.Pairwise.nil, fun _ hx => nomatch hx⟩

/-! ### Bands, samples and blocks -/

theorem inv_applyBand (h : Inv s) (hlife : s.life ≠ .uninitialized) (b : Band) (g q : Word)
    (r : CoefSet) : Inv (applyBand b g q r s) :=
  ⟨lifecycleInv_of_initialized h.lifecycle hlife hlife rfl rfl, h.errors, h.memory⟩

theorem inv_finishCalc (h : Inv s) (w : Word) (r : Option CoefSet) : Inv (finishCalc w r s) := by
  rcases finishCalc_cases w r s with ⟨_, hrejected⟩ | ⟨c, _, hstaged⟩
  · rw [hrejected]
    exact inv_raiseError (inv_countInvocation h) _ _
  · rw [hstaged]
    exact ⟨h.lifecycle, h.errors, h.memory⟩

@[simp] theorem updateBand_life (b : Band) (g q w : Word) (s : State) :
    (updateBand b g q w s).life = s.life := by
  rw [updateBand_frame]

theorem inv_updateBand (h : Inv s) (hlife : s.life ≠ .uninitialized) (b : Band) (g q w : Word) :
    Inv (updateBand b g q w s) := by
  rcases updateBand_cases b g q w s with ⟨_, hnan⟩ | ⟨_, _, hhit⟩ | ⟨_, _, _, hrejected⟩ |
    ⟨r, _, _, _, hset⟩
  · rw [hnan]
    exact inv_raiseError h _ _
  · rwa [hhit]
  · rw [hrejected]
    exact inv_raiseError (inv_countInvocation h) _ _
  · rw [hset]
    exact inv_applyBand (inv_countInvocation h) hlife b g q r

@[simp] theorem updateBands_life (w : Word) (s : State) : (updateBands w s).life = s.life := by
  simp only [updateBands, updateBand_life]

theorem inv_updateBands (h : Inv s) (hlife : s.life ≠ .uninitialized) (w : Word) :
    Inv (updateBands w s) := by
  have hlow := inv_updateBand h hlife .low s.snapLowGain s.snapMidQ w
  have hmid := inv_updateBand hlow (by simpa using hlife) .mid s.snapMidGain s.snapMidQ w
  exact inv_updateBand hmid (by simpa using hlife) .high s.snapHighGain s.snapMidQ w

theorem inv_sampleChannel (h : Inv s) (hlife : s.life ≠ .uninitialized) (ch : Nat) :
    Inv (sampleChannel ch s) :=
  ⟨lifecycleInv_of_initialized h.lifecycle hlife (nomatch ·) rfl rfl, h.errors, h.memory⟩

theorem inv_stepFilter (h : Inv s) (b : Band) (ch : Nat) : Inv (stepFilter b ch s) :=
  inv_setResY (inv_setDelay h ch b _) _

theorem inv_zeroFill (h : Inv s) {c n : Nat} (hc : c < Config.nch) (hn : n ≤ Config.bufDepth) :
    Inv (zeroFill c n s) := by
  induction n with
  | zero => exact h
  | succ i ih => exact inv_writeBuf (ih (Nat.le_of_succ_le hn)) hc hn posZero

theorem inv_zeroFillFrom (h : Inv s) {n c k : Nat} (hk : c + k ≤ Config.nch)
    (hn : n ≤ Config.bufDepth) : Inv (zeroFillFrom n c k s) := by
  induction k generalizing c s with
  | zero => exact h
  | succ k ih => exact ih (inv_zeroFill h (by omega) hn) (by omega)

theorem inv_blockSample (h : Inv s) {c i : Nat} (hc : c < Config.nch)
    (hi : i < Config.bufDepth) : Inv (blockSample c i s) :=
  inv_writeBuf (inv_setChanDelay h c _) hc hi _

theorem inv_blockChannel (h : Inv s) {c n : Nat} (hc : c < Config.nch)
    (hn : n ≤ Config.bufDepth) : Inv (blockChannel c n s) := by
  induction n with
  | zero => exact h
  | succ i ih => exact inv_blockSample (ih (Nat.le_of_succ_le hn)) hc hn

theorem inv_blockChannels (h : Inv s) {n k : Nat} (hk : k ≤ Config.nch)
    (hn : n ≤ Config.bufDepth) : Inv (blockChannels n k s) := by
  induction k with
  | zero => exact h
  | succ c ih => exact inv_blockChannel (ih (Nat.le_of_succ_le hk)) hk hn

@[simp] theorem zeroFillFrom_life (n c k : Nat) (s : State) :
    (zeroFillFrom n c k s).life = s.life := by
  rw [zeroFillFrom_frame]

@[simp] theorem blockChannels_life (n k : Nat) (s : State) :
    (blockChannels n k s).life = s.life := by
  rw [blockChannels_frame]

theorem inv_processBlock (h : Inv s) (hlife : s.life ≠ .uninitialized) {nin n : Nat}
    (hnin : nin ≤ Config.nch) (hn : n ≤ Config.bufDepth) (w : Word) :
    Inv (processBlock nin n w s) := by
  have hfill := inv_zeroFillFrom (inv_takeSnapshot h)
    (show nin + (Config.nch - nin) ≤ Config.nch by omega) hn
  have hbands := inv_updateBands hfill (by simpa using hlife) w
  exact inv_setActive (inv_blockChannels hbands le_rfl hn) (by simpa using hlife)

/-! ### Commands -/

/-- The state that an outcome goes on to, if any, meets the invariant. -/
def NextInv (o : Host.Outcome State Fault Refusal) : Prop := ∀ t, o = .next t → Inv t

@[simp] theorem nextInv_next {t : State} : NextInv (.next t) ↔ Inv t :=
  ⟨fun h => h t rfl, fun h _ e => Host.Outcome.next.inj e ▸ h⟩

theorem nextInv_execPrepare (h : Inv s) : NextInv (execPrepare s) := by
  unfold execPrepare
  split
  next ha => exact nextInv_next.2 (inv_applyPrepare h ha)
  next => exact nextInv_next.2 (inv_raiseError h _ _)

theorem nextInv_execReset (h : Inv s) : NextInv (execReset s) := by
  refine nextInv_next.2 (inv_setLife (inv_zeroDelays h) ?_)
  by_cases ha : s.life = .active <;> simp [ha]

theorem nextInv_execUpdate (h : Inv s) (b : Band) : NextInv (execUpdate b s) := by
  unfold execUpdate
  split
  next => exact nextInv_next.2 (inv_raiseError h _ _)
  next hlife => exact nextInv_next.2 (inv_updateBand h hlife _ _ _ _)

theorem nextInv_execChsample (h : Inv s) (ch : BitVec 4) : NextInv (execChsample ch s) := by
  unfold execChsample
  split_ifs with _ hlife
  · exact nextInv_next.2 (inv_raiseError h _ _)
  · exact nextInv_next.2 (inv_raiseError h _ _)
  · exact nextInv_next.2 (inv_sampleChannel h hlife _)

/-- The block size test of R176 keeps the block inside the buffer, by the bound on `MAX_BLOCK`. -/
theorem nextInv_execBlock (h : Inv s) (nin : BitVec 4) (n : BitVec 16) :
    NextInv (execBlock nin n s) := by
  unfold execBlock
  split_ifs with hnin hlife hsize
  · exact nextInv_next.2 (inv_raiseError h _ _)
  · exact nextInv_next.2 (inv_raiseError h _ _)
  · exact nextInv_next.2 (inv_raiseError h _ _)
  · obtain ⟨_, _, hmax⟩ := h.lifecycle.1 hlife
    have hnin' : nin.toNat ≤ Config.nch := by simpa [ninLegal] using hnin
    exact nextInv_next.2 (inv_processBlock h hlife hnin' (by omega) _)

theorem nextInv_execBqstep (h : Inv s) (b : Band) (ch : BitVec 4) :
    NextInv (execBqstep b ch s) := by
  unfold execBqstep
  split
  next => exact nextInv_next.2 (inv_stepFilter h _ _)
  next => exact nextInv_next.2 (inv_raiseError h _ _)

theorem nextInv_execBqreset (h : Inv s) (b : Band) (ch : BitVec 4) :
    NextInv (execBqreset b ch s) := by
  unfold execBqreset
  split
  next => exact nextInv_next.2 (inv_setDelay h _ _ _)
  next => exact nextInv_next.2 (inv_raiseError h _ _)

theorem nextInv_execLdcoef (h : Inv s) (b : Band) : NextInv (execLdcoef b s) :=
  nextInv_next.2 ⟨h.lifecycle, h.errors, h.memory⟩

/-- Every command keeps the invariant. -/
theorem nextInv_exec (h : Inv s) (i : Instr) : NextInv (exec i s) := by
  cases i with
  | nop => exact nextInv_next.2 h
  | prepare => exact nextInv_execPrepare h
  | reset => exact nextInv_execReset h
  | update b => exact nextInv_execUpdate h b
  | chsample ch => exact nextInv_execChsample h ch
  | block nin n => exact nextInv_execBlock h nin n
  | bqstep b ch => exact nextInv_execBqstep h b ch
  | bqreset b ch => exact nextInv_execBqreset h b ch
  | ldcoef b => exact nextInv_execLdcoef h b
  | calcls => exact nextInv_next.2 (inv_finishCalc h _ _)
  | calchs => exact nextInv_next.2 (inv_finishCalc h _ _)
  | calcpk => exact nextInv_next.2 (inv_finishCalc h _ _)
  | sat => exact nextInv_next.2 (inv_setResY h _)
  | clrerr => exact nextInv_next.2 (inv_acknowledgeErrors h)

/-! ### Host events -/

/-- A bus write reaches no field of the invariant but the buffer, and the buffer at an address that
exists. -/
theorem inv_writeReg (h : Inv s) {r : Reg} (hpres : r.present = true) (v : Word) :
    Inv (writeReg r v s) := by
  cases r with
  | buf ch i =>
    obtain ⟨hch, hi⟩ := present_buf_iff.1 hpres
    exact inv_writeBuf h hch hi v
  | _ => exact ⟨h.lifecycle, h.errors, h.memory⟩

theorem inv_memWrite (h : Inv s) (a : Addr) (v : Word) : Inv (memWrite a v s) := by
  unfold memWrite
  split
  next r hfound => exact inv_writeReg h (standsAt_of_regAt hfound).1 v
  next => exact h

theorem nextInv_runCommand (h : Inv s) (w : Word) : NextInv (runCommand w s) := by
  cases hdec : decode w with
  | ok i =>
    rw [runCommand_of_decode hdec]
    exact nextInv_exec h i
  | error e =>
    rw [runCommand_of_error hdec]
    exact nextInv_next.2 (inv_raiseError h _ _)

theorem nextInv_hostEvent (h : Inv s) (e : HostEvent) : NextInv (hostEvent e s) := by
  cases e with
  | busRead a => exact nextInv_next.2 ⟨h.lifecycle, h.errors, h.memory⟩
  | busWrite a v =>
    by_cases hcmd : a = cmdAddr
    · rw [hcmd, hostEvent_cmd]
      exact nextInv_runCommand h v
    · rw [hostEvent_busWrite_of_ne hcmd]
      exact nextInv_next.2 (inv_memWrite h a v)
  | hwReset => exact nextInv_next.2 (inv_hardwareReset s)

theorem nextInv_step (h : Inv s) : NextInv (step s) := by
  cases hpend : s.pending with
  | nil =>
    rw [step_of_idle hpend]
    exact nextInv_next.2 h
  | cons e rest =>
    rw [step_of_pending hpend]
    exact nextInv_hostEvent (inv_setPending h rest) e

end Sys2Proof.Safety

namespace Sys2Proof.Safety
open Sys2Proof.Machine

/-- Settles O22: an idle step holds the state, and each host event keeps each part of the
invariant. -/
theorem everyStepKeepsTheInvariant : Obligations.EveryStepKeepsTheInvariant :=
  fun _ t h hstep => nextInv_step h t hstep

end Sys2Proof.Safety
end

/-! # The host bus (20_memory.md)

A bus address is turned into the location that stands there, and the read and the write of a
location are said once; the statements about addresses follow. -/

/-! ## Locations: what a read returns and what a write does (R44, R46) -/

section
namespace Sys2Proof.Machine

@[simp] theorem CoefSet.get_set (c : CoefSet) (f f' : CoefField) (v : Word) :
    (c.set f v).get f' = if f' = f then v else c.get f' := by
  cases f <;> cases f' <;> rfl

theorem bitWord_and_not_one (b : Bool) : bitWord b &&& ~~~1#32 = 0#32 := by
  cases b <;> rfl

/-- A one-bit register takes bit 0 of the word written (R44). -/
theorem bitWord_getLsbD_zero (v : Word) : bitWord (v.getLsbD 0) = v &&& 1#32 :=
  BitVec.and_one_eq_setWidth_ofBool_getLsbD.symm

theorem statusWord_unimplemented (s : State) : statusWord s &&& ~~~0x00000703#32 = 0#32 := by
  unfold statusWord
  cases s.life <;> cases s.eBadCmd <;> cases s.eUninit <;> cases s.eInvParam <;> rfl

theorem errCauseWord_unimplemented (c : Option ErrorKind) :
    errCauseWord c &&& ~~~3#32 = 0#32 := by
  cases c with
  | none => rfl
  | some k => cases k <;> rfl

/-- Settles O11: a location of 32 bits has no other bits; the narrow ones are taken one by one. -/
theorem unimplementedBitsReadZero : Obligations.UnimplementedBitsReadZero := by
  intro s r
  have hfull (v : Word) : v &&& ~~~0xFFFFFFFF#32 = 0#32 := BitVec.and_zero
  cases r with
  | satEn => exact bitWord_and_not_one _
  | valid b => exact bitWord_and_not_one _
  | snapSat => exact bitWord_and_not_one _
  | status => exact statusWord_unimplemented s
  | errCause => exact errCauseWord_unimplemented _
  | cmd => exact BitVec.zero_and
  | _ => exact hfull _

/-- No location shows the host's side of the bus: neither the events to come nor the values read. -/
theorem readReg_setHost (s : State) (r : Reg) (es : List HostEvent) (vs : List Word) :
    readReg { s with pending := es, readData := vs } r = readReg s r := by
  cases r <;> rfl

theorem writeReg_of_readOnly {r : Reg} (h : r.hostWritable = false) (v : Word) (s : State) :
    writeReg r v s = s := by
  cases r with
  | lowGainDb | midGainDb | highGainDb | midQ | satEn | sampleRateIn | maxBlockIn | opFs | opF0
  | opQ | opGain | opX | cs _ | buf _ _ => cases h
  | _ => rfl

theorem writeReg_pending (r : Reg) (v : Word) (s : State) :
    (writeReg r v s).pending = s.pending := by
  cases r <;> rfl

/-- A host-writable location reads back the bits written to it that exist (R44, R46). -/
theorem readReg_writeReg_same {r : Reg} (h : r.hostWritable = true) (v : Word) (s : State) :
    readReg (writeReg r v s) r = v &&& r.implementedBits := by
  have hfull : v &&& 0xFFFFFFFF#32 = v := BitVec.and_allOnes
  cases r with
  | satEn => exact bitWord_getLsbD_zero v
  | cs f => exact ((CoefSet.get_set _ f f v).trans (if_pos rfl)).trans hfull.symm
  | buf ch i => exact (readBuf_writeBuf_same ch i v s).trans hfull.symm
  | lowGainDb | midGainDb | highGainDb | midQ | sampleRateIn | maxBlockIn | opFs | opF0 | opQ
  | opGain | opX => exact hfull.symm
  | _ => cases h

/-- A write to one location leaves every other one as it was (R46). A register of its own is one
field of the state, which no other location shows; a coefficient is told apart by its place in the
set, a buffer word by its channel and index. -/
theorem readReg_writeReg_other {r r' : Reg} (hpres : r.present = true) (hpres' : r'.present = true)
    (hne : r' ≠ r) (v : Word) (s : State) : readReg (writeReg r v s) r' = readReg s r' := by
  cases hw : r.hostWritable with
  | false => rw [writeReg_of_readOnly hw]
  | true =>
    cases r with
    | cs f =>
      cases r' with
      | cs f' =>
        have hf : f' ≠ f := fun hf => hne (congrArg Reg.cs hf)
        exact (CoefSet.get_set _ f f' v).trans (if_neg hf)
      | _ => rfl
    | buf ch i =>
      cases r' with
      | buf ch' i' =>
        obtain ⟨_, hi⟩ := present_buf_iff.1 hpres
        obtain ⟨_, hi'⟩ := present_buf_iff.1 hpres'
        exact readBuf_writeBuf_other hi hi' (fun ⟨hc, hk⟩ => hne (hc ▸ hk ▸ rfl)) v s
      | _ => rfl
    | lowGainDb | midGainDb | highGainDb | midQ | satEn | sampleRateIn | maxBlockIn | opFs | opF0
    | opQ | opGain | opX => cases r' <;> first | rfl | exact absurd rfl hne
    | _ => cases hw

end Sys2Proof.Machine
end

/-! ## Addresses: the bus read and the bus write (R43, R45, R46) -/

section
namespace Sys2Proof.Machine
open Sys2Proof.Safety

theorem regAt_of_standsAt {r : Reg} {a : Nat} (h : StandsAt r a) : regAt a = some r :=
  h.2 ▸ regAt_regAddr h.1

/-- Two locations at one address are the same. -/
theorem StandsAt.unique {r r' : Reg} {a : Nat} (h : StandsAt r a) (h' : StandsAt r' a) : r = r' :=
  Option.some.inj ((regAt_of_standsAt h).symm.trans (regAt_of_standsAt h'))

theorem standsAt_cmd : StandsAt .cmd cmdAddr.toNat := ⟨rfl, rfl⟩

/-- An address is that of one location, or of none. -/
theorem regAt_eq_none_or_standsAt (a : Nat) : regAt a = none ∨ ∃ r, StandsAt r a := by
  cases h : regAt a with
  | none => exact .inl rfl
  | some r => exact .inr ⟨r, standsAt_of_regAt h⟩

theorem memRead_of_none {a : Addr} (h : regAt a.toNat = none) (s : State) :
    memRead s a = 0#32 := by
  simp only [memRead, h]

theorem memRead_of_standsAt {r : Reg} {a : Addr} (h : StandsAt r a.toNat) (s : State) :
    memRead s a = readReg s r := by
  simp only [memRead, regAt_of_standsAt h]

theorem memWrite_of_none {a : Addr} (h : regAt a.toNat = none) (v : Word) (s : State) :
    memWrite a v s = s := by
  simp only [memWrite, h]

theorem memWrite_of_standsAt {r : Reg} {a : Addr} (h : StandsAt r a.toNat) (v : Word) (s : State) :
    memWrite a v s = writeReg r v s := by
  simp only [memWrite, regAt_of_standsAt h]

theorem memRead_setHost (s : State) (a : Addr) (es : List HostEvent) (vs : List Word) :
    memRead { s with pending := es, readData := vs } a = memRead s a := by
  rcases regAt_eq_none_or_standsAt a.toNat with hnone | ⟨r, hr⟩
  · rw [memRead_of_none hnone, memRead_of_none hnone]
  · rw [memRead_of_standsAt hr, memRead_of_standsAt hr, readReg_setHost]

/-- A write at one address leaves what every other address reads (R46). -/
theorem memRead_memWrite_other {a a' : Addr} (hne : a' ≠ a) (v : Word) (s : State) :
    memRead (memWrite a v s) a' = memRead s a' := by
  rcases regAt_eq_none_or_standsAt a.toNat with hnone | ⟨r, hr⟩
  · rw [memWrite_of_none hnone]
  rcases regAt_eq_none_or_standsAt a'.toNat with hnone' | ⟨r', hr'⟩
  · rw [memRead_of_none hnone', memRead_of_none hnone']
  have hdiff : r' ≠ r := by
    rintro rfl
    obtain ⟨_, haddr⟩ := hr
    obtain ⟨_, haddr'⟩ := hr'
    exact hne (BitVec.eq_of_toNat_eq (haddr'.symm.trans haddr))
  rw [memWrite_of_standsAt hr, memRead_of_standsAt hr', memRead_of_standsAt hr',
    readReg_writeReg_other hr.1 hr'.1 hdiff]

theorem step_busRead {s : State} {a : Addr} {rest : List HostEvent}
    (h : s.pending = .busRead a :: rest) :
    step s = .next { s with pending := rest, readData := memRead s a :: s.readData } := by
  rw [step_of_pending h, ← memRead_setHost s a rest s.readData]
  rfl

theorem step_busWrite {s : State} {a : Addr} {v : Word} {rest : List HostEvent}
    (h : s.pending = .busWrite a v :: rest) (hcmd : a ≠ cmdAddr) :
    step s = .next (memWrite a v { s with pending := rest }) := by
  rw [step_of_pending h, hostEvent_busWrite_of_ne hcmd]

/-- Settles O7. -/
theorem busReadHasNoSideEffect : Obligations.BusReadHasNoSideEffect :=
  fun _ s _ hpend => ⟨_, step_busRead hpend, rfl, fun a' => memRead_setHost s a' _ _⟩

/-- No row of the table of R32 names a reserved address (R43). -/
theorem not_reservedAddr_of_standsAt {r : Reg} {a : Nat} (h : StandsAt r a) :
    ¬ ReservedAddr a := by
  obtain ⟨hpres, rfl⟩ := h
  unfold ReservedAddr
  cases r with
  | cs f => cases f <;> decide
  | coef b f => cases b <;> cases f <;> decide
  | lastGain b => cases b <;> decide
  | valid b => cases b <;> decide
  | delay ch b f =>
    have hch : ch < 2 := present_delay_iff.1 hpres
    obtain rfl | rfl : ch = 0 ∨ ch = 1 := by omega
    all_goals cases b <;> cases f <;> decide
  | buf ch i =>
    obtain ⟨hch, hi⟩ : ch < 2 ∧ i < 0x1000 := present_buf_iff.1 hpres
    simp only [regAddr, bufAddr]
    omega
  | _ => decide

theorem regAt_of_reserved {a : Nat} (h : ReservedAddr a) : regAt a = none :=
  (regAt_eq_none_or_standsAt a).resolve_right fun ⟨_, hr⟩ => not_reservedAddr_of_standsAt hr h

/-- Settles O9: no location stands at a reserved address, and `CMD` stands at its own. -/
theorem reservedAddressIsSilent : Obligations.ReservedAddressIsSilent := by
  intro a v s rest hres
  have hnone := regAt_of_reserved hres
  refine ⟨memRead_of_none hnone s, fun hpend => ?_⟩
  have hcmd : a ≠ cmdAddr := by
    rintro rfl
    exact not_reservedAddr_of_standsAt standsAt_cmd hres
  rw [step_busWrite hpend hcmd, memWrite_of_none hnone]

/-- Settles O10: the step is the write of the one location that stands at the address. -/
theorem busWriteReplacesOneLocation : Obligations.BusWriteReplacesOneLocation := by
  intro r a v s rest hpres haddr hnotCmd hpend
  have hr : StandsAt r a.toNat := ⟨hpres, haddr.symm⟩
  have hcmd : a ≠ cmdAddr := by
    rintro rfl
    exact hnotCmd (hr.unique standsAt_cmd)
  refine ⟨_, step_busWrite hpend hcmd, ?_, fun hw => ?_, fun a' hne => ?_, fun hro => ?_⟩
  · rw [memWrite_of_standsAt hr, writeReg_pending]
  · rw [memWrite_of_standsAt hr, memRead_of_standsAt hr, readReg_writeReg_same hw]
  · exact (memRead_memWrite_other hne v _).trans (memRead_setHost s a' rest s.readData)
  · rw [memWrite_of_standsAt hr, writeReg_of_readOnly hro]

end Sys2Proof.Machine
end

/-! # The command words (30_encoding.md)

What R64 calls legal is said once, as a predicate of a format and its fields; the decoder, the
encoder and the bit conditions of R64 are each tied to it, and the statements compare them. -/

/-! ## The fields of a word and the bands (R60, R61) -/

section
namespace Sys2Proof

theorem opField_toNat (w : Word) : (opField w).toNat = w.toNat / 2 ^ 24 := by
  rw [opField, BitVec.extractLsb'_toNat, Nat.shiftRight_eq_div_pow]
  omega

theorem bandField_toNat (w : Word) : (bandField w).toNat = w.toNat / 2 ^ 20 % 16 := by
  rw [bandField, BitVec.extractLsb'_toNat, Nat.shiftRight_eq_div_pow]

theorem chField_toNat (w : Word) : (chField w).toNat = w.toNat / 2 ^ 16 % 16 := by
  rw [chField, BitVec.extractLsb'_toNat, Nat.shiftRight_eq_div_pow]

theorem nField_toNat (w : Word) : (nField w).toNat = w.toNat % 2 ^ 16 := by
  rw [nField, BitVec.extractLsb'_toNat, Nat.shiftRight_zero]

theorem eq_ofNat_of_toNat_eq {m k : Nat} {v : BitVec m} (h : v.toNat = k) :
    v = BitVec.ofNat m k := by
  rw [← h, BitVec.ofNat_toNat, BitVec.setWidth_eq]

theorem eq_zero_iff_toNat {m : Nat} {v : BitVec m} : v = 0#m ↔ v.toNat = 0 :=
  BitVec.toNat_inj.symm

theorem ninLegal_iff {nin : BitVec 4} : ninLegal nin = true ↔ nin.toNat ≤ Config.nch :=
  decide_eq_true_iff

theorem Band.ofField_eq_some_iff {f : BitVec 4} {b : Band} :
    Band.ofField f = some b ↔ f = b.toField := by
  constructor
  · intro h
    unfold Band.ofField at h
    split_ifs at h with hlow hmid hhigh <;> cases h <;> assumption
  · rintro rfl
    exact Band.ofField_toField b

theorem Band.ofField_ne_none_iff {f : BitVec 4} :
    Band.ofField f ≠ none ↔ ∃ b : Band, f = b.toField := by
  simp only [Option.ne_none_iff_exists', Band.ofField_eq_some_iff]

/-- The bands are numbered 0 to 2 (R60). -/
theorem Band.exists_toField_iff {f : BitVec 4} : (∃ b : Band, f = b.toField) ↔ f.toNat ≤ 2 := by
  constructor
  · rintro ⟨b, rfl⟩
    cases b <;> decide
  · intro h
    rw [← Band.ofField_ne_none_iff]
    revert f
    decide

end Sys2Proof
end

/-! ## Legal fields, and what the decoder does with them (R61, R64, R68) -/

section
namespace Sys2Proof

/-- The field values that a format admits (R61). -/
def FieldsLegal : Format → BitVec 4 → BitVec 4 → BitVec 16 → Prop
  | .z, band, ch, n => band = 0#4 ∧ ch = 0#4 ∧ n = 0#16
  | .b, band, ch, n => (∃ b : Band, band = b.toField) ∧ ch = 0#4 ∧ n = 0#16
  | .c, band, ch, n => band = 0#4 ∧ chLegal ch = true ∧ n = 0#16
  | .bc, band, ch, n => (∃ b : Band, band = b.toField) ∧ chLegal ch = true ∧ n = 0#16
  | .n, band, ch, _ => band = 0#4 ∧ ninLegal ch = true

/-- A chain of tests finds no error when this test and the rest of the chain find none. -/
theorem ite_some_eq_none_iff {p : Prop} [Decidable p] {e : DecodeError}
    {rest : Option DecodeError} :
    (if p then some e else rest) = none ↔ ¬ p ∧ rest = none := by
  by_cases hp : p <;> simp [hp]

/-- The tests of R68 pass exactly on the legal fields. -/
theorem fieldError_eq_none_iff {fmt : Format} {band ch : BitVec 4} {n : BitVec 16} :
    fieldError fmt band ch n = none ↔ FieldsLegal fmt band ch n := by
  simp only [fieldError, ite_some_eq_none_iff]
  cases fmt <;> simp [FieldsLegal, ← Band.ofField_ne_none_iff]

/-- The opcodes of each format, and the reserved ones (R63). -/
theorem formatOf_cases (op : BitVec 8) :
    (formatOf op = none ∧ 0x0E ≤ op.toNat) ∨
    (formatOf op = some .z ∧ op.toNat ∈ [0x00, 0x01, 0x02, 0x09, 0x0A, 0x0B, 0x0C, 0x0D]) ∨
    (formatOf op = some .b ∧ op.toNat ∈ [0x03, 0x08]) ∨
    (formatOf op = some .c ∧ op.toNat = 0x04) ∨
    (formatOf op = some .n ∧ op.toNat = 0x05) ∨
    (formatOf op = some .bc ∧ op.toNat ∈ [0x06, 0x07]) := by
  unfold formatOf
  split
  case h_15 =>
    left
    refine ⟨rfl, ?_⟩
    simp only [imp_false] at *
    omega
  all_goals
    next hop => simp [hop]

/-- An opcode with a format has a command (R63). -/
theorem exists_commandOf {op : BitVec 8} {fmt : Format} (h : formatOf op = some fmt) (band : Band)
    (ch : BitVec 4) (n : BitVec 16) : ∃ i, commandOf op band ch n = some i := by
  unfold formatOf at h
  unfold commandOf
  split at h
  case h_15 => cases h
  all_goals exact ⟨_, rfl⟩

/-- The decoder's three stages: the opcode has a format, the fields are legal in it, and the command
is that of the opcode and the fields (R68). -/
theorem decode_eq_ok_iff {w : Word} {i : Instr} :
    decode w = .ok i ↔ ∃ fmt, formatOf (opField w) = some fmt ∧
      FieldsLegal fmt (bandField w) (chField w) (nField w) ∧
      commandOf (opField w) ((Band.ofField (bandField w)).getD .low) (chField w) (nField w) =
        some i := by
  simp only [← fieldError_eq_none_iff]
  unfold decode
  cases hfmt : formatOf (opField w) with
  | none => simp
  | some fmt =>
    cases herr : fieldError fmt (bandField w) (chField w) (nField w) with
    | some e => simp [herr]
    | none =>
      obtain ⟨j, hj⟩ := exists_commandOf hfmt ((Band.ofField (bandField w)).getD .low) (chField w)
        (nField w)
      simp [herr, hj]

/-- A word is a command's word exactly when its opcode has a format in which its fields are legal
(R64). -/
theorem exists_decode_iff {w : Word} :
    (∃ i, decode w = .ok i) ↔ ∃ fmt, formatOf (opField w) = some fmt ∧
      FieldsLegal fmt (bandField w) (chField w) (nField w) := by
  constructor
  · rintro ⟨i, hdec⟩
    obtain ⟨fmt, hfmt, hlegal, _⟩ := decode_eq_ok_iff.1 hdec
    exact ⟨fmt, hfmt, hlegal⟩
  · rintro ⟨fmt, hfmt, hlegal⟩
    obtain ⟨i, hi⟩ := exists_commandOf hfmt _ _ _
    exact ⟨i, decode_eq_ok_iff.2 ⟨fmt, hfmt, hlegal, hi⟩⟩

/-- The decoder on a word given by its fields. -/
theorem decode_assemble {op : BitVec 8} {fmt : Format} {band ch : BitVec 4} {n : BitVec 16}
    {i : Instr} (hfmt : formatOf op = some fmt) (hlegal : FieldsLegal fmt band ch n)
    (hcmd : commandOf op ((Band.ofField band).getD .low) ch n = some i) :
    decode (assemble op band ch n) = .ok i := by
  simp only [decode_eq_ok_iff, opField_assemble, bandField_assemble, chField_assemble,
    nField_assemble]
  exact ⟨fmt, hfmt, hlegal, hcmd⟩

/-- The command of an opcode and legal fields is legal, and its word has that opcode and those
fields. -/
theorem wf_and_encode_of_commandOf {op : BitVec 8} {fmt : Format} {band ch : BitVec 4}
    {n : BitVec 16} {i : Instr} (hfmt : formatOf op = some fmt) (hlegal : FieldsLegal fmt band ch n)
    (hcmd : commandOf op ((Band.ofField band).getD .low) ch n = some i) :
    i.wf = true ∧ encode i = assemble op band ch n := by
  unfold commandOf at hcmd
  split at hcmd
  case h_15 => cases hcmd
  all_goals
    rename_i hop
    obtain rfl := eq_ofNat_of_toNat_eq hop
    cases hfmt
    cases hcmd
  -- format Z
  case h_1 | h_2 | h_3 | h_10 | h_11 | h_12 | h_13 | h_14 =>
    obtain ⟨rfl, rfl, rfl⟩ := hlegal
    exact ⟨rfl, rfl⟩
  -- format B
  case h_4 | h_9 =>
    obtain ⟨⟨b, rfl⟩, rfl, rfl⟩ := hlegal
    exact ⟨rfl, by rw [Band.ofField_toField]; rfl⟩
  -- format C
  case h_5 =>
    obtain ⟨rfl, hch, rfl⟩ := hlegal
    exact ⟨hch, rfl⟩
  -- format N
  case h_6 =>
    obtain ⟨rfl, hnin⟩ := hlegal
    exact ⟨hnin, rfl⟩
  -- format BC
  case h_7 | h_8 =>
    obtain ⟨⟨b, rfl⟩, hch, rfl⟩ := hlegal
    exact ⟨hch, by rw [Band.ofField_toField]; rfl⟩

/-- Settles O1: the word of each constructor passes the tests of its format, and its opcode gives
the constructor back. -/
theorem decodeOfEncodeIsTheCommand : Obligations.DecodeOfEncodeIsTheCommand := by
  intro i hwf
  cases i with
  | update b | ldcoef b =>
    exact decode_assemble rfl ⟨⟨b, rfl⟩, rfl, rfl⟩ (by rw [Band.ofField_toField]; rfl)
  | chsample ch => exact decode_assemble rfl ⟨rfl, hwf, rfl⟩ rfl
  | block nin n => exact decode_assemble rfl ⟨rfl, hwf⟩ rfl
  | bqstep b ch | bqreset b ch =>
    exact decode_assemble rfl ⟨⟨b, rfl⟩, hwf, rfl⟩ (by rw [Band.ofField_toField]; rfl)
  | _ => exact decode_assemble rfl ⟨rfl, rfl, rfl⟩ rfl

/-- Settles O2: a word is its four fields, and the command has the same ones. -/
theorem encodeOfDecodeIsTheWord : Obligations.EncodeOfDecodeIsTheWord := by
  intro w i hdec
  obtain ⟨fmt, hfmt, hlegal, hcmd⟩ := decode_eq_ok_iff.1 hdec
  obtain ⟨hwf, henc⟩ := wf_and_encode_of_commandOf hfmt hlegal hcmd
  exact ⟨hwf, henc.trans (assemble_fields w)⟩

/-- Settles O4: the decoder, run on each word. -/
theorem specExampleWordsDecode : Obligations.SpecExampleWordsDecode := by
  unfold Obligations.SpecExampleWordsDecode
  decide

end Sys2Proof
end

/-! ## The illegal words (R64, R199) -/

section
namespace Sys2Proof.Safety
open Sys2Proof.Machine

/-- The bit conditions of R64 name the words that have no format, or fields that the format does not
admit: what they ask of the opcodes of a format is the negation of `FieldsLegal`. -/
theorem illegalWord_iff {w : Word} :
    IllegalWord w ↔ ¬ ∃ fmt, formatOf (opField w) = some fmt ∧
      FieldsLegal fmt (bandField w) (chField w) (nField w) := by
  simp only [IllegalWord, ← opField_toNat, ← bandField_toNat, ← chField_toNat, ← nField_toNat]
  rcases formatOf_cases (opField w) with h | h | h | h | h | h
  all_goals
    obtain ⟨hfmt, hop⟩ := h
    simp only [hfmt, reduceCtorEq, Option.some.injEq, exists_eq_left', false_and, exists_false,
      not_false_eq_true, iff_true, FieldsLegal, Band.exists_toField_iff, chLegal_iff, ninLegal_iff,
      eq_zero_iff_toNat, Config.nch, List.mem_cons, List.not_mem_nil, or_false] at hop ⊢
    omega

theorem illegalWord_iff_not_decodes {w : Word} :
    IllegalWord w ↔ ¬ ∃ i, decode w = .ok i := by
  rw [illegalWord_iff, exists_decode_iff]

/-- Settles O3: the decoder rejects exactly the illegal words, and a rejected word enters the error
with nothing else changed. -/
theorem illegalWordRaisesBadCommand : Obligations.IllegalWordRaisesBadCommand := by
  intro w s rest hpend
  refine ⟨fun hillegal => ?_, fun hlegal => ?_⟩
  · cases hdec : decode w with
    | ok i => exact absurd ⟨i, hdec⟩ (illegalWord_iff_not_decodes.1 hillegal)
    | error e =>
      rw [step_of_pending hpend]
      exact (hostEvent_cmd w _).trans (runCommand_of_error hdec _)
  · exact not_not.1 (mt illegalWord_iff_not_decodes.2 hlegal)

end Sys2Proof.Safety
end

/-! # Numerics (40_numerics.md)

The classes of patterns first, then what each operation returns class by class; the statements take
their clauses from these. -/

/-! ## Classes of patterns (R80, R83, R93) -/

section
namespace Sys2Proof.Machine

theorem isNaN_of_isInf {v : Word} (h : isInf v = true) : isNaN v = false := by
  rw [isInf_iff] at h
  rw [Bool.eq_false_iff, ne_eq, isNaN_iff]
  omega

theorem isZero_of_isInf {v : Word} (h : isInf v = true) : isZero v = false := by
  rw [isInf_iff] at h
  rw [Bool.eq_false_iff, ne_eq, isZero_iff]
  omega

theorem isFinite_of_isZero {v : Word} (h : isZero v = true) : isFinite v = true := by
  rw [isZero_iff] at h
  rw [isFinite_iff]
  omega

theorem isSubnormal_of_isZero {v : Word} (h : isZero v = true) : isSubnormal v = false := by
  rw [isZero_iff] at h
  rw [Bool.eq_false_iff, ne_eq, isSubnormal_iff]
  omega

/-- A pattern is finite when it is neither a NaN nor an infinity (R93). -/
theorem isFinite_eq (v : Word) : isFinite v = (!isNaN v && !isInf v) := by
  rw [Bool.eq_iff_iff, Bool.and_eq_true, Bool.not_eq_true', Bool.not_eq_true', Bool.eq_false_iff,
    Bool.eq_false_iff, ne_eq, ne_eq, isNaN_iff, isInf_iff, isFinite_iff]
  omega

theorem isFinite_flush (v : Word) : isFinite (flush v) = isFinite v := by
  rw [isFinite_eq, isFinite_eq, isNaN_flush, isInf_flush]

theorem isFinite_fneg (v : Word) : isFinite (fneg v) = isFinite v := by
  rw [isFinite_eq, isFinite_eq, isNaN_fneg, isInf_fneg]

/-- What acts as a zero is a zero or a subnormal, so finite. -/
theorem isFinite_of_isZero_flush {v : Word} (h : isZero (flush v) = true) : isFinite v = true := by
  rw [← isFinite_flush]
  exact isFinite_of_isZero h

theorem isNaN_signedInf (s : Bool) : isNaN (signedInf s) = false := by cases s <;> decide

theorem isSubnormal_signedInf (s : Bool) : isSubnormal (signedInf s) = false := by
  cases s <;> decide

/-- Infinities with the same sign are the same pattern. -/
theorem eq_of_isInf {u v : Word} (hu : isInf u = true) (hv : isInf v = true)
    (hs : signBit u = signBit v) : u = v := by
  rw [eq_signedInf_of_isInf hu, eq_signedInf_of_isInf hv, hs]

end Sys2Proof.Machine
end

/-! ## What every result is (R84, R85)

The two rules for results are kept together, because every operation obeys both for the same
reason: its result is the canonical NaN, a zero, an infinity or a rounded number. -/

section
namespace Sys2Proof.Machine

/-- What R84 and R85 ask of a result. -/
structure IsResult (r : Word) : Prop where
  not_subnormal : isSubnormal r = false
  nan_canonical : isNaN r = true → r = qnan

theorem isResult_qnan : IsResult qnan := ⟨by decide, fun _ => rfl⟩

theorem isResult_of_not_isNaN {r : Word} (hnan : isNaN r = false) (hsub : isSubnormal r = false) :
    IsResult r :=
  ⟨hsub, fun h => absurd h (by simp [hnan])⟩

theorem isResult_signedInf (s : Bool) : IsResult (signedInf s) :=
  isResult_of_not_isNaN (isNaN_signedInf s) (isSubnormal_signedInf s)

theorem isResult_of_isInf {r : Word} (h : isInf r = true) : IsResult r := by
  rw [eq_signedInf_of_isInf h]
  exact isResult_signedInf _

theorem isResult_of_isZero {r : Word} (h : isZero r = true) : IsResult r :=
  isResult_of_not_isNaN (isNaN_of_isFinite (isFinite_of_isZero h)) (isSubnormal_of_isZero h)

theorem isResult_signedZero (s : Bool) : IsResult (signedZero s) :=
  isResult_of_isZero (isZero_signedZero s)

theorem isResult_roundResult (s : Bool) (num den : Nat) : IsResult (roundResult s num den) :=
  have ⟨hnan, hsub, _⟩ := roundResult_class s num den
  isResult_of_not_isNaN hnan hsub

theorem isResult_fadd (a b : Word) : IsResult (fadd a b) := by
  unfold fadd addFlushed
  split
  · exact isResult_qnan
  split
  · split
    · exact isResult_qnan
    · exact isResult_of_isInf ‹_›
  split
  · exact isResult_of_isInf ‹_›
  dsimp only
  split
  · exact isResult_signedZero _
  · exact isResult_roundResult _ _ _

theorem isResult_fsub (a b : Word) : IsResult (fsub a b) := isResult_fadd a (fneg b)

theorem isResult_fmul (a b : Word) : IsResult (fmul a b) := by
  unfold fmul mulFlushed
  dsimp only
  split
  · exact isResult_qnan
  split
  · split
    · exact isResult_qnan
    · exact isResult_signedInf _
  split
  · split
    · exact isResult_qnan
    · exact isResult_signedInf _
  exact isResult_roundResult _ _ _

theorem isResult_fdiv (a b : Word) : IsResult (fdiv a b) := by
  unfold fdiv divFlushed
  dsimp only
  split
  · exact isResult_qnan
  split
  · split
    · exact isResult_qnan
    · exact isResult_signedInf _
  split
  · exact isResult_signedZero _
  split
  · split
    · exact isResult_qnan
    · exact isResult_signedInf _
  exact isResult_roundResult _ _ _

theorem isResult_fsqrt (a : Word) : IsResult (fsqrt a) := by
  unfold fsqrt sqrtFlushed
  split
  · exact isResult_qnan
  split
  · exact isResult_of_isZero ‹_›
  split
  · exact isResult_qnan
  split
  · exact isResult_of_isInf ‹_›
  exact isResult_roundResult _ _ _

/-- Settles O53: every operation's result is a result in the sense of R84. -/
theorem arithmeticNeverReturnsASubnormal : Obligations.ArithmeticNeverReturnsASubnormal := by
  intro a b
  exact ⟨(isResult_fadd a b).not_subnormal, (isResult_fsub a b).not_subnormal,
    (isResult_fmul a b).not_subnormal, (isResult_fdiv a b).not_subnormal,
    (isResult_fsqrt a).not_subnormal⟩

end Sys2Proof.Machine
end

/-! ## NaN operands and invalid operations (R85) -/

section
namespace Sys2Proof.Machine

theorem fadd_of_isNaN {a b : Word} (h : isNaN a = true ∨ isNaN b = true) : fadd a b = qnan := by
  simp [fadd, addFlushed, isNaN_flush, h]

theorem fsub_of_isNaN {a b : Word} (h : isNaN a = true ∨ isNaN b = true) : fsub a b = qnan :=
  fadd_of_isNaN (by rwa [isNaN_fneg])

theorem fmul_of_isNaN {a b : Word} (h : isNaN a = true ∨ isNaN b = true) : fmul a b = qnan := by
  simp [fmul, mulFlushed, isNaN_flush, h]

theorem fdiv_of_isNaN {a b : Word} (h : isNaN a = true ∨ isNaN b = true) : fdiv a b = qnan := by
  simp [fdiv, divFlushed, isNaN_flush, h]

theorem fsqrt_of_isNaN {a : Word} (h : isNaN a = true) : fsqrt a = qnan := by
  simp [fsqrt, sqrtFlushed, isNaN_flush, h]

/-- Negation does not flush, so of R84 and R85 it obeys the second alone. -/
theorem fneg_eq_qnan_of_isNaN {a : Word} (h : isNaN (fneg a) = true) : fneg a = qnan :=
  fneg_of_isNaN (by rwa [isNaN_fneg] at h)

/-- ∞ − ∞, as an addition. -/
theorem fadd_of_isInf_of_signBit_ne {a b : Word} (ha : isInf a = true) (hb : isInf b = true)
    (hs : signBit a ≠ signBit b) : fadd a b = qnan := by
  simp [fadd, addFlushed, isInf_flush, signBit_flush, ha, hb, hs]

/-- ∞ − ∞. -/
theorem fsub_of_isInf_of_signBit_eq {a b : Word} (ha : isInf a = true) (hb : isInf b = true)
    (hs : signBit a = signBit b) : fsub a b = qnan := by
  refine fadd_of_isInf_of_signBit_ne ha (by rwa [isInf_fneg]) ?_
  rw [signBit_fneg (isNaN_of_isInf hb), hs]
  exact (Bool.not_ne_self _).symm

/-- ∞ / ∞. -/
theorem fdiv_of_isInf {a b : Word} (ha : isInf a = true) (hb : isInf b = true) :
    fdiv a b = qnan := by
  simp [fdiv, divFlushed, isInf_flush, ha, hb]

theorem mulFlushed_comm (a b : Word) : mulFlushed a b = mulFlushed b a := by
  unfold mulFlushed
  rw [Bool.or_comm (isNaN b), Bool.xor_comm (signBit b), Nat.mul_comm (units b)]
  cases ha : isInf a <;> cases hb : isInf b
  case true.true => simp [isZero_of_isInf ha, isZero_of_isInf hb]
  all_goals simp

/-- Multiplication is symmetric in its operands (R88). -/
theorem fmul_comm (a b : Word) : fmul a b = fmul b a := mulFlushed_comm _ _

/-- 0 × ∞. -/
theorem fmul_of_isZero_of_isInf {a b : Word} (ha : isZero (flush a) = true)
    (hb : isInf b = true) : fmul a b = qnan := by
  have hfin := isFinite_of_isZero_flush ha
  simp [fmul, mulFlushed, isInf_flush, isInf_of_isFinite hfin, ha, hb]

/-- 0 / 0. -/
theorem fdiv_of_isZero {a b : Word} (ha : isZero (flush a) = true)
    (hb : isZero (flush b) = true) : fdiv a b = qnan := by
  have hfinA := isFinite_of_isZero_flush ha
  have hfinB := isFinite_of_isZero_flush hb
  simp [fdiv, divFlushed, isInf_flush, isInf_of_isFinite hfinA, isInf_of_isFinite hfinB, ha, hb]

/-- The square root of a negative non-zero value. -/
theorem fsqrt_of_signBit {a : Word} (hs : signBit a = true) (hz : isZero (flush a) = false) :
    fsqrt a = qnan := by
  simp [fsqrt, sqrtFlushed, signBit_flush, hs, hz]

/-- Settles O54: NaN operands, NaN results, then the invalid operations. -/
theorem nanResultsAreCanonical : Obligations.NaNResultsAreCanonical := by
  refine ⟨fun a b h => ?_, fun a h => ?_, fun a b => ?_, fun a b ha hb => ?_, fun a b ha => ?_,
    fun a hs hz => fsqrt_of_signBit hs hz, fun a h => ⟨fsin_ok.infinite a h, fcos_ok.infinite a h⟩⟩
  · exact ⟨fadd_of_isNaN h, fsub_of_isNaN h, fmul_of_isNaN h, fdiv_of_isNaN h⟩
  · exact ⟨fsqrt_of_isNaN h, fneg_of_isNaN h, fsin_ok.nan_operand a h, fcos_ok.nan_operand a h,
      ftanh_ok.nan_operand a h, fexp10_ok.nan_operand a h⟩
  · exact ⟨(isResult_fadd a b).nan_canonical, (isResult_fsub a b).nan_canonical,
      (isResult_fmul a b).nan_canonical, (isResult_fdiv a b).nan_canonical,
      (isResult_fsqrt a).nan_canonical, fneg_eq_qnan_of_isNaN, fsin_ok.nan_canonical a,
      fcos_ok.nan_canonical a, ftanh_ok.nan_canonical a, fexp10_ok.nan_canonical a⟩
  · exact ⟨fdiv_of_isInf ha hb, fadd_of_isInf_of_signBit_ne ha hb,
      fsub_of_isInf_of_signBit_eq ha hb⟩
  · refine ⟨fun hb => ?_, fdiv_of_isZero ha⟩
    have hmul := fmul_of_isZero_of_isInf ha hb
    exact ⟨hmul, (fmul_comm b a).trans hmul⟩

end Sys2Proof.Machine
end

/-! ## Exact products and quotients (R82, R88, R89) -/

section
namespace Sys2Proof.Machine

/-! The magnitudes of 1, 2 and 0.5 (R95) in units of 2^-149. -/

theorem units_one : units one = 2 ^ 149 := by decide

theorem units_two : units two = 2 ^ 150 := by decide

theorem units_half : units half = 2 ^ 148 := by decide

/-- The quotient of two numbers that are zero or normal, the divisor not zero, is the exact
quotient, rounded once (R89). -/
theorem fdiv_of_isFinite {a b : Word} (ha : isFinite a = true) (hb : isFinite b = true)
    (sa : isSubnormal a = false) (sb : isSubnormal b = false) (zb : isZero b = false) :
    fdiv a b = roundResult (signBit a ^^ signBit b) (units a * 2 ^ 149) (units b) := by
  simp [fdiv, divFlushed, flush_of_not_subnormal sa, flush_of_not_subnormal sb,
    isNaN_of_isFinite ha, isNaN_of_isFinite hb, isInf_of_isFinite ha, isInf_of_isFinite hb, zb]

/-- The magnitude patterns of the zeros, the normal numbers and the infinities. -/
def ZeroOrNormalMag (m : Nat) : Prop := m = 0 ∨ 2 ^ 23 ≤ m

/-- An exact value on the grid of the normal numbers, continued beyond the greatest of them, rounds
to its own pattern, or to the infinity from 2^128 on (R82). -/
theorem roundResult_magUnits (s : Bool) {m : Nat} (hm : ZeroOrNormalMag m) (k : Nat) (hk : 0 < k) :
    roundResult s (magUnits m * k) k = packSign s (min m 0x7F800000) := by
  have hround : roundMag (magUnits m * k) k = m := by
    have hscale := roundMag_scale (magUnits m) 1 k hk
    rwa [Nat.one_mul, roundMag_magUnits] at hscale
  rw [roundResult_eq, resultMag, hround]
  congr 1
  rcases hm with rfl | hm <;> split <;> omega

variable {x : Word}

theorem zeroOrNormalMag_of_not_isSubnormal (hs : isSubnormal x = false) :
    ZeroOrNormalMag (x.toNat % 2 ^ 31) := by
  rw [Bool.eq_false_iff, ne_eq, isSubnormal_iff] at hs
  unfold ZeroOrNormalMag
  omega

theorem expField_toNat_eq_mag (x : Word) :
    (expField x).toNat = x.toNat % 2 ^ 31 / 2 ^ 23 := by
  rw [expField_toNat]
  omega

/-- Multiplying by a positive number scales to the pattern that holds the exact product, if there is
one, and to the infinity of the sign from 2^128 on. -/
theorem fmul_of_units_mul {c : Word} (hc : isFinite c = true) (sc : isSubnormal c = false)
    (posc : signBit c = false) (hx : isFinite x = true) (sx : isSubnormal x = false) {m : Nat}
    (hm : ZeroOrNormalMag m) (hu : units c * units x = magUnits m * 2 ^ 149) :
    fmul c x = packSign (signBit x) (min m 0x7F800000) := by
  rw [fmul_of_isFinite hc hx sc sx, posc, Bool.false_xor, hu,
    roundResult_magUnits _ hm _ (by norm_num)]

/-- A finite pattern built from a sign and a magnitude has both. -/
theorem packSign_finite (s : Bool) {m : Nat} (h : m < 0x7F800000) :
    isFinite (packSign s m) = true ∧ signBit (packSign s m) = s ∧
      units (packSign s m) = magUnits m := by
  have hmod := packSign_mod s m (by omega)
  exact ⟨by rw [isFinite_iff, hmod]; exact h, signBit_packSign s m (by omega),
    by rw [units_eq_magUnits, hmod]⟩

/-- The magnitude pattern twice as large: a zero stays, a normal number gets the next exponent. -/
def doubleMag (m : Nat) : Nat := if m = 0 then 0 else m + 2 ^ 23

theorem zeroOrNormalMag_doubleMag (m : Nat) : ZeroOrNormalMag (doubleMag m) := by
  unfold ZeroOrNormalMag doubleMag
  split <;> omega

theorem magUnits_doubleMag {m : Nat} (hm : ZeroOrNormalMag m) :
    magUnits (doubleMag m) = 2 * magUnits m := by
  rcases hm with rfl | hm
  · decide
  · rw [doubleMag, if_neg (by omega), magUnits_add m hm]

/-- Multiplying by 2.0 rounds nothing: it only overflows (R88). -/
theorem fmul_two (hx : isFinite x = true) (sx : isSubnormal x = false) :
    fmul two x = packSign (signBit x) (min (doubleMag (x.toNat % 2 ^ 31)) 0x7F800000) := by
  apply fmul_of_units_mul (by decide) (by decide) (by decide) hx sx (zeroOrNormalMag_doubleMag _)
  rw [magUnits_doubleMag (zeroOrNormalMag_of_not_isSubnormal sx), ← units_eq_magUnits, units_two]
  ring

/-- Where a magnitude is twice another one, multiplying by 0.5 gives that other one. -/
theorem fmul_half (hx : isFinite x = true) (sx : isSubnormal x = false) {m : Nat}
    (hm : ZeroOrNormalMag m) (hdouble : x.toNat % 2 ^ 31 = doubleMag m) :
    fmul half x = packSign (signBit x) (min m 0x7F800000) := by
  apply fmul_of_units_mul (by decide) (by decide) (by decide) hx sx hm
  rw [units_eq_magUnits x, hdouble, magUnits_doubleMag hm, units_half]
  ring

theorem one_fmul (hx : isFinite x = true) (sx : isSubnormal x = false) : fmul one x = x := by
  rw [fmul_of_isFinite (by decide) hx (by decide) sx, units_one, Nat.mul_comm,
    show signBit one = false by decide, Bool.false_xor]
  exact roundResult_exact hx sx _ (by norm_num)

theorem fdiv_one (hx : isFinite x = true) (sx : isSubnormal x = false) : fdiv x one = x := by
  rw [fdiv_of_isFinite hx (by decide) sx (by decide) (by decide), units_one,
    show signBit one = false by decide, Bool.xor_false]
  exact roundResult_exact hx sx _ (by norm_num)

/-- x / x is 1: the quotient is that of 1 and 1, scaled by the magnitude of x. -/
theorem fdiv_self (hx : isFinite x = true) (sx : isSubnormal x = false) (zx : isZero x = false) :
    fdiv x x = one := by
  have hpos : 0 < units x := by
    rw [Nat.pos_iff_ne_zero, ne_eq, units_eq_zero_iff, zx]
    decide
  rw [fdiv_of_isFinite hx hx sx sx zx, Bool.xor_self, Nat.mul_comm, ← units_one]
  exact roundResult_exact (a := one) (by decide) (by decide) _ hpos

/-- Below the exponent 254 the double is finite, and exact. -/
theorem fmul_two_exact (hx : isFinite x = true) (sx : isSubnormal x = false)
    (he : (expField x).toNat < 254) :
    isFinite (fmul two x) = true ∧ signBit (fmul two x) = signBit x ∧
      units (fmul two x) = 2 * units x := by
  have hlt : doubleMag (x.toNat % 2 ^ 31) < 0x7F800000 := by
    rw [expField_toNat_eq_mag] at he
    unfold doubleMag
    split <;> omega
  rw [fmul_two hx sx, Nat.min_eq_left hlt.le, units_eq_magUnits x,
    ← magUnits_doubleMag (zeroOrNormalMag_of_not_isSubnormal sx)]
  exact packSign_finite _ hlt

/-- At the exponent 254 the double is beyond the greatest finite number. -/
theorem fmul_two_overflow (hx : isFinite x = true) (sx : isSubnormal x = false)
    (he : (expField x).toNat = 254) : fmul two x = signedInf (signBit x) := by
  have hge : 0x7F800000 ≤ doubleMag (x.toNat % 2 ^ 31) := by
    rw [expField_toNat_eq_mag] at he
    rw [doubleMag, if_neg (by omega)]
    omega
  rw [fmul_two hx sx, Nat.min_eq_right hge]
  rfl

/-- A zero, and a normal number that is not of the least exponent, is the double of one. -/
theorem exists_doubleMag (hx : isFinite x = true)
    (h : isZero x = true ∨ 1 < (expField x).toNat) :
    ∃ m, ZeroOrNormalMag m ∧ m < 0x7F800000 ∧ x.toNat % 2 ^ 31 = doubleMag m := by
  rw [isFinite_iff] at hx
  rw [isZero_iff, expField_toNat_eq_mag] at h
  rcases h with hzero | hexp
  · exact ⟨0, .inl rfl, by norm_num, hzero⟩
  · refine ⟨x.toNat % 2 ^ 31 - 2 ^ 23, .inr (by omega), by omega, ?_⟩
    rw [doubleMag, if_neg (by omega)]
    omega

theorem fmul_half_exact (hx : isFinite x = true) (sx : isSubnormal x = false)
    (h : isZero x = true ∨ 1 < (expField x).toNat) :
    isFinite (fmul half x) = true ∧ signBit (fmul half x) = signBit x ∧
      2 * units (fmul half x) = units x := by
  obtain ⟨m, hm, hlt, hdouble⟩ := exists_doubleMag hx h
  rw [fmul_half hx sx hm hdouble, Nat.min_eq_left hlt.le]
  obtain ⟨hfin, hsign, hunits⟩ := packSign_finite (signBit x) hlt
  exact ⟨hfin, hsign, by rw [hunits, units_eq_magUnits x, hdouble, magUnits_doubleMag hm]⟩

end Sys2Proof.Machine

namespace Sys2Proof.Machine

/-- Settles O55: each product or quotient is an exact value that some pattern holds, except the
double beyond the greatest exponent. -/
theorem exactQuotientsAndProducts : Obligations.ExactQuotientsAndProducts := by
  intro x hx sx
  exact ⟨one_fmul hx sx, (fmul_comm x one).trans (one_fmul hx sx), fdiv_one hx sx,
    fdiv_self hx sx, fmul_comm x two, fmul_comm x half, fmul_two_exact hx sx,
    fmul_two_overflow hx sx, fmul_half_exact hx sx⟩

end Sys2Proof.Machine
end

/-! ## Addition (R87) -/

section
namespace Sys2Proof.Machine

theorem addFlushed_comm (a b : Word) : addFlushed a b = addFlushed b a := by
  unfold addFlushed
  rw [Bool.or_comm (isNaN b), Int.add_comm (signedUnits b), Bool.and_comm (signBit b)]
  cases ha : isInf a <;> cases hb : isInf b
  case true.true =>
    by_cases hs : signBit a = signBit b
    · rw [eq_of_isInf ha hb hs]
    · simp [hs, Ne.symm hs]
  all_goals simp

/-- Addition is symmetric in its operands (R87). -/
theorem fadd_comm (a b : Word) : fadd a b = fadd b a := addFlushed_comm _ _

/-- The sum of finite operands is the exact sum, rounded once, and an exact zero is -0 from two
negative operands alone (R87). -/
theorem addFlushed_of_isFinite {a b : Word} (ha : isFinite a = true) (hb : isFinite b = true) :
    addFlushed a b =
      if signedUnits a + signedUnits b = 0 then signedZero (signBit a && signBit b)
      else roundResult (decide (signedUnits a + signedUnits b < 0))
        (signedUnits a + signedUnits b).natAbs 1 := by
  simp [addFlushed, isNaN_of_isFinite ha, isNaN_of_isFinite hb, isInf_of_isFinite ha,
    isInf_of_isFinite hb]

theorem signedUnits_fneg {v : Word} (h : isNaN v = false) :
    signedUnits (fneg v) = -signedUnits v := by
  have hunits : units (fneg v) = units v := by
    rw [units_eq_magUnits, units_eq_magUnits, fneg_toNat_mod h]
  rw [signedUnits, signedUnits, hunits, signBit_fneg h]
  cases signBit v <;> simp

theorem natAbs_signedUnits (v : Word) : (signedUnits v).natAbs = units v := by
  unfold signedUnits
  split <;> simp

theorem signedUnits_eq_zero_iff {v : Word} : signedUnits v = 0 ↔ isZero v = true := by
  rw [← Int.natAbs_eq_zero, natAbs_signedUnits, units_eq_zero_iff]

/-- The sign of the value of a non-zero number is its sign bit (R80). -/
theorem decide_signedUnits_neg {v : Word} (h : isZero v = false) :
    decide (signedUnits v < 0) = signBit v := by
  have hpos : units v ≠ 0 := by
    rw [ne_eq, units_eq_zero_iff, h]
    decide
  unfold signedUnits
  cases signBit v
  · simp
  · simpa using Nat.pos_of_ne_zero hpos

/-- A finite number and its negation have opposite values and opposite signs, so the sum is +0. -/
theorem fadd_fneg_self {a : Word} (ha : isFinite a = true) : fadd a (fneg a) = posZero := by
  have hfin : isFinite (flush a) = true := by rwa [isFinite_flush]
  have hnan := isNaN_of_isFinite hfin
  rw [fadd, flush_fneg, addFlushed_of_isFinite hfin (by rwa [isFinite_fneg]),
    signedUnits_fneg hnan, signBit_fneg hnan, Int.add_right_neg, if_pos rfl, Bool.and_not_self]
  rfl

theorem fadd_of_isZero_left {a b : Word} (ha : isZero a = true) (hb : isFinite b = true)
    (sb : isSubnormal b = false) (zb : isZero b = false) : fadd a b = b := by
  have hk : signedUnits b ≠ 0 := by
    rw [ne_eq, signedUnits_eq_zero_iff, zb]
    decide
  rw [fadd, flush_of_not_subnormal (isSubnormal_of_isZero ha), flush_of_not_subnormal sb,
    addFlushed_of_isFinite (isFinite_of_isZero ha) hb, signedUnits_eq_zero_iff.2 ha, Int.zero_add,
    if_neg hk, decide_signedUnits_neg zb, natAbs_signedUnits, ← Nat.mul_one (units b)]
  exact roundResult_exact hb sb 1 Nat.one_pos

/-- Settles O56: the sum is symmetric class by class, and the other two laws are about exact sums, 0
and the value of b. -/
theorem additionLaws : Obligations.AdditionLaws :=
  fun a b => ⟨fadd_comm a b, fadd_fneg_self, fadd_of_isZero_left⟩

end Sys2Proof.Machine
end

/-! # The Coefficient Calculator (41_coefficient_calculator.md)

The datapath first: the three commands, the validity test, and the unity filter at gain 1.0. Then
the ideal designs: what symmetry, stability and the gains say of the exact equations. -/

/-! ## The calculator commands (R117 to R119) -/

section
namespace Sys2Proof.Machine

/-- `CALCLS` finishes with the low shelf of its operands (R117). -/
theorem exec_calcls (s : State) : exec .calcls s =
    .next (finishCalc 0x09000000#32 (calcLs s.opFs s.opF0 s.opQ s.opGain) s) := rfl

/-- `CALCHS` finishes with the high shelf of its operands (R118). -/
theorem exec_calchs (s : State) : exec .calchs s =
    .next (finishCalc 0x0A000000#32 (calcHs s.opFs s.opF0 s.opQ s.opGain) s) := rfl

/-- `CALCPK` finishes with the peak filter of its operands (R119). -/
theorem exec_calcpk (s : State) : exec .calcpk s =
    .next (finishCalc 0x0B000000#32 (calcPeak s.opFs s.opF0 s.opQ s.opGain) s) := rfl

/-- A designed set is staged, and the invocation counted (R117). -/
theorem finishCalc_some (w : Word) (c : CoefSet) (s : State) :
    finishCalc w (some c) s = { s with calcCount := s.calcCount + 1#32, cs := c } := rfl

/-- A rejected set leaves the staged one, and the rejection is recorded after the count (R117). -/
theorem finishCalc_none (w : Word) (s : State) :
    finishCalc w none s = { s with
      calcCount := s.calcCount + 1#32
      eInvParam := true, errCause := some .invalidParameter, errCmd := w } := rfl

/-! The verdict of each function on valid operands and on others (R111, R116). -/

section Verdict
variable {fs f0 q g : Word}

theorem calcLs_of_valid (h : calcValid fs f0 q g = true) :
    calcLs fs f0 q g = some (normalise (rawLowShelf (calcPrelude fs f0 g) q)) := if_pos h

theorem calcHs_of_valid (h : calcValid fs f0 q g = true) :
    calcHs fs f0 q g = some (normalise (rawHighShelf (calcPrelude fs f0 g) q)) := if_pos h

theorem calcPeak_of_valid (h : calcValid fs f0 q g = true) :
    calcPeak fs f0 q g = some (normalise (rawPeak (calcPrelude fs f0 g) q)) := if_pos h

theorem calcLs_of_not_valid (h : calcValid fs f0 q g = false) : calcLs fs f0 q g = none :=
  if_neg (Bool.eq_false_iff.1 h)

theorem calcHs_of_not_valid (h : calcValid fs f0 q g = false) : calcHs fs f0 q g = none :=
  if_neg (Bool.eq_false_iff.1 h)

theorem calcPeak_of_not_valid (h : calcValid fs f0 q g = false) : calcPeak fs f0 q g = none :=
  if_neg (Bool.eq_false_iff.1 h)

end Verdict

/-- Settles O23: the verdict, then what `CALCLS` does with it. -/
theorem calclsStagesTheLowShelf : Obligations.CalclsStagesTheLowShelf := by
  refine fun s => ⟨fun hvalid => ?_, fun hinvalid => ?_⟩
  · rw [exec_calcls, calcLs_of_valid hvalid, finishCalc_some]
    rfl
  · rw [exec_calcls, calcLs_of_not_valid hinvalid, finishCalc_none]

/-- Settles O24: the verdict, then what `CALCHS` does with it. -/
theorem calchsStagesTheHighShelf : Obligations.CalchsStagesTheHighShelf := by
  refine fun s => ⟨fun hvalid => ?_, fun hinvalid => ?_⟩
  · rw [exec_calchs, calcHs_of_valid hvalid, finishCalc_some]
    rfl
  · rw [exec_calchs, calcHs_of_not_valid hinvalid, finishCalc_none]

/-- Settles O25: the verdict, then what `CALCPK` does with it. -/
theorem calcpkStagesThePeak : Obligations.CalcpkStagesThePeak := by
  refine fun s => ⟨fun hvalid => ?_, fun hinvalid => ?_⟩
  · rw [exec_calcpk, calcPeak_of_valid hvalid, finishCalc_some]
    rfl
  · rw [exec_calcpk, calcPeak_of_not_valid hinvalid, finishCalc_none]

end Sys2Proof.Machine
end

/-! ## Valid operands (R111, R83) -/

section
namespace Sys2Proof.Machine

/-- A positive normal number: what each operand of the calculator has to be (R83, R111). -/
structure PositiveNormal (v : Word) : Prop where
  finite : isFinite v = true
  positive : signBit v = false
  nonzero : isZero v = false
  normal : isSubnormal v = false

theorem positiveNormal_iff {v : Word} : PositiveNormal v ↔
    isFinite v = true ∧ signBit v = false ∧ isZero v = false ∧ isSubnormal v = false :=
  ⟨fun ⟨hf, hs, hz, hn⟩ => ⟨hf, hs, hz, hn⟩, fun ⟨hf, hs, hz, hn⟩ => ⟨hf, hs, hz, hn⟩⟩

/-- A finite pattern passes the test against +0 when it is a positive normal number: a subnormal is
compared as a zero (R83, R92). -/
theorem finite_and_flt_posZero_iff {v : Word} :
    (isFinite v = true ∧ flt posZero v = true) ↔ PositiveNormal v := by
  have hzero : orderKey (flush posZero) = 0 := by decide
  have hflt : isNaN v = false → (flt posZero v = true ↔ 0 < orderKey (flush v)) := fun hnan => by
    simp [flt, hzero, hnan, show isNaN posZero = false by decide]
  constructor
  · rintro ⟨hfin, hlt⟩
    have hkey := (hflt (isNaN_of_isFinite hfin)).1 hlt
    have hnormal : isSubnormal v = false := by
      by_contra hsub
      rw [flush_of_subnormal (Bool.eq_true_of_not_eq_false hsub)] at hkey
      cases hs : signBit v <;> rw [hs] at hkey <;> exact absurd hkey (by decide)
    rw [flush_of_not_subnormal hnormal] at hkey
    rcases orderKey_sign v with ⟨_, hk⟩ | ⟨hz, hs, _⟩ | ⟨_, _, hk⟩
    · omega
    · exact ⟨hfin, hs, hz, hnormal⟩
    · omega
  · rintro ⟨hfin, hs, hz, hnormal⟩
    refine ⟨hfin, (hflt (isNaN_of_isFinite hfin)).2 ?_⟩
    rw [flush_of_not_subnormal hnormal]
    rcases orderKey_sign v with ⟨hz', _⟩ | ⟨_, _, hk⟩ | ⟨_, hs', _⟩
    · simp [hz] at hz'
    · exact hk
    · simp [hs] at hs'

/-- The nine tests, those of one operand put together (R111). -/
theorem calcValid_iff {fs f0 q g : Word} : calcValid fs f0 q g = true ↔
    (∀ v, v ∈ [fs, f0, q, g] → PositiveNormal v) ∧ flt f0 (fmul fs half) = true := by
  simp only [calcValid, Bool.and_eq_true, List.mem_cons, List.not_mem_nil, or_false,
    forall_eq_or_imp, forall_eq, ← finite_and_flt_posZero_iff]
  tauto

/-! The last test: where half the rate is a normal number it is exact; below that it rounds to at
most the least normal number, which no f0 is below. -/

theorem PositiveNormal.flush_eq {v : Word} (h : PositiveNormal v) : flush v = v :=
  flush_of_not_subnormal h.normal

theorem PositiveNormal.le_mag {v : Word} (h : PositiveNormal v) : 2 ^ 23 ≤ v.toNat % 2 ^ 31 := by
  have hz := h.nonzero
  have hn := h.normal
  rw [Bool.eq_false_iff, ne_eq, isZero_iff] at hz
  rw [Bool.eq_false_iff, ne_eq, isSubnormal_iff] at hn
  omega

/-- Two positive numbers compare as their magnitude patterns do (R80, R92). -/
theorem PositiveNormal.flt_iff {u v : Word} (hu : PositiveNormal u) (hnan : isNaN v = false)
    (hnormal : isSubnormal v = false) (hpos : signBit v = false) :
    flt u v = true ↔ u.toNat % 2 ^ 31 < v.toNat % 2 ^ 31 := by
  have hord : flt u v = true ↔ orderKey u < orderKey v := by
    simp [flt, isNaN_of_isFinite hu.finite, hnan, hu.flush_eq, flush_of_not_subnormal hnormal]
  simp only [hord, orderKey_eq, hu.positive, hpos, Bool.false_eq_true, if_false, Nat.cast_lt]

/-- A rate of the least exponent is below 2^24 units, so its half rounds to at most the least normal
number. -/
theorem fmul_half_le_of_least_exponent {v : Word} (hv : PositiveNormal v)
    (hexp : (expField v).toNat ≤ 1) :
    units v < 2 ^ 24 ∧ (fmul v half).toNat % 2 ^ 31 ≤ 2 ^ 23 := by
  have hlt : units v < 2 ^ 24 := by
    rw [units_eq_magUnits, show 2 ^ 24 = magUnits (2 ^ 24) by decide, magUnits_lt_iff]
    rw [expField_toNat_eq_mag] at hexp
    omega
  refine ⟨hlt, ?_⟩
  rw [fmul_of_isFinite hv.finite (by decide) hv.normal (by decide), roundResult_toNat_mod]
  calc resultMag (units v * units half) (2 ^ 149)
      ≤ resultMag (magUnits (2 ^ 23) * 2 ^ 149) (2 ^ 149) := by
        refine resultMag_mono (by norm_num) (by norm_num) (Nat.mul_le_mul_right _ ?_)
        rw [units_half, show magUnits (2 ^ 23) = 2 ^ 23 by decide]
        omega
    _ = 2 ^ 23 := by
        rw [← roundResult_toNat_mod false, roundResult_magUnits _ (.inr le_rfl) _ (by norm_num),
          packSign_mod _ _ (by norm_num)]
        norm_num

theorem flt_fmul_half_iff {fs f0 : Word} (hfs : PositiveNormal fs) (hf0 : PositiveNormal f0) :
    flt f0 (fmul fs half) = true ↔ 2 * units f0 < units fs := by
  have hprod := fmul_of_isFinite hfs.finite (b := half) (by decide) hfs.normal (by decide)
  obtain ⟨hnan, hnormal, hpos⟩ :=
    roundResult_class (signBit fs ^^ signBit half) (units fs * units half) (2 ^ 149)
  rw [← hprod] at hnan hnormal hpos
  rw [hf0.flt_iff hnan hnormal (by rw [hpos, hfs.positive]; decide)]
  rcases Nat.lt_or_ge 1 (expField fs).toNat with hexp | hexp
  case inl =>
    obtain ⟨-, -, hexact⟩ := fmul_half_exact hfs.finite hfs.normal (.inr hexp)
    rw [← magUnits_lt_iff, ← units_eq_magUnits, ← units_eq_magUnits, fmul_comm fs half]
    omega
  case inr =>
    obtain ⟨hlt, hle⟩ := fmul_half_le_of_least_exponent hfs hexp
    have hmag := hf0.le_mag
    have hunits : 2 ^ 23 ≤ units f0 := by
      rw [units_eq_magUnits, show 2 ^ 23 = magUnits (2 ^ 23) by decide, ← not_lt, magUnits_lt_iff]
      omega
    omega

/-- Settles O26: the tests operand by operand, then the test of f0 against half the rate. -/
theorem calcValidIsTheNineTests : Obligations.CalcValidIsTheNineTests := by
  intro fs f0 q g
  simp only [← positiveNormal_iff]
  refine ⟨calcValid_iff, fun h => flt_fmul_half_iff ?_ ?_⟩ <;> exact h _ (by simp)

end Sys2Proof.Machine
end

/-! ## Gain 1.0 (R120)

With A = 1.0 every product and quotient by A gives its operand back, so that each numerator is
computed as its denominator is. -/

section
namespace Sys2Proof.Machine

/-! ### The operations that gain 1.0 makes trivial, on infinities and NaNs too -/

theorem isInf_of_not_finite {x : Word} (hfin : isFinite x = false) (hnan : isNaN x = false) :
    isInf x = true := by
  simpa [isFinite_eq, hnan] using hfin

/-- What R84 and R85 ask of a result leaves three kinds: the canonical NaN, the two infinities, and
the finite numbers that are not subnormal. -/
theorem IsResult.cases {x : Word} (h : IsResult x) :
    x = qnan ∨ x = signedInf (signBit x) ∨ (isFinite x = true ∧ isSubnormal x = false) := by
  cases hnan : isNaN x
  case true => exact .inl (h.nan_canonical hnan)
  case false =>
    cases hfin : isFinite x
    case true => exact .inr (.inr ⟨rfl, h.not_subnormal⟩)
    case false => exact .inr (.inl (eq_signedInf_of_isInf (isInf_of_not_finite hfin hnan)))

/-- Multiplying by 1.0 gives every result back. -/
theorem IsResult.one_fmul {x : Word} (h : IsResult x) : fmul one x = x := by
  rcases h.cases with rfl | hinf | ⟨hfin, hsub⟩
  · decide
  · rw [hinf]
    cases signBit x <;> decide
  · exact Machine.one_fmul hfin hsub

/-- Dividing by 1.0 gives every result back. -/
theorem IsResult.fdiv_one {x : Word} (h : IsResult x) : fdiv x one = x := by
  rcases h.cases with rfl | hinf | ⟨hfin, hsub⟩
  · decide
  · rw [hinf]
    cases signBit x <;> decide
  · exact Machine.fdiv_one hfin hsub

/-- Adding +0 gives every result that is not a zero back. -/
theorem IsResult.posZero_fadd {x : Word} (h : IsResult x) (hz : isZero x = false) :
    fadd posZero x = x := by
  rcases h.cases with rfl | hinf | ⟨hfin, hsub⟩
  · decide
  · rw [hinf]
    cases signBit x <;> decide
  · exact fadd_of_isZero_left (by decide) hfin hsub hz

/-! ### Doubling (R88) and the sign (R91) -/

theorem fmul_flush_right (a b : Word) : fmul a (flush b) = fmul a b := by
  rw [fmul, fmul, flush_flush]

theorem fneg_packSign (s : Bool) {m : Nat} (hm : m ≤ 0x7F800000) :
    fneg (packSign s m) = packSign (!s) m := by
  have hmod := fun s => packSign_mod s m (by omega)
  have hsign := fun s => signBit_packSign s m (by omega)
  have hnan : isNaN (packSign s m) = false := by
    rw [Bool.eq_false_iff, ne_eq, isNaN_iff, hmod]
    omega
  apply word_ext
  · rw [signBit_fneg hnan, hsign, hsign]
  · rw [fneg_toNat_mod hnan, hmod, hmod]

/-- Doubling and negating commute. -/
theorem IsResult.fmul_two_fneg {x : Word} (h : IsResult x) :
    fmul two (fneg x) = fneg (fmul two x) := by
  rcases h.cases with rfl | hinf | ⟨hfin, hsub⟩
  · decide
  · rw [hinf]
    cases signBit x <;> decide
  · have hnan := isNaN_of_isFinite hfin
    rw [fmul_two hfin hsub, fmul_two (by rwa [isFinite_fneg]) (by rwa [isSubnormal_fneg]),
      fneg_packSign _ (Nat.min_le_right _ _), signBit_fneg hnan, fneg_toNat_mod hnan]

theorem IsResult.fneg {x : Word} (h : IsResult x) : IsResult (fneg x) :=
  ⟨by rw [isSubnormal_fneg, h.not_subnormal], fneg_eq_qnan_of_isNaN⟩

theorem IsResult.isZero_fneg {x : Word} (h : IsResult x) : isZero (Machine.fneg x) = isZero x := by
  rcases h.cases with rfl | hinf | ⟨hfin, _⟩
  · decide
  · rw [hinf]
    cases signBit x <;> decide
  · exact Machine.isZero_fneg (isNaN_of_isFinite hfin)

/-- The double of an operand is a zero when the operand acts as one. -/
theorem isZero_fmul_two (c : Word) : isZero (fmul two c) = isZero (flush c) := by
  rw [← fmul_flush_right]
  have hsub := isSubnormal_flush c
  generalize flush c = v at hsub
  cases hnan : isNaN v
  case true =>
    rw [fmul_of_isNaN (.inr hnan), show isZero qnan = false by decide, eq_comm, Bool.eq_false_iff]
    intro hz
    simp [isNaN_of_isFinite (isFinite_of_isZero hz)] at hnan
  case false =>
    cases hfin : isFinite v
    case false =>
      rw [eq_signedInf_of_isInf (isInf_of_not_finite hfin hnan)]
      cases signBit v <;> decide
    case true =>
      rw [Bool.eq_iff_iff, isZero_iff, isZero_iff, fmul_two hfin hsub, packSign_mod _ _ (by omega),
        doubleMag]
      split <;> omega

/-! ### The unnormalised values at A = 1.0 -/

/-- The peak's numerator is its denominator. -/
theorem rawPeak_unity {p : Prelude} (hA : p.A = one) (q : Word) :
    (rawPeak p q).b0 = (rawPeak p q).a0 ∧ (rawPeak p q).b1 = (rawPeak p q).a1 ∧
      (rawPeak p q).b2 = (rawPeak p q).a2 := by
  have halpha := isResult_fdiv p.s (fmul two q)
  simp only [rawPeak, hA, fmul_comm _ one, halpha.one_fmul, halpha.fdiv_one, and_self]

/-- The product of +0 and any c is a zero or the canonical NaN. -/
theorem fmul_posZero_cases (c : Word) :
    (∃ s, fmul posZero c = signedZero s) ∨ fmul posZero c = qnan := by
  cases hnan : isNaN c
  case true => exact .inr (fmul_of_isNaN (.inr hnan))
  case false =>
    cases hfin : isFinite c
    case false => exact .inr (fmul_of_isZero_of_isInf (by decide) (isInf_of_not_finite hfin hnan))
    case true =>
      rw [← fmul_flush_right, fmul_of_isFinite (by decide) (by rwa [isFinite_flush]) (by decide)
        (isSubnormal_flush c), show units posZero = 0 by decide, Nat.zero_mul, roundResult_zero]
      exact .inl ⟨_, rfl⟩

theorem fsub_two_fmul_posZero (c : Word) :
    fsub two (fmul posZero c) = fadd two (fmul posZero c) := by
  rcases fmul_posZero_cases c with ⟨s, hs⟩ | hqnan
  · rw [hs]
    cases s <;> decide
  · rw [hqnan]
    decide

/-- The terms of a shelf: A - 1 is +0 and A + 1 is 2, so m is p. -/
theorem shelfTerms_unity {p : Prelude} (hA : p.A = one) (q : Word) :
    (shelfTerms p q).Am1 = posZero ∧ (shelfTerms p q).Ap1c = fmul two p.c ∧
      (shelfTerms p q).m = (shelfTerms p q).p := by
  have hsub : fsub one one = posZero := by decide
  have hadd : fadd one one = two := by decide
  simp only [shelfTerms, hA, hsub, hadd, fsub_two_fmul_posZero, and_self]

/-- What R120 says of a shelf's values, before they are normalised. -/
structure UnityShelf (c : Word) (r : RawSet) : Prop where
  a0_result : IsResult r.a0
  b0_eq : r.b0 = r.a0
  b2_eq : r.b2 = r.a2
  b1_eq : isZero (flush c) = false → r.b1 = r.a1
  zeros : isZero (flush c) = true → isZero r.b1 = true ∧ isZero r.a1 = true

/-- The two middle values of the shelves, which the high shelf has the other way round. -/
theorem middle_unity (c : Word) :
    (isZero (flush c) = false → fmul two (fsub posZero (fmul two c)) =
      fneg (fmul two (fadd posZero (fmul two c)))) ∧
    (isZero (flush c) = true → isZero (fmul two (fsub posZero (fmul two c))) = true ∧
      isZero (fneg (fmul two (fadd posZero (fmul two c)))) = true) := by
  have hy := isResult_fmul two c
  rw [← isZero_fmul_two]
  generalize fmul two c = y at hy
  refine ⟨fun hz => ?_, fun hz => ?_⟩
  · have hz' : isZero (fneg y) = false := by rw [hy.isZero_fneg, hz]
    rw [fsub, hy.posZero_fadd hz, hy.fneg.posZero_fadd hz', hy.fmul_two_fneg]
  · rw [eq_signedZero_of_isZero hz]
    cases signBit y <;> decide

theorem fmul_two_one : fmul two one = two := by decide

theorem unityShelf_low {p : Prelude} (hA : p.A = one) (q : Word) :
    UnityShelf p.c (rawLowShelf p q) := by
  obtain ⟨hAm1, hAp1c, hm⟩ := shelfTerms_unity hA q
  obtain ⟨hne, hzero⟩ := middle_unity p.c
  simp only [rawLowShelf, hA, fmul_two_one, hAm1, hAp1c, hm]
  exact {
    a0_result := isResult_fadd _ _
    b0_eq := (isResult_fadd _ _).one_fmul
    b2_eq := (isResult_fsub _ _).one_fmul
    b1_eq := hne
    zeros := hzero }

theorem unityShelf_high {p : Prelude} (hA : p.A = one) (q : Word) :
    UnityShelf p.c (rawHighShelf p q) := by
  obtain ⟨hAm1, hAp1c, hm⟩ := shelfTerms_unity hA q
  obtain ⟨hne, hzero⟩ := middle_unity p.c
  simp only [rawHighShelf, hA, fmul_two_one, hAm1, hAp1c, hm]
  exact {
    a0_result := isResult_fadd _ _
    b0_eq := (isResult_fadd _ _).one_fmul
    b2_eq := (isResult_fsub _ _).one_fmul
    b1_eq := fun hz => (hne hz).symm
    zeros := fun hz => (hzero hz).symm }

/-! ### Normalised -/

/-- A zero over a finite divisor that is not a zero is a zero (R89). -/
theorem isZero_fdiv {a b : Word} (ha : isZero a = true) (hb : isFinite b = true)
    (sb : isSubnormal b = false) (zb : isZero b = false) : isZero (fdiv a b) = true := by
  rw [fdiv_of_isFinite (isFinite_of_isZero ha) hb (isSubnormal_of_isZero ha) sb zb,
    units_eq_zero_iff.2 ha, Nat.zero_mul, roundResult_zero, isZero_signedZero]

theorem UnityShelf.normalise {c : Word} {r : RawSet} (h : UnityShelf c r)
    (hfin : isFinite r.a0 = true) (hz : isZero r.a0 = false) :
    (normalise r).b0 = one ∧ (normalise r).b2 = (normalise r).a2 ∧
      (isZero (flush c) = false → (normalise r).b1 = (normalise r).a1) ∧
      (isZero (flush c) = true →
        isZero (normalise r).b1 = true ∧ isZero (normalise r).a1 = true) := by
  have hsub := h.a0_result.not_subnormal
  simp only [Machine.normalise, h.b0_eq, h.b2_eq, fdiv_self hfin hsub hz, true_and]
  refine ⟨fun hc => by rw [h.b1_eq hc], fun hc => ?_⟩
  obtain ⟨hb1, ha1⟩ := h.zeros hc
  exact ⟨isZero_fdiv hb1 hfin hsub hz, isZero_fdiv ha1 hfin hsub hz⟩

theorem fsqrt_one : fsqrt one = one := by decide

/-- Settles O27: the unnormalised values at A = 1.0, normalised; and A is 1.0 as √1 is. -/
theorem unityAtGainOne : Obligations.UnityAtGainOne := by
  refine ⟨fun p q hA => ⟨?_, ?_⟩, fun fs f0 q hvalid => ?_⟩
  · rintro r rfl hfin hz
    obtain ⟨hb0, hb1, hb2⟩ := rawPeak_unity hA q
    have ha0 : IsResult (rawPeak p q).a0 := isResult_fadd _ _
    simp only [normalise, hb0, hb1, hb2, fdiv_self hfin ha0.not_subnormal hz, and_self]
  · rintro r (rfl | rfl) hfin hz
    · exact (unityShelf_low hA q).normalise hfin hz
    · exact (unityShelf_high hA q).normalise hfin hz
  · exact ⟨fsqrt_one, calcPeak_of_valid hvalid, calcLs_of_valid hvalid, calcHs_of_valid hvalid⟩

end Sys2Proof.Machine
end

/-! ## Boost and cut of the ideal designs (R124) -/

section
namespace Sys2Proof.Ideal

variable {K : Type} [Field K]

/-- The high shelf is the low shelf with the frequency axis turned round, c and z⁻¹ negated (R114,
R115). -/
theorem highShelf_num (A c beta x : K) :
    (highShelf A c beta).num x = (lowShelf A (-c) beta).num (-x) := by
  simp only [Raw.num, highShelf, lowShelf]
  ring

theorem highShelf_den (A c beta x : K) :
    (highShelf A c beta).den x = (lowShelf A (-c) beta).den (-x) := by
  simp only [Raw.den, highShelf, lowShelf]
  ring

end Sys2Proof.Ideal
end

section
namespace Sys2Proof.Ideal

variable {K : Type} [Field K] {A : K}

theorem peak_inv_num (hA : A ≠ 0) (c alpha x : K) :
    (peak A⁻¹ c alpha).num x = (peak A c alpha).den x := by
  simp only [Raw.num, Raw.den, peak]
  field_simp

theorem peak_inv_den (hA : A ≠ 0) (c alpha x : K) :
    (peak A⁻¹ c alpha).den x = (peak A c alpha).num x := by
  rw [← peak_inv_num (inv_ne_zero hA), inv_inv]

theorem lowShelf_inv_num (hA : A ≠ 0) (c beta x : K) :
    A ^ 2 * (lowShelf A⁻¹ c (beta / A)).num x = (lowShelf A c beta).den x := by
  simp only [Raw.num, Raw.den, lowShelf]
  field_simp
  ring

theorem lowShelf_inv_den (hA : A ≠ 0) (c beta x : K) :
    A ^ 2 * (lowShelf A⁻¹ c (beta / A)).den x = (lowShelf A c beta).num x := by
  rw [← lowShelf_inv_num (inv_ne_zero hA), inv_inv, div_inv_eq_mul, div_mul_cancel₀ _ hA,
    ← mul_assoc, ← mul_pow, mul_inv_cancel₀ hA, one_pow, one_mul]

/-- Settles O60: each numerator of the inverse gain is the other design's denominator; the
denominators follow as inverting A twice gives A back. -/
theorem idealBoostCutSymmetry : Obligations.IdealBoostCutSymmetry := by
  intro K _ A c alpha beta x hA
  simp only [highShelf_num, highShelf_den]
  exact ⟨⟨peak_inv_num hA c alpha x, peak_inv_den hA c alpha x⟩,
    ⟨lowShelf_inv_num hA c beta x, lowShelf_inv_den hA c beta x⟩,
    lowShelf_inv_num hA (-c) beta (-x), lowShelf_inv_den hA (-c) beta (-x)⟩

end Sys2Proof.Ideal
end

/-! ## The ideal designs on the unit circle (R121, R122)

First the polynomials over any field, at z⁻¹ = 1, -1 and c - j·s. -/

section
namespace Sys2Proof.Ideal

variable {K : Type} [Field K]

theorem peak_num_one (A c alpha : K) : (peak A c alpha).num 1 = 2 * (1 - c) := by
  simp only [Raw.num, peak]
  ring

theorem peak_den_one (A c alpha : K) : (peak A c alpha).den 1 = 2 * (1 - c) := by
  simp only [Raw.den, peak]
  ring

theorem peak_num_neg_one (A c alpha : K) : (peak A c alpha).num (-1) = 2 * (1 + c) := by
  simp only [Raw.num, peak]
  ring

theorem peak_den_neg_one (A c alpha : K) : (peak A c alpha).den (-1) = 2 * (1 + c) := by
  simp only [Raw.den, peak]
  ring

theorem lowShelf_num_one (A c beta : K) : (lowShelf A c beta).num 1 = 4 * A ^ 2 * (1 - c) := by
  simp only [Raw.num, lowShelf]
  ring

theorem lowShelf_den_one (A c beta : K) : (lowShelf A c beta).den 1 = 4 * (1 - c) := by
  simp only [Raw.den, lowShelf]
  ring

theorem lowShelf_num_neg_one (A c beta : K) :
    (lowShelf A c beta).num (-1) = 4 * A * (1 + c) := by
  simp only [Raw.num, lowShelf]
  ring

theorem lowShelf_den_neg_one (A c beta : K) :
    (lowShelf A c beta).den (-1) = 4 * A * (1 + c) := by
  simp only [Raw.den, lowShelf]
  ring

theorem highShelf_num_one (A c beta : K) : (highShelf A c beta).num 1 = 4 * A * (1 - c) := by
  rw [highShelf_num, lowShelf_num_neg_one]
  ring

theorem highShelf_den_one (A c beta : K) : (highShelf A c beta).den 1 = 4 * A * (1 - c) := by
  rw [highShelf_den, lowShelf_den_neg_one]
  ring

theorem highShelf_num_neg_one (A c beta : K) :
    (highShelf A c beta).num (-1) = 4 * A ^ 2 * (1 + c) := by
  rw [highShelf_num, neg_neg, lowShelf_num_one]
  ring

theorem highShelf_den_neg_one (A c beta : K) :
    (highShelf A c beta).den (-1) = 4 * (1 + c) := by
  rw [highShelf_den, neg_neg, lowShelf_den_one]
  ring

/-! At the centre frequency z⁻¹ = c - j·s comes out of every polynomial; what remains of the peak's
two is a multiple of alpha·A and of alpha/A, and of a shelf's two a pair of numbers that differ in
the sign of their real part. -/

variable {c s j : K}

theorem peak_num_centre (hcs : c * c + s * s = 1) (hj : j * j = -1) (A alpha : K) :
    (peak A c alpha).num (c - j * s) = (c - j * s) * (2 * j * alpha * A * s) := by
  simp only [Raw.num, peak]
  linear_combination (1 + alpha * A) * (s * s * hj - hcs)

theorem peak_den_centre (hcs : c * c + s * s = 1) (hj : j * j = -1) (A alpha : K) :
    (peak A c alpha).den (c - j * s) = (c - j * s) * (2 * j * (alpha / A) * s) := by
  simp only [Raw.den, peak]
  linear_combination (1 + alpha / A) * (s * s * hj - hcs)

theorem lowShelf_num_centre (hcs : c * c + s * s = 1) (hj : j * j = -1) (A beta : K) :
    (lowShelf A c beta).num (c - j * s) =
      (c - j * s) * (2 * A * (j * (beta * s) + (A - 1) * s ^ 2)) := by
  simp only [Raw.num, lowShelf]
  linear_combination A * ((A + 1) - (A - 1) * c + beta) * (s * s * hj - hcs) -
    2 * A * (A - 1) * (c - j * s) * hcs

theorem lowShelf_den_centre (hcs : c * c + s * s = 1) (hj : j * j = -1) (A beta : K) :
    (lowShelf A c beta).den (c - j * s) =
      (c - j * s) * (2 * (j * (beta * s) - (A - 1) * s ^ 2)) := by
  simp only [Raw.den, lowShelf]
  linear_combination ((A + 1) + (A - 1) * c + beta) * (s * s * hj - hcs) +
    2 * (A - 1) * (c - j * s) * hcs

theorem highShelf_num_centre (hcs : c * c + s * s = 1) (hj : j * j = -1) (A beta : K) :
    (highShelf A c beta).num (c - j * s) =
      (c - j * s) * (2 * A * (j * (beta * s) - (A - 1) * s ^ 2)) := by
  rw [highShelf_num, show -(c - j * s) = -c - -j * s by ring,
    lowShelf_num_centre (by rwa [neg_mul_neg]) (by rwa [neg_mul_neg])]
  ring

theorem highShelf_den_centre (hcs : c * c + s * s = 1) (hj : j * j = -1) (A beta : K) :
    (highShelf A c beta).den (c - j * s) =
      (c - j * s) * (2 * (j * (beta * s) + (A - 1) * s ^ 2)) := by
  rw [highShelf_den, show -(c - j * s) = -c - -j * s by ring,
    lowShelf_den_centre (by rwa [neg_mul_neg]) (by rwa [neg_mul_neg])]
  ring

end Sys2Proof.Ideal
end

/-! ## Stability of the ideal designs (R123)

a2 and a1 lie inside the triangle of stable filters because a0 ± a2 and a0 ± a1 + a2 are sums of
positive terms. -/

section
namespace Sys2Proof.Ideal

variable {K : Type} [Field K] [LinearOrder K] [IsStrictOrderedRing K]

/-- The triangle of the stable filters, before normalisation (R116, R123). -/
def Raw.IsStable (r : Raw K) : Prop := |r.a2| < r.a0 ∧ |r.a1| < r.a0 + r.a2

theorem Raw.IsStable.a0_pos {r : Raw K} (h : r.IsStable) : 0 < r.a0 := (abs_nonneg _).trans_lt h.1

theorem abs_normalise_lt {r : Raw K} (h : r.IsStable) :
    |(normalise r).a2| < 1 ∧ |(normalise r).a1| < 1 + (normalise r).a2 := by
  have h0 := h.a0_pos
  obtain ⟨h2, h1⟩ := h
  simp only [normalise, abs_div, abs_of_pos h0]
  refine ⟨(div_lt_one h0).2 h2, ?_⟩
  rwa [one_add_div h0.ne', div_lt_div_iff_of_pos_right h0]

variable {A c x : K}

theorem isStable_peak (hA : 0 < A) (hc : -1 < c) (hc' : c < 1) (hx : 0 < x) :
    (peak A c x).IsStable := by
  have hxA : 0 < x / A := div_pos hx hA
  simp only [Raw.IsStable, peak, abs_lt]
  refine ⟨⟨?_, ?_⟩, ?_, ?_⟩ <;> linarith

theorem isStable_lowShelf (hA : 0 < A) (hc : -1 < c) (hc' : c < 1) (hx : 0 < x) :
    (lowShelf A c x).IsStable := by
  have hsum : 0 < A * (1 + c) := mul_pos hA (by linarith)
  simp only [Raw.IsStable, lowShelf, abs_lt]
  refine ⟨⟨?_, ?_⟩, ?_, ?_⟩ <;> linarith

theorem isStable_highShelf (hA : 0 < A) (hc : -1 < c) (hc' : c < 1) (hx : 0 < x) :
    (highShelf A c x).IsStable := by
  have hsum : 0 < A * (1 - c) := mul_pos hA (by linarith)
  simp only [Raw.IsStable, highShelf, abs_lt]
  refine ⟨⟨?_, ?_⟩, ?_, ?_⟩ <;> linarith

end Sys2Proof.Ideal
end

/-! ## The gains of the ideal designs (R121, R122) -/

section
namespace Sys2Proof.Ideal

/-- The frequency w on the unit circle, as z⁻¹ (R121). -/
theorem exp_neg_I_mul (w : ℝ) :
    Complex.exp (-(Complex.I * w)) = (Real.cos w : ℂ) - Complex.I * (Real.sin w : ℂ) := by
  rw [← mul_neg, mul_comm, Complex.exp_mul_I, Complex.cos_neg, Complex.sin_neg, Complex.ofReal_cos,
    Complex.ofReal_sin]
  ring

/-- The magnitude of a normalised filter, from the sizes of its two polynomials. -/
theorem norm_response_eq {r : Raw ℂ} (h0 : r.a0 ≠ 0) {x : ℂ} (hden : r.den x ≠ 0) {k : ℝ}
    (hnum : ‖r.num x‖ = k * ‖r.den x‖) : ‖(normalise r).response x‖ = k := by
  rw [response_normalise h0, norm_div, hnum, mul_div_cancel_right₀ _ (norm_ne_zero_iff.2 hden)]

theorem norm_response_of_num_eq {r : Raw ℂ} (h0 : r.a0 ≠ 0) {x : ℂ} (hden : r.den x ≠ 0) {k : ℝ}
    (hk : 0 ≤ k) (hnum : r.num x = k * r.den x) : ‖(normalise r).response x‖ = k :=
  norm_response_eq h0 hden (by rw [hnum, norm_mul, Complex.norm_of_nonneg hk])

/-- Numbers that differ in the sign of their real part alone are of one size. -/
theorem norm_I_mul_add (u v : ℝ) : ‖Complex.I * (u : ℂ) + v‖ = ‖Complex.I * (u : ℂ) - v‖ := by
  rw [← Complex.norm_conj, ← norm_neg, map_add, map_mul, Complex.conj_I, Complex.conj_ofReal,
    Complex.conj_ofReal]
  congr 1
  ring

theorem I_mul_add_ne_zero {u : ℝ} (hu : 0 < u) (v : ℝ) : Complex.I * (u : ℂ) + v ≠ 0 := by
  intro h
  have him : u = 0 := by simpa using congrArg Complex.im h
  exact hu.ne' him

/-- The cosine and the sine of an angle inside (0, π). -/
structure UpperAngle (c s : ℝ) : Prop where
  sin_pos : 0 < s
  sq_add_sq : c * c + s * s = 1

theorem upperAngle_of_mem_Ioo {w : ℝ} (h0 : 0 < w) (hpi : w < Real.pi) :
    UpperAngle (Real.cos w) (Real.sin w) where
  sin_pos := Real.sin_pos_of_pos_of_lt_pi h0 hpi
  sq_add_sq := by rw [← pow_two, ← pow_two, Real.cos_sq_add_sin_sq]

section Gains

/-! `beta` stands for the peak's alpha as well; of either only the sign matters here. -/

variable {A c s beta : ℝ} (hA : 0 < A) (hcs : UpperAngle c s) (hb : 0 < beta)

include hcs

theorem UpperAngle.cos_mem : -1 < c ∧ c < 1 := by
  obtain ⟨hs, hsq⟩ := hcs
  constructor <;> nlinarith

theorem UpperAngle.sq_add_sq_complex : (c : ℂ) * c + (s : ℂ) * s = 1 := by
  exact_mod_cast hcs.sq_add_sq

theorem UpperAngle.one_sub_cos_ne_zero : (1 - c : ℂ) ≠ 0 := by
  exact_mod_cast (sub_pos.2 hcs.cos_mem.2).ne'

theorem UpperAngle.one_add_cos_ne_zero : (1 + c : ℂ) ≠ 0 := by
  exact_mod_cast (neg_lt_iff_pos_add'.1 hcs.cos_mem.1).ne'

theorem UpperAngle.centre_ne_zero : (c : ℂ) - Complex.I * s ≠ 0 := by
  intro h
  apply I_mul_add_ne_zero hcs.sin_pos (-c)
  push_cast
  linear_combination -h

include hA hb

theorem peak_a0_ne_zero : (peak (A : ℂ) c beta).a0 ≠ 0 := by
  have h := (isStable_peak hA hcs.cos_mem.1 hcs.cos_mem.2 hb).a0_pos.ne'
  simp only [peak] at h ⊢
  exact_mod_cast h

theorem lowShelf_a0_ne_zero : (lowShelf (A : ℂ) c beta).a0 ≠ 0 := by
  have h := (isStable_lowShelf hA hcs.cos_mem.1 hcs.cos_mem.2 hb).a0_pos.ne'
  simp only [lowShelf] at h ⊢
  exact_mod_cast h

theorem highShelf_a0_ne_zero : (highShelf (A : ℂ) c beta).a0 ≠ 0 := by
  have h := (isStable_highShelf hA hcs.cos_mem.1 hcs.cos_mem.2 hb).a0_pos.ne'
  simp only [highShelf] at h ⊢
  exact_mod_cast h

/-! ### The peak filter: 1 at both ends, A² at its centre (R121) -/

theorem norm_peak_one : ‖(normalise (peak (A : ℂ) c beta)).response 1‖ = 1 := by
  refine norm_response_of_num_eq (peak_a0_ne_zero hA hcs hb) ?_ zero_le_one ?_
  · rw [peak_den_one]
    exact mul_ne_zero two_ne_zero hcs.one_sub_cos_ne_zero
  · rw [peak_num_one, peak_den_one, Complex.ofReal_one, one_mul]

theorem norm_peak_neg_one : ‖(normalise (peak (A : ℂ) c beta)).response (-1)‖ = 1 := by
  refine norm_response_of_num_eq (peak_a0_ne_zero hA hcs hb) ?_ zero_le_one ?_
  · rw [peak_den_neg_one]
    exact mul_ne_zero two_ne_zero hcs.one_add_cos_ne_zero
  · rw [peak_num_neg_one, peak_den_neg_one, Complex.ofReal_one, one_mul]

theorem norm_peak_centre :
    ‖(normalise (peak (A : ℂ) c beta)).response (c - Complex.I * s)‖ = A ^ 2 := by
  have hA' : (A : ℂ) ≠ 0 := Complex.ofReal_ne_zero.2 hA.ne'
  have hb' : (beta : ℂ) ≠ 0 := Complex.ofReal_ne_zero.2 hb.ne'
  have hs' : (s : ℂ) ≠ 0 := Complex.ofReal_ne_zero.2 hcs.sin_pos.ne'
  have hsq := hcs.sq_add_sq_complex
  refine norm_response_of_num_eq (peak_a0_ne_zero hA hcs hb) ?_ (sq_nonneg A) ?_
  · rw [peak_den_centre hsq Complex.I_mul_I]
    exact mul_ne_zero hcs.centre_ne_zero
      (mul_ne_zero (mul_ne_zero (mul_ne_zero two_ne_zero Complex.I_ne_zero) (div_ne_zero hb' hA'))
        hs')
  · rw [peak_num_centre hsq Complex.I_mul_I, peak_den_centre hsq Complex.I_mul_I]
    push_cast
    field_simp

/-! ### The low shelf: A² at frequency 0, 1 at fs/2, A at its centre (R122) -/

theorem norm_lowShelf_one : ‖(normalise (lowShelf (A : ℂ) c beta)).response 1‖ = A ^ 2 := by
  refine norm_response_of_num_eq (lowShelf_a0_ne_zero hA hcs hb) ?_ (sq_nonneg A) ?_
  · rw [lowShelf_den_one]
    exact mul_ne_zero (OfNat.ofNat_ne_zero 4) hcs.one_sub_cos_ne_zero
  · rw [lowShelf_num_one, lowShelf_den_one]
    push_cast
    ring

theorem norm_lowShelf_neg_one : ‖(normalise (lowShelf (A : ℂ) c beta)).response (-1)‖ = 1 := by
  have hA' : (A : ℂ) ≠ 0 := Complex.ofReal_ne_zero.2 hA.ne'
  refine norm_response_of_num_eq (lowShelf_a0_ne_zero hA hcs hb) ?_ zero_le_one ?_
  · rw [lowShelf_den_neg_one]
    exact mul_ne_zero (mul_ne_zero (OfNat.ofNat_ne_zero 4) hA') hcs.one_add_cos_ne_zero
  · rw [lowShelf_num_neg_one, lowShelf_den_neg_one, Complex.ofReal_one, one_mul]

omit hA in
/-- What remains of a shelf's polynomials at its centre: two numbers of one size, not zero. -/
theorem shelf_centre_terms :
    (Complex.I * (beta * s) + (A - 1) * s ^ 2 : ℂ) ≠ 0 ∧
    (Complex.I * (beta * s) - (A - 1) * s ^ 2 : ℂ) ≠ 0 ∧
    ‖(Complex.I * (beta * s) + (A - 1) * s ^ 2 : ℂ)‖ =
      ‖(Complex.I * (beta * s) - (A - 1) * s ^ 2 : ℂ)‖ := by
  have hu : 0 < beta * s := mul_pos hb hcs.sin_pos
  have hne := I_mul_add_ne_zero hu ((A - 1) * s ^ 2)
  have hne' := I_mul_add_ne_zero hu (-((A - 1) * s ^ 2))
  have hnorm := norm_I_mul_add (beta * s) ((A - 1) * s ^ 2)
  push_cast at hne hne' hnorm
  exact ⟨hne, by rwa [sub_eq_add_neg], hnorm⟩

theorem norm_lowShelf_centre :
    ‖(normalise (lowShelf (A : ℂ) c beta)).response (c - Complex.I * s)‖ = A := by
  have hsq := hcs.sq_add_sq_complex
  obtain ⟨-, hne, hnorm⟩ := shelf_centre_terms (A := A) hcs hb
  refine norm_response_eq (lowShelf_a0_ne_zero hA hcs hb) ?_ ?_
  · rw [lowShelf_den_centre hsq Complex.I_mul_I]
    exact mul_ne_zero hcs.centre_ne_zero (mul_ne_zero two_ne_zero hne)
  · rw [lowShelf_num_centre hsq Complex.I_mul_I, lowShelf_den_centre hsq Complex.I_mul_I]
    simp only [norm_mul, hnorm, Complex.norm_of_nonneg hA.le]
    ring

/-! ### The high shelf: 1 at frequency 0, A² at fs/2, A at its centre (R122) -/

theorem norm_highShelf_one : ‖(normalise (highShelf (A : ℂ) c beta)).response 1‖ = 1 := by
  have hA' : (A : ℂ) ≠ 0 := Complex.ofReal_ne_zero.2 hA.ne'
  refine norm_response_of_num_eq (highShelf_a0_ne_zero hA hcs hb) ?_ zero_le_one ?_
  · rw [highShelf_den_one]
    exact mul_ne_zero (mul_ne_zero (OfNat.ofNat_ne_zero 4) hA') hcs.one_sub_cos_ne_zero
  · rw [highShelf_num_one, highShelf_den_one, Complex.ofReal_one, one_mul]

theorem norm_highShelf_neg_one :
    ‖(normalise (highShelf (A : ℂ) c beta)).response (-1)‖ = A ^ 2 := by
  refine norm_response_of_num_eq (highShelf_a0_ne_zero hA hcs hb) ?_ (sq_nonneg A) ?_
  · rw [highShelf_den_neg_one]
    exact mul_ne_zero (OfNat.ofNat_ne_zero 4) hcs.one_add_cos_ne_zero
  · rw [highShelf_num_neg_one, highShelf_den_neg_one]
    push_cast
    ring

theorem norm_highShelf_centre :
    ‖(normalise (highShelf (A : ℂ) c beta)).response (c - Complex.I * s)‖ = A := by
  have hsq := hcs.sq_add_sq_complex
  obtain ⟨hne, -, hnorm⟩ := shelf_centre_terms (A := A) hcs hb
  refine norm_response_eq (highShelf_a0_ne_zero hA hcs hb) ?_ ?_
  · rw [highShelf_den_centre hsq Complex.I_mul_I]
    exact mul_ne_zero hcs.centre_ne_zero (mul_ne_zero two_ne_zero hne)
  · rw [highShelf_num_centre hsq Complex.I_mul_I, highShelf_den_centre hsq Complex.I_mul_I]
    simp only [norm_mul, hnorm, Complex.norm_of_nonneg hA.le]
    ring

end Gains

end Sys2Proof.Ideal
end

section
namespace Sys2Proof.Ideal

/-- Settles O58: the polynomials at the three points, then the magnitudes with A = √g. -/
theorem idealGainsOfTheThreeDesigns : Obligations.IdealGainsOfTheThreeDesigns := by
  refine ⟨fun K _ A alpha g c s j hA hg hcs hj => ?_, fun K _ A c beta => ?_,
    fun g w0 alpha beta hg hw hpi halpha hbeta => ?_⟩
  · have hnum := peak_num_centre hcs hj A alpha
    have hden := peak_den_centre hcs hj A alpha
    refine ⟨hnum, hden, ?_, ?_, ?_⟩
    · rw [hnum, hden, ← hg]
      field_simp
    · rw [peak_num_one, peak_den_one]
    · rw [peak_num_neg_one, peak_den_neg_one]
  · exact ⟨lowShelf_num_one A c beta, lowShelf_den_one A c beta, lowShelf_num_neg_one A c beta,
      lowShelf_den_neg_one A c beta, highShelf_num_one A c beta, highShelf_den_one A c beta,
      highShelf_num_neg_one A c beta, highShelf_den_neg_one A c beta⟩
  · have hA : 0 < Real.sqrt g := Real.sqrt_pos.2 hg
    have hsq : Real.sqrt g ^ 2 = g := Real.sq_sqrt hg.le
    have hcs := upperAngle_of_mem_Ioo hw hpi
    dsimp only
    rw [exp_neg_I_mul, norm_peak_centre hA hcs halpha, norm_lowShelf_one hA hcs hbeta,
      norm_highShelf_neg_one hA hcs hbeta, hsq]
    exact ⟨norm_peak_one hA hcs halpha, norm_peak_neg_one hA hcs halpha, rfl, rfl,
      norm_lowShelf_neg_one hA hcs hbeta, norm_lowShelf_centre hA hcs hbeta,
      norm_highShelf_one hA hcs hbeta, rfl, norm_highShelf_centre hA hcs hbeta⟩

end Sys2Proof.Ideal
end

/-! ## The high shelf far below its centre (R188)

At 200 Hz the high shelf of R188 is close to magnitude 1: how close, from rational bounds on A, on
c = cos w0 and on p = sin²(w/2). -/

section
namespace Sys2Proof.Ideal

/-- The squared magnitude of the numerator at the frequency with p = sin²(w/2). -/
def Raw.numPower (r : Raw ℝ) (p : ℝ) : ℝ := power r.b0 r.b1 r.b2 p

/-- The squared magnitude of the denominator at the frequency with p = sin²(w/2). -/
def Raw.denPower (r : Raw ℝ) (p : ℝ) : ℝ := power r.a0 r.a1 r.a2 p

/-- The squared magnitude of a high shelf is the ratio of the two, where cos w = 1 - 2·p. -/
theorem norm_sq_highShelf {A c beta p w : ℝ} (h0 : (highShelf (A : ℂ) c beta).a0 ≠ 0)
    (hp : Real.cos w = 1 - 2 * p) (hden : 0 < (highShelf A c beta).denPower p) :
    ‖(normalise (highShelf (A : ℂ) c beta)).response (Complex.exp (-(Complex.I * w)))‖ ^ 2 *
      (highShelf A c beta).denPower p = (highShelf A c beta).numPower p := by
  set x : ℂ := Complex.exp (-(Complex.I * w)) with hx
  have hpow : ∀ b0 b1 b2 : ℝ, ‖(b0 : ℂ) + b1 * x + b2 * x ^ 2‖ ^ 2 = power b0 b1 b2 p :=
    fun b0 b1 b2 => by
      rw [hx, exp_neg_I_mul, ← Complex.normSq_eq_norm_sq,
        normSq_eq_power b0 b1 b2 p (Real.cos_sq_add_sin_sq w) hp]
  have hnum : (highShelf (A : ℂ) c beta).num x = (highShelf A c beta).b0 +
      (highShelf A c beta).b1 * x + (highShelf A c beta).b2 * x ^ 2 := by
    simp only [Raw.num, highShelf]
    push_cast
    rfl
  have hden' : (highShelf (A : ℂ) c beta).den x = (highShelf A c beta).a0 +
      (highShelf A c beta).a1 * x + (highShelf A c beta).a2 * x ^ 2 := by
    simp only [Raw.den, highShelf]
    push_cast
    rfl
  rw [response_normalise h0, norm_div, div_pow, hnum, hden', hpow, hpow]
  exact div_mul_cancel₀ _ hden.ne'

/-- A product of two positive numbers lies between the products of their bounds. -/
theorem mul_bounds {x y l u l' u' : ℝ} (hl : 0 ≤ l) (hl' : 0 ≤ l') (hx : l < x ∧ x < u)
    (hy : l' < y ∧ y < u') : l * l' < x * y ∧ x * y < u * u' :=
  ⟨mul_lt_mul'' hx.1 hy.1 hl hl',
    mul_lt_mul'' hx.2 hy.2 (hl.trans hx.1.le) (hl'.trans hy.1.le)⟩

/-- Rational bounds on the high shelf of R188, at the frequency with p = sin²(w/2). -/
structure NearScenario (A c beta p : ℝ) : Prop where
  A_gt : 0.7079 < A
  A_lt : A < 0.7080
  c_gt : -0.1390 < c
  c_lt : c < -0.1382
  p_gt : 0.00020297 < p
  p_lt : p < 0.000203
  beta_sq : beta ^ 2 = A * (1 - c ^ 2) / 0.707 ^ 2

variable {A c beta p : ℝ}

/-- The intervals of the terms of `highShelf_power_sub`. -/
theorem NearScenario.terms (h : NearScenario A c beta p) :
    (0.4987 < 1 - A ^ 2 ∧ 1 - A ^ 2 < 0.4989) ∧
    (0.6941 < A * (1 - c ^ 2) ∧ A * (1 - c ^ 2) < 0.6946) ∧
    (2.7798 < ((A + 1) - (A - 1) * c) ^ 2 ∧ ((A + 1) - (A - 1) * c) ^ 2 < 2.7811) ∧
    1.5315 < A ^ 2 * ((A + 1) + (A - 1) * c) ^ 2 ∧
      A ^ 2 * ((A + 1) + (A - 1) * c) ^ 2 < 1.5328 := by
  have hA := And.intro h.A_gt h.A_lt
  have hsub : 0.2920 < 1 - A ∧ 1 - A < 0.2921 := by constructor <;> linarith
  have hneg : 0.1382 < -c ∧ -c < 0.1390 := by constructor <;> linarith [h.c_gt, h.c_lt]
  have hAA := mul_bounds (by norm_num) (by norm_num) hA hA
  have hcc := mul_bounds (by norm_num) (by norm_num) hneg hneg
  have hAc := mul_bounds (by norm_num) (by norm_num) hsub hneg
  have hsin : 0.9806 < 1 - c ^ 2 ∧ 1 - c ^ 2 < 0.9810 := by constructor <;> linarith
  have hm : 1.66729 < (A + 1) - (A - 1) * c ∧ (A + 1) - (A - 1) * c < 1.66765 := by
    constructor <;> linarith
  have hq : 1.74825 < (A + 1) + (A - 1) * c ∧ (A + 1) + (A - 1) * c < 1.74861 := by
    constructor <;> linarith
  have hAq := mul_bounds (by norm_num) (by norm_num) hA hq
  have hW := mul_bounds (by norm_num) (by norm_num) hA hsin
  have hmm := mul_bounds (by norm_num) (by norm_num) hm hm
  have hqq := mul_bounds (by norm_num) (by norm_num) hAq hAq
  norm_num at hAA hW hmm hqq
  refine ⟨⟨?_, ?_⟩, ⟨?_, ?_⟩, ⟨?_, ?_⟩, ?_, ?_⟩ <;> linarith

/-- The difference of the squared magnitudes, as `highShelf_power_sub` writes it. -/
theorem NearScenario.power_sub_bounds (h : NearScenario A c beta p) :
    0.00000104 < (highShelf A c beta).denPower p - (highShelf A c beta).numPower p ∧
    (highShelf A c beta).denPower p - (highShelf A c beta).numPower p < 0.00000105 := by
  obtain ⟨⟨hF, hF'⟩, ⟨hW, hW'⟩, ⟨hm, hm'⟩, hq, hq'⟩ := h.terms
  have hp := h.p_gt
  have hp' := h.p_lt
  rw [Raw.denPower, Raw.numPower, highShelf_power_sub, h.beta_sq]
  generalize A ^ 2 * ((A + 1) + (A - 1) * c) ^ 2 = q at *
  generalize ((A + 1) - (A - 1) * c) ^ 2 = m at *
  rw [mul_assoc 2 A]
  generalize A * (1 - c ^ 2) = W at *
  generalize 1 - A ^ 2 = F at *
  have hFW := mul_bounds (by norm_num) (by norm_num) ⟨hF, hF'⟩ ⟨hW, hW'⟩
  generalize hk : F * W = k at hFW
  have hE : 0.5535 < m - q - k / 0.707 ^ 2 ∧ m - q - k / 0.707 ^ 2 < 0.5573 := by
    constructor <;> norm_num <;> linarith
  generalize hr : m - q - k / 0.707 ^ 2 = r at hE
  have hD : 16 * p * F * (W / 0.707 ^ 2 - 2 * W) + 16 * p ^ 2 * (m - q - F * (W / 0.707 ^ 2)) =
      16 * p * (k * (302 / 499849) + p * r) := by
    rw [← hr, ← hk]
    ring
  rw [hD]
  have hpr := mul_bounds (by norm_num) (by norm_num) ⟨hp, hp'⟩ hE
  have hsum : 0.00032148 < k * (302 / 499849) + p * r ∧
      k * (302 / 499849) + p * r < 0.00032251 := by
    constructor <;> linarith
  have hall := mul_bounds (by norm_num) (by norm_num) ⟨hp, hp'⟩ hsum
  constructor <;> linarith

/-- The denominator's squared magnitude, nearly the (4·A·(1 - c))² of frequency 0. -/
theorem NearScenario.power_den_bounds (h : NearScenario A c beta p) :
    10.36 < (highShelf A c beta).denPower p ∧ (highShelf A c beta).denPower p < 10.42 := by
  obtain ⟨-, ⟨hW, hW'⟩, ⟨hm, hm'⟩, -⟩ := h.terms
  obtain ⟨hA, hA', hc, hc', hp, hp', hbeta⟩ := h
  have hsplit : (highShelf A c beta).denPower p =
      16 * (A * (1 - c) * (A * (1 - c))) -
        16 * (p * (((A + 1) - (A - 1) * c) * ((A - 1) - (A + 1) * c) +
          (1 - p) * (((A + 1) - (A - 1) * c) ^ 2 - beta ^ 2))) := by
    simp only [Raw.denPower, power, highShelf]
    ring
  have hAc := mul_bounds (by norm_num) (by norm_num) ⟨hA, hA'⟩
    (⟨by linarith, by linarith⟩ : 0.1382 < -c ∧ -c < 0.1390)
  have hlead : 0.8057 < A * (1 - c) ∧ A * (1 - c) < 0.8065 := by constructor <;> linarith
  have hcross : |((A + 1) - (A - 1) * c) * ((A - 1) - (A + 1) * c)| < 1 := by
    have hfst : |(A + 1) - (A - 1) * c| < 2 := abs_lt.2 (by constructor <;> linarith)
    have hsnd : |(A - 1) - (A + 1) * c| < 0.5 := abs_lt.2 (by constructor <;> linarith)
    rw [abs_mul]
    linarith [mul_lt_mul'' hfst hsnd (abs_nonneg _) (abs_nonneg _)]
  have hdiff : 1.3 < ((A + 1) - (A - 1) * c) ^ 2 - beta ^ 2 ∧
      ((A + 1) - (A - 1) * c) ^ 2 - beta ^ 2 < 1.5 := by
    rw [hbeta]
    constructor <;> norm_num <;> linarith
  obtain ⟨hcross, hcross'⟩ := abs_lt.1 hcross
  rw [hsplit]
  generalize ((A + 1) - (A - 1) * c) * ((A - 1) - (A + 1) * c) = u at *
  generalize ((A + 1) - (A - 1) * c) ^ 2 - beta ^ 2 = v at *
  have hv := mul_bounds (by norm_num) (by norm_num)
    (⟨by linarith, by linarith⟩ : 0.99 < 1 - p ∧ 1 - p < 1) hdiff
  have huv : 0 < u + (1 - p) * v ∧ u + (1 - p) * v < 3 := by constructor <;> linarith
  have hrest := mul_bounds (by norm_num) (by norm_num) ⟨hp, hp'⟩ huv
  have hsquare := mul_bounds (by norm_num) (by norm_num) hlead hlead
  constructor <;> linarith

/-- What the bounds leave of the high shelf's magnitude: 5·10⁻⁸ below 1. -/
theorem NearScenario.norm_bounds (h : NearScenario A c beta p)
    (h0 : (highShelf (A : ℂ) c beta).a0 ≠ 0) {w : ℝ} (hw : Real.cos w = 1 - 2 * p) {H : ℝ}
    (hH : ‖(normalise (highShelf (A : ℂ) c beta)).response (Complex.exp (-(Complex.I * w)))‖ = H) :
    1 - 0.0000000521 < H ∧ H < 1 - 0.0000000496 := by
  obtain ⟨hden, hden'⟩ := h.power_den_bounds
  obtain ⟨hsub, hsub'⟩ := h.power_sub_bounds
  have hsq := norm_sq_highShelf h0 hw (lt_trans (by norm_num) hden)
  rw [hH] at hsq
  have hpos : 0 ≤ H := hH ▸ norm_nonneg _
  generalize (highShelf A c beta).denPower p = d at *
  rw [← hsq] at hsub hsub'
  have hsq_gt : 1 - 0.000000104 < H ^ 2 := by nlinarith
  have hsq_lt : H ^ 2 < 1 - 0.0000000995 := by nlinarith
  constructor
  · refine lt_of_pow_lt_pow_left₀ 2 hpos (lt_of_le_of_lt ?_ hsq_gt)
    norm_num
  · refine lt_of_pow_lt_pow_left₀ 2 (by norm_num) (hsq_lt.trans_le ?_)
    norm_num

end Sys2Proof.Ideal
end

/-! ## The scenario of R188

44100 Hz, gains +6 dB, 0 dB and -6 dB, a sine of 200 Hz: rational bounds on the square roots of the
gains, on the high shelf's cosine and on the sine's half angle. -/

section
namespace Sys2Proof.Ideal

theorem rpow_div_twenty_pow (x : ℝ) : ((10 : ℝ) ^ (x / 20)) ^ 20 = 10 ^ x := by
  rw [← Real.rpow_natCast, ← Real.rpow_mul (by norm_num)]
  norm_num

/-- The square root of a gain in decibels (R100, R112). -/
theorem sqrt_rpow_div_twenty {x y : ℝ} (h : x = 2 * y) :
    Real.sqrt ((10 : ℝ) ^ (x / 20)) = 10 ^ (y / 20) := by
  rw [h, Real.sqrt_eq_rpow, ← Real.rpow_mul (by norm_num)]
  congr 1
  ring

theorem rpow_three_bounds :
    1.4125375446 < (10 : ℝ) ^ ((3 : ℝ) / 20) ∧ (10 : ℝ) ^ ((3 : ℝ) / 20) < 1.4125375447 := by
  have hpow := rpow_div_twenty_pow 3
  have hpos : (0 : ℝ) < 10 ^ ((3 : ℝ) / 20) := by positivity
  constructor
  · refine lt_of_pow_lt_pow_left₀ 20 hpos.le ?_
    rw [hpow]
    norm_num
  · refine lt_of_pow_lt_pow_left₀ 20 (by norm_num) ?_
    rw [hpow]
    norm_num

theorem rpow_neg_three_bounds :
    0.7079 < (10 : ℝ) ^ ((-3 : ℝ) / 20) ∧ (10 : ℝ) ^ ((-3 : ℝ) / 20) < 0.7080 := by
  obtain ⟨hlt, hgt⟩ := rpow_three_bounds
  rw [neg_div, Real.rpow_neg (by norm_num)]
  constructor
  · rw [lt_inv_comm₀ (by norm_num) (by linarith)]
    exact hgt.trans (by norm_num)
  · rw [inv_lt_comm₀ (by linarith) (by norm_num)]
    exact lt_trans (by norm_num) hlt

theorem sin_bounds {x l u : ℝ} (hl : 0 < l) (hx : l < x) (hu : x < u) :
    l - u ^ 3 / 6 < Real.sin x ∧ Real.sin x < u := by
  have hx0 := hl.trans hx
  have hcube : x ^ 3 < u ^ 3 := pow_lt_pow_left₀ hu hx0.le (by norm_num)
  exact ⟨by linarith [Real.sin_gt_sub_cube hx0], (Real.sin_lt hx0).trans hu⟩

/-- The high shelf's frequency is a little above a quarter of the rate. -/
theorem cos_high_bounds : -0.1390 < Real.cos (2 * Real.pi * 12000 / 44100) ∧
    Real.cos (2 * Real.pi * 12000 / 44100) < -0.1382 := by
  have hangle : 2 * Real.pi * 12000 / 44100 = 13 / 294 * Real.pi + Real.pi / 2 := by ring
  obtain ⟨hlo, hhi⟩ := sin_bounds (x := 13 / 294 * Real.pi) (l := 0.1389) (u := 0.139)
    (by norm_num) (by linarith [Real.pi_gt_d6]) (by linarith [Real.pi_lt_d6])
  rw [hangle, Real.cos_add_pi_div_two]
  norm_num at hlo hhi ⊢
  constructor <;> linarith

theorem sin_half_low_bounds : 0.00020297 < Real.sin (2 * Real.pi / 441) ^ 2 ∧
    Real.sin (2 * Real.pi / 441) ^ 2 < 0.000203 := by
  have hsin := sin_bounds (x := 2 * Real.pi / 441) (l := 0.0142475) (u := 0.0142476)
    (by norm_num) (by linarith [Real.pi_gt_d6]) (by linarith [Real.pi_lt_d6])
  have hsq := mul_bounds (by norm_num) (by norm_num) hsin hsin
  rw [pow_two]
  norm_num at hsq ⊢
  constructor <;> linarith

theorem cos_low_eq :
    Real.cos (2 * Real.pi * 200 / 44100) = 1 - 2 * Real.sin (2 * Real.pi / 441) ^ 2 := by
  rw [show 2 * Real.pi * 200 / 44100 = 2 * (2 * Real.pi / 441) by ring, Real.cos_two_mul]
  linarith [Real.sin_sq_add_cos_sq (2 * Real.pi / 441)]

end Sys2Proof.Ideal
end

/-! ## The chain of the ideal designs (R123, R188) -/

section
namespace Sys2Proof.Ideal

/-- A frequency up to 12000 Hz is below half of every rate that `PREPARE` accepts (R153). -/
theorem upperAngle_of_rate {fs hz : ℝ} (hfs : 24000 < fs) (hpos : 0 < hz) (hle : hz ≤ 12000) :
    UpperAngle (Real.cos (2 * Real.pi * hz / fs)) (Real.sin (2 * Real.pi * hz / fs)) := by
  have hfs0 : 0 < fs := lt_trans (by norm_num) hfs
  refine upperAngle_of_mem_Ioo (by positivity) ?_
  rw [div_lt_iff₀ hfs0]
  linarith [mul_lt_mul_of_pos_left (show 2 * hz < fs by linarith) Real.pi_pos]

/-- A low shelf at its own frequency has the square root of its gain (R122). -/
theorem norm_map_lowShelf_centre {A beta w : ℝ} (hA : 0 < A)
    (hcs : UpperAngle (Real.cos w) (Real.sin w)) (hb : 0 < beta) :
    ‖((normalise (lowShelf A (Real.cos w) beta)).map Complex.ofReal).response
      (Complex.exp (-(Complex.I * w)))‖ = A := by
  rw [map_normalise_lowShelf, exp_neg_I_mul, norm_lowShelf_centre hA hcs hb]

/-- A peak filter with A = 1 passes every frequency unchanged. -/
theorem norm_map_peak_unity {A c s alpha : ℝ} (hA : A = 1) (hcs : UpperAngle c s)
    (ha : 0 < alpha) (w : ℝ) :
    ‖((normalise (peak A c alpha)).map Complex.ofReal).response
      (Complex.exp (-(Complex.I * w)))‖ = 1 := by
  subst hA
  have hstable := isStable_peak one_pos hcs.cos_mem.1 hcs.cos_mem.2 ha
  obtain ⟨h2, h1⟩ := abs_normalise_lt hstable
  have hz : ‖Complex.exp (-(Complex.I * w))‖ = 1 := by
    rw [← mul_neg, mul_comm, ← Complex.ofReal_neg, Complex.norm_exp_ofReal_mul_I]
  have hden := response_den_ne_zero h2 h1 hz
  have hb0 : (normalise (peak 1 c alpha)).b0 = 1 := by
    have ha0 := hstable.a0_pos.ne'
    simp only [normalise, peak, div_one, mul_one] at ha0 ⊢
    exact div_self ha0
  have hb1 : (normalise (peak 1 c alpha)).b1 = (normalise (peak 1 c alpha)).a1 := rfl
  have hb2 : (normalise (peak 1 c alpha)).b2 = (normalise (peak 1 c alpha)).a2 := by
    simp only [normalise, peak, div_one, mul_one]
  simp only [Coefs.response, Coefs.map, hb0, hb1, hb2, Complex.ofReal_one]
  rw [div_self hden, norm_one]

theorem shelf_beta_pos {g s : ℝ} (hg : 0 < g) (hs : 0 < s) :
    0 < Real.sqrt (Real.sqrt g) * s / 0.707 := by positivity

/-- The high shelf of R188 meets the bounds that its magnitude at 200 Hz follows from. -/
theorem nearScenario_highShelf {A : ℝ} (hA : A = 10 ^ ((-3 : ℝ) / 20)) :
    NearScenario A (Real.cos (2 * Real.pi * 12000 / 44100))
      (Real.sqrt A * Real.sin (2 * Real.pi * 12000 / 44100) / 0.707)
      (Real.sin (2 * Real.pi / 441) ^ 2) where
  A_gt := hA ▸ rpow_neg_three_bounds.1
  A_lt := hA ▸ rpow_neg_three_bounds.2
  c_gt := cos_high_bounds.1
  c_lt := cos_high_bounds.2
  p_gt := sin_half_low_bounds.1
  p_lt := sin_half_low_bounds.2
  beta_sq := by
    have hpos : 0 ≤ A := hA ▸ by positivity
    rw [div_pow, mul_pow, Real.sq_sqrt hpos, Real.sin_sq]

/-- The figures of R188, from the exact magnitude of the low shelf and the bounds on the high
shelf's. -/
theorem scenario_figures {G H : ℝ} (hG : 1.4125375446 < G ∧ G < 1.4125375447)
    (hH : 1 - 0.0000000521 < H ∧ H < 1 - 0.0000000496) :
    |H - 1| < 0.00005 ∧ |G * 1 * H - 1.41253747| < 0.000000005 ∧
      |0.5 * G * 1 * H - 0.70626874| < 0.000000005 := by
  have hGH := mul_bounds (by norm_num) (by norm_num) hG hH
  simp only [abs_lt, mul_one, mul_assoc]
  norm_num at hG hH hGH ⊢
  refine ⟨⟨?_, ?_⟩, ⟨?_, ?_⟩, ?_, ?_⟩ <;> linarith

end Sys2Proof.Ideal
end

section
namespace Sys2Proof.Ideal

/-- Settles O59: the three designs are stable, so the chain settles; the figures are the low shelf's
own gain, a peak with A = 1, and the bounds on the high shelf. -/
theorem idealDesignsAreStableAndTheChainSettles :
    Obligations.IdealDesignsAreStableAndTheChainSettles := by
  refine ⟨fun K _ _ _ A c x hA hc hc' hx r hr => ?_,
    fun fs gL gM gH q f a phase hfs hgL hgM hgH hq => ?_⟩
  · simp only [List.mem_cons, List.not_mem_nil, or_false] at hr
    apply abs_normalise_lt
    rcases hr with rfl | rfl | rfl
    · exact isStable_peak hA hc hc' hx
    · exact isStable_lowShelf hA hc hc' hx
    · exact isStable_highShelf hA hc hc' hx
  · intro w beta ls pk hs mag
    have hlow := upperAngle_of_rate hfs (hz := 200) (by norm_num) (by norm_num)
    have hmid := upperAngle_of_rate hfs (hz := 4000) (by norm_num) (by norm_num)
    have hhigh := upperAngle_of_rate hfs (hz := 12000) (by norm_num) (by norm_num)
    have hbetaL := shelf_beta_pos hgL hlow.sin_pos
    have hbetaH := shelf_beta_pos hgH hhigh.sin_pos
    have halpha : 0 < alpha (Real.sin (w 4000)) q := div_pos hmid.sin_pos (by linarith)
    have hAL := Real.sqrt_pos.2 hgL
    have hAM := Real.sqrt_pos.2 hgM
    have hAH := Real.sqrt_pos.2 hgH
    have hstableL := isStable_lowShelf hAL hlow.cos_mem.1 hlow.cos_mem.2 hbetaL
    have hstableM := isStable_peak hAM hmid.cos_mem.1 hmid.cos_mem.2 halpha
    have hstableH := isStable_highShelf hAH hhigh.cos_mem.1 hhigh.cos_mem.2 hbetaH
    refine ⟨chainOutput_settles (abs_normalise_lt hstableL) (abs_normalise_lt hstableM)
      (abs_normalise_lt hstableH) (w f) a phase _ rfl, ?_⟩
    rintro rfl rfl rfl rfl rfl rfl rfl
    have hsqrtL := sqrt_rpow_div_twenty (x := 6) (y := 3) (by norm_num)
    have hsqrtH := sqrt_rpow_div_twenty (x := -6) (y := -3) (by norm_num)
    have hmagL : mag ls = 10 ^ ((3 : ℝ) / 20) :=
      (norm_map_lowShelf_centre hAL hlow hbetaL).trans hsqrtL
    have hmagM : mag pk = 1 := norm_map_peak_unity (by norm_num) hmid halpha (w 200)
    have hmagH := (nearScenario_highShelf hsqrtH).norm_bounds (H := mag hs)
      (highShelf_a0_ne_zero hAH hhigh hbetaH) cos_low_eq (by rw [← map_normalise_highShelf])
    rw [hmagL, hmagM]
    exact ⟨rfl, rfl, scenario_figures rpow_three_bounds hmagH⟩

end Sys2Proof.Ideal
end

/-! # The Biquad Filter (42_biquad_filter.md)

The three commands first, then what one step of the datapath does with a NaN and with the
coefficients of a unity filter, and last the ideal filter. -/

/-! ## The filter commands (R133 to R135) -/

section
namespace Sys2Proof.Machine

theorem exec_bqstep_of_legal {ch : BitVec 4} (hch : ch.toNat < Config.nch) (b : Band) (s : State) :
    exec (.bqstep b ch) s = .next (stepFilter b ch.toNat s) := by
  simp only [exec, execBqstep, chLegal_iff.2 hch, if_true]

theorem exec_bqreset_of_legal {ch : BitVec 4} (hch : ch.toNat < Config.nch) (b : Band)
    (s : State) : exec (.bqreset b ch) s = .next (setDelay ch.toNat b Delay.zero s) := by
  simp only [exec, execBqreset, chLegal_iff.2 hch, if_true]

theorem exec_ldcoef (b : Band) (s : State) :
    exec (.ldcoef b) s = .next { s with coef := s.coef.set b s.cs } := rfl

/-- A delay pair written is that pair, and the pairs of the other filters, on the same channel and
on the others, are as before (R19). -/
theorem chanDelay_setDelay_get {ch : Nat} (hch : ch < Config.nch) (b : Band) (d : Delay) (s : State)
    (c' : Nat) (b' : Band) : (chanDelay (setDelay ch b d s) c').get b' =
      if c' = ch ∧ b' = b then d else (chanDelay s c').get b' := by
  by_cases hc : c' = ch
  · subst hc
    simp only [chanDelay_setDelay_same hch, PerBand.get_set, true_and]
  · simp only [chanDelay_setDelay_other hc, hc, false_and, if_false]

/-- Settles O28: an accepted `BQSTEP` writes one delay pair and `RES_Y`. -/
theorem bqstepComputesOneSample : Obligations.BqstepComputesOneSample := by
  intro b ch s hch co st y
  have hget := chanDelay_setDelay_get hch b (bqStep co st s.opX).2 s
  exact ⟨_, exec_bqstep_of_legal hch b s, rfl, (hget _ _).trans (if_pos ⟨rfl, rfl⟩),
    fun c' b' hne => (hget c' b').trans (if_neg hne)⟩

/-- Settles O29: an accepted `BQRESET` writes one delay pair. -/
theorem bqresetZeroesOneFilter : Obligations.BqresetZeroesOneFilter := by
  intro b ch s hch
  have hget := chanDelay_setDelay_get hch b Delay.zero s
  exact ⟨_, exec_bqreset_of_legal hch b s, rfl, (hget _ _).trans (if_pos ⟨rfl, rfl⟩),
    fun c' b' hne => (hget c' b').trans (if_neg hne)⟩

/-- Settles O30: the band's set becomes the staged set, and the other bands' stay. -/
theorem ldcoefMovesTheStagedSet : Obligations.LdcoefMovesTheStagedSet := by
  intro b s
  have hget := PerBand.get_set s.coef b
  have hband : (s.coef.set b s.cs).get b = s.cs := (hget b s.cs).trans (if_pos rfl)
  refine ⟨_, exec_ldcoef b s, rfl, ?_⟩
  simp only [hband, true_and]
  exact fun b' hne => (hget b' s.cs).trans (if_neg hne)

end Sys2Proof.Machine
end

/-! ## A NaN in a filter (R137) -/

section
namespace Sys2Proof.Machine

/-- Both new registers take a product with the output, so a NaN output makes them NaNs too. -/
theorem bqStep_of_output_qnan {co : CoefSet} {st : Delay} {x : Word}
    (h : fadd (fmul co.b0 x) st.s1 = qnan) :
    bqStep co st x = (qnan, { s1 := qnan, s2 := qnan }) := by
  have hprod : ∀ a, fmul a qnan = qnan := fun a => fmul_of_isNaN (.inr (by decide))
  have hdiff : ∀ u, fsub u qnan = qnan := fun u => fsub_of_isNaN (.inr (by decide))
  have hsum : ∀ v, fadd qnan v = qnan := fun v => fadd_of_isNaN (.inl (by decide))
  simp only [bqStep, h, hprod, hdiff, hsum]

/-- Settles O31: the NaN reaches the output through the product with b0 or through s1, and from
there both registers; s2 is added into the new s1. -/
theorem nanPoisonsTheFilter : Obligations.NaNPoisonsTheFilter := by
  intro co st x
  refine ⟨fun h => bqStep_of_output_qnan ?_, fun h => fadd_of_isNaN (.inr h)⟩
  rcases h with hx | hs1
  · rw [fmul_of_isNaN (.inr hx)]
    exact fadd_of_isNaN (.inl (by decide))
  · exact fadd_of_isNaN (.inr hs1)

end Sys2Proof.Machine
end

/-! ## Equal values (R92)

`feq` says that two patterns have one value: once flushed they are the same pattern, or zeros whose
signs may differ. Products of equal values are equal, and the difference of two equal finite values
is a zero. -/

section
namespace Sys2Proof.Machine

/-- Only the two zeros share a place in the order (R92). -/
theorem orderKey_inj_iff {u v : Word} :
    orderKey u = orderKey v ↔ u = v ∨ (isZero u = true ∧ isZero v = true) := by
  rw [isZero_iff, isZero_iff]
  constructor
  · intro h
    rw [orderKey_eq, orderKey_eq] at h
    by_cases hs : signBit u = signBit v
    · refine .inl (word_ext hs ?_)
      rw [hs] at h
      split at h <;> omega
    · refine .inr ?_
      rw [Bool.eq_not.2 hs] at h
      cases hv : signBit v <;> simp only [hv, Bool.not_true, Bool.not_false, Bool.false_eq_true,
        if_true, if_false] at h <;> omega
  · rintro (rfl | ⟨hu, hv⟩)
    · rfl
    · simp only [orderKey_eq, hu, hv, Int.natCast_zero, Int.neg_zero, ite_self]

theorem feq_iff {u v : Word} : feq u v = true ↔ (isNaN u = false ∧ isNaN v = false) ∧
    (flush u = flush v ∨ (isZero (flush u) = true ∧ isZero (flush v) = true)) := by
  simp only [feq, Bool.and_eq_true, Bool.not_eq_true', decide_eq_true_eq, orderKey_inj_iff]

theorem feq_self {v : Word} (h : isNaN v = false) : feq v v = true :=
  feq_iff.2 ⟨⟨h, h⟩, .inl rfl⟩

theorem feq_symm {u v : Word} (h : feq u v = true) : feq v u = true := by
  obtain ⟨⟨hu, hv⟩, hvalue⟩ := feq_iff.1 h
  exact feq_iff.2 ⟨⟨hv, hu⟩, hvalue.imp Eq.symm And.symm⟩

theorem feq_of_isZero {u v : Word} (hu : isZero u = true) (hv : isZero v = true) :
    feq u v = true := by
  refine feq_iff.2 ⟨⟨isNaN_of_isFinite (isFinite_of_isZero hu),
    isNaN_of_isFinite (isFinite_of_isZero hv)⟩, .inr ?_⟩
  rw [flush_of_not_subnormal (isSubnormal_of_isZero hu),
    flush_of_not_subnormal (isSubnormal_of_isZero hv)]
  exact ⟨hu, hv⟩

theorem isFinite_of_feq {u v : Word} (h : feq u v = true) (hu : isFinite u = true) :
    isFinite v = true := by
  obtain ⟨_, heq | ⟨_, hv⟩⟩ := feq_iff.1 h
  · rwa [← isFinite_flush, ← heq, isFinite_flush]
  · exact isFinite_of_isZero_flush hv

variable {a b x y : Word}

/-- The product of finite numbers is that of the flushed ones, rounded once (R83, R88). -/
theorem fmul_eq_roundResult (ha : isFinite a = true) (hb : isFinite b = true) :
    fmul a b = roundResult (signBit (flush a) ^^ signBit (flush b))
      (units (flush a) * units (flush b)) (2 ^ 149) := by
  rw [← fmul_flush_right, fmul_comm, ← fmul_flush_right, fmul_comm]
  exact fmul_of_isFinite (by rwa [isFinite_flush]) (by rwa [isFinite_flush])
    (isSubnormal_flush a) (isSubnormal_flush b)

theorem isZero_fmul (ha : isFinite a = true) (hb : isFinite b = true)
    (hz : isZero (flush a) = true ∨ isZero (flush b) = true) : isZero (fmul a b) = true := by
  have hunits : units (flush a) * units (flush b) = 0 := by
    rwa [Nat.mul_eq_zero, units_eq_zero_iff, units_eq_zero_iff]
  rw [fmul_eq_roundResult ha hb, hunits, roundResult_zero, isZero_signedZero]

/-- Products of equal finite values are equal, though an infinity where they overflow. -/
theorem feq_fmul (hab : feq a b = true) (hxy : feq x y = true) (ha : isFinite a = true)
    (hx : isFinite x = true) : feq (fmul a x) (fmul b y) = true := by
  have hb := isFinite_of_feq hab ha
  have hy := isFinite_of_feq hxy hx
  rcases (feq_iff.1 hab).2 with hflush | ⟨za, zb⟩
  · rcases (feq_iff.1 hxy).2 with hflush' | ⟨zx, zy⟩
    · have hprod : fmul b y = fmul a x := by rw [fmul, fmul, hflush, hflush']
      have hnan : isNaN (fmul a x) = false := by
        rw [fmul_eq_roundResult ha hx]
        exact (roundResult_class _ _ _).1
      rw [hprod]
      exact feq_self hnan
    · exact feq_of_isZero (isZero_fmul ha hx (.inr zx)) (isZero_fmul hb hy (.inr zy))
  · exact feq_of_isZero (isZero_fmul ha hx (.inl za)) (isZero_fmul hb hy (.inl zb))

/-- The difference of two equal finite values is a zero. -/
theorem isZero_fsub_of_feq (h : feq a b = true) (ha : isFinite a = true) :
    isZero (fsub a b) = true := by
  have hvalue : signedUnits (flush a) = signedUnits (flush b) := by
    rcases (feq_iff.1 h).2 with hflush | ⟨za, zb⟩
    · rw [hflush]
    · rw [signedUnits_eq_zero_iff.2 za, signedUnits_eq_zero_iff.2 zb]
  have hb : isFinite (flush b) = true := by rw [isFinite_flush]; exact isFinite_of_feq h ha
  rw [fsub, fadd, flush_fneg, addFlushed_of_isFinite (by rwa [isFinite_flush])
    (by rwa [isFinite_fneg]), signedUnits_fneg (isNaN_of_isFinite hb), hvalue, Int.add_right_neg,
    if_pos rfl]
  exact isZero_signedZero _

theorem isZero_fadd (ha : isZero a = true) (hb : isZero b = true) : isZero (fadd a b) = true := by
  rw [fadd, flush_of_not_subnormal (isSubnormal_of_isZero ha),
    flush_of_not_subnormal (isSubnormal_of_isZero hb),
    addFlushed_of_isFinite (isFinite_of_isZero ha) (isFinite_of_isZero hb),
    signedUnits_eq_zero_iff.2 ha, signedUnits_eq_zero_iff.2 hb, if_pos (by decide)]
  exact isZero_signedZero _

end Sys2Proof.Machine
end

/-! ## The unity filter (R139) -/

section
namespace Sys2Proof.Machine

/-- A zero in s1 leaves the sample as it is, or, at a sample that is a zero, may change its sign. -/
theorem unity_output_value {x s1 : Word} (hx : isFinite x = true) (sx : isSubnormal x = false)
    (hs1 : isZero s1 = true) :
    feq (fadd x s1) x = true ∧ (isZero x = false → fadd x s1 = x) := by
  have hsame : isZero x = false → fadd x s1 = x := fun zx =>
    (fadd_comm x s1).trans (fadd_of_isZero_left hs1 hx sx zx)
  refine ⟨?_, hsame⟩
  cases zx : isZero x
  case true => exact feq_of_isZero (isZero_fadd zx hs1) zx
  case false =>
    rw [hsame zx]
    exact feq_self (isNaN_of_isFinite hx)

/-- Settles O32: the output is the sample's value, so that the products with a1 and a2 have the
values of those with b1 and b2, and their differences are zeros. -/
theorem unityFilterPassesSamplesExactly : Obligations.UnityFilterPassesSamplesExactly := by
  intro co st x hb0 hfinite hb1a1 hb2a2 ⟨hs1, hs2⟩ hx sx hprod1 hprod2
  obtain ⟨_, hb1, hb2, _, _⟩ := hfinite
  have hy : (bqStep co st x).1 = fadd x st.s1 := by rw [bqStep, hb0, one_fmul hx sx]
  obtain ⟨hvalue, hsame⟩ := unity_output_value hx sx hs1
  rw [← hy] at hvalue hsame
  have hdiff : ∀ {b a : Word}, feq b a = true → isFinite b = true → isFinite (fmul b x) = true →
      isZero (fsub (fmul b x) (fmul a (bqStep co st x).1)) = true := fun hba hb hprod =>
    isZero_fsub_of_feq (feq_fmul hba (feq_symm hvalue) hb hx) hprod
  exact ⟨hvalue, hsame, isZero_fadd (hdiff hb1a1 hb1 hprod1) hs2, hdiff hb2a2 hb2 hprod2⟩

end Sys2Proof.Machine
end

/-! ## The ideal filter (R132) -/

section
namespace Sys2Proof.Ideal

variable {K : Type} [CommRing K]

@[simp] theorem before_zero (x : Nat → K) (d : Nat) : before x 0 (d + 1) = 0 := rfl

@[simp] theorem before_self (x : Nat → K) (n : Nat) : before x n 0 = x n := rfl

@[simp] theorem before_succ (x : Nat → K) (n d : Nat) :
    before x (n + 1) (d + 1) = before x n d := by
  simp only [before, Nat.add_lt_add_iff_right, Nat.add_sub_add_right]

/-- Before a step the second register holds the products with the sample one step back (R132). -/
theorem regs_snd (co : Coefs K) (x : Nat → K) (n : Nat) : (regs co x n).2 =
    co.b2 * before x n 1 - co.a2 * before (output co x) n 1 := by
  cases n with
  | zero => simp [regs]
  | succ n => simp only [before_succ, before_self]; rfl

/-- Before a step the first register holds the products with the samples one step and two steps back
(R132). -/
theorem regs_fst (co : Coefs K) (x : Nat → K) (n : Nat) : (regs co x n).1 =
    co.b1 * before x n 1 - co.a1 * before (output co x) n 1 +
      (co.b2 * before x n 2 - co.a2 * before (output co x) n 2) := by
  cases n with
  | zero => simp [regs]
  | succ n => simp only [before_succ, before_self, ← regs_snd]; rfl

end Sys2Proof.Ideal

namespace Sys2Proof.Ideal

/-- Settles O57: the first register supplies what the output adds to b0 x[n]. -/
theorem idealFilterMeetsTheDifferenceEquation :
    Obligations.IdealFilterMeetsTheDifferenceEquation := by
  intro K _ co x n
  have houtput : output co x n = co.b0 * x n + (regs co x n).1 := rfl
  rw [houtput, regs_fst]
  ring

end Sys2Proof.Ideal
end

/-! # The Filter Chain (43_filter_chain.md)

The sample path first, then `PREPARE` and `RESET`, the calculator call of a band update, `UPDATE`,
and last what every command leaves of the cache. -/

/-! ## The sample path (R147, R148, R156) -/

section
namespace Sys2Proof.Machine

theorem chanDelay_sampleChannel_other {ch c' : Nat} (hne : c' ≠ ch) (s : State) :
    chanDelay (sampleChannel ch s) c' = chanDelay s c' :=
  chanDelay_setChanDelay_other hne _ s

/-- Settles O39: an accepted `CHSAMPLE` writes `chainStep`'s output and delays, and `LIFE`. -/
theorem chsampleRunsTheChain : Obligations.ChsampleRunsTheChain := by
  intro ch s hch hlife d v1 v2 v3
  exact ⟨_, exec_chsample_of_legal hch hlife, rfl, chanDelay_sampleChannel_same hch s,
    fun c' hne => chanDelay_sampleChannel_other hne s⟩

/-! Silence: zeros of either sign. -/

theorem isZero_fsub {a b : Word} (ha : isZero a = true) (hb : isZero b = true) :
    isZero (fsub a b) = true :=
  isZero_fsub_of_feq (feq_of_isZero ha hb) (isFinite_of_isZero ha)

theorem isZero_fmul_of_isZero {a x : Word} (ha : isFinite a = true) (hx : isZero x = true) :
    isZero (fmul a x) = true := by
  refine isZero_fmul ha (isFinite_of_isZero hx) (.inr ?_)
  rwa [flush_of_not_subnormal (isSubnormal_of_isZero hx)]

end Sys2Proof.Machine

namespace Sys2Proof.Safety
open Sys2Proof.Machine

/-- A filter with finite coefficients answers silence with silence (R156). -/
theorem bqStep_of_isZero {co : CoefSet} {st : Delay} {x : Word} (hco : FiniteSet co)
    (hst : ZeroPair st) (hx : isZero x = true) :
    isZero (bqStep co st x).1 = true ∧ ZeroPair (bqStep co st x).2 := by
  obtain ⟨hb0, hb1, hb2, ha1, ha2⟩ := hco
  obtain ⟨hs1, hs2⟩ := hst
  have hy : isZero (bqStep co st x).1 = true := isZero_fadd (isZero_fmul_of_isZero hb0 hx) hs1
  have hdiff : ∀ {b a : Word}, isFinite b = true → isFinite a = true →
      isZero (fsub (fmul b x) (fmul a (bqStep co st x).1)) = true := fun hb ha =>
    isZero_fsub (isZero_fmul_of_isZero hb hx) (isZero_fmul_of_isZero ha hy)
  exact ⟨hy, isZero_fadd (hdiff hb1 ha1) hs2, hdiff hb2 ha2⟩

/-- Silence passes from filter to filter (R147, R156). -/
theorem chainStep_of_isZero {co : PerBand CoefSet} {d : PerBand Delay} {x : Word}
    (hco : ∀ b, FiniteSet (co.get b)) (hd : ∀ b, ZeroPair (d.get b)) (hx : isZero x = true) :
    isZero (chainStep co d x).1 = true ∧ ∀ b, ZeroPair ((chainStep co d x).2.get b) := by
  obtain ⟨hlow, hdlow⟩ := bqStep_of_isZero (hco .low) (hd .low) hx
  obtain ⟨hmid, hdmid⟩ := bqStep_of_isZero (hco .mid) (hd .mid) hlow
  obtain ⟨hhigh, hdhigh⟩ := bqStep_of_isZero (hco .high) (hd .high) hmid
  refine ⟨hhigh, fun b => ?_⟩
  cases b with
  | low => exact hdlow
  | mid => exact hdmid
  | high => exact hdhigh

/-- Settles O41. -/
theorem silenceStaysSilent : Obligations.SilenceStaysSilent := by
  intro ch s hch hlife hco hd hx
  obtain ⟨hy, hd'⟩ := chainStep_of_isZero hco hd hx
  refine ⟨_, exec_chsample_of_legal hch hlife, hy, ?_⟩
  rwa [chanDelay_sampleChannel_same hch]

end Sys2Proof.Safety
end

/-! ## `PREPARE` and `RESET` (R153, R154) -/

section
namespace Sys2Proof.Machine

theorem prepareAccepts_iff {s : State} : prepareAccepts s = true ↔
    isFinite s.sampleRateIn = true ∧ flt srMinExcl s.sampleRateIn = true ∧
      s.maxBlockIn.toNat ≤ Config.bufDepth := by
  simp only [prepareAccepts, Bool.and_eq_true, decide_eq_true_eq, and_assoc]

theorem exec_prepare_of_accepts {s : State} (h : prepareAccepts s = true) :
    exec .prepare s = .next (applyPrepare s) := if_pos h

theorem exec_prepare_of_rejects {s : State} (h : ¬ prepareAccepts s = true) :
    exec .prepare s = .next (raiseError .invalidParameter 0x01000000#32 s) := if_neg h

theorem exec_reset (s : State) : exec .reset s = .next { zeroDelays s with
    life := if s.life = .active then .prepared else s.life } := rfl

/-- Zeroed delay registers hold +0.0 twice in every filter (R19). -/
theorem chanDelay_get_of_zeroed {s : State}
    (h : s.delay = Vector.replicate Config.nch (PerBand.all Delay.zero)) (ch : Nat) (b : Band) :
    (chanDelay s ch).get b = Delay.zero := by
  rw [chanDelay_of_zeroed h, PerBand.get_all]

/-- Settles O33: the two outcomes of `PREPARE`, as its three tests decide. -/
theorem prepareAcceptsOrRejects : Obligations.PrepareAcceptsOrRejects := by
  refine fun s => ⟨fun hfinite habove hsize => ?_, fun h => ?_⟩
  · have hacc : prepareAccepts s = true := prepareAccepts_iff.2 ⟨hfinite, habove, hsize⟩
    exact ⟨_, exec_prepare_of_accepts hacc, rfl, fun ch b _ => chanDelay_get_of_zeroed rfl ch b,
      fun b => PerBand.get_all false b⟩
  · refine exec_prepare_of_rejects fun hacc => ?_
    obtain ⟨hfinite, habove, hsize⟩ := prepareAccepts_iff.1 hacc
    rcases h with h | h | h
    · exact Bool.eq_false_iff.1 h hfinite
    · exact Bool.eq_false_iff.1 h habove
    · exact h.not_ge hsize

/-- Settles O34. -/
theorem resetCommandZeroesDelays : Obligations.ResetCommandZeroesDelays :=
  fun s => ⟨_, exec_reset s, rfl, fun ch b _ => chanDelay_get_of_zeroed rfl ch b⟩

end Sys2Proof.Machine
end

/-! ## The order of values and the clamp (R92, R94) -/

section
namespace Sys2Proof.Machine

theorem flt_iff {u v : Word} : flt u v = true ↔
    (isNaN u = false ∧ isNaN v = false) ∧ orderKey (flush u) < orderKey (flush v) := by
  simp only [flt, Bool.and_eq_true, Bool.not_eq_true', decide_eq_true_eq]

theorem fle_iff {u v : Word} : fle u v = true ↔
    (isNaN u = false ∧ isNaN v = false) ∧ orderKey (flush u) ≤ orderKey (flush v) := by
  simp only [fle, Bool.and_eq_true, Bool.not_eq_true', decide_eq_true_eq]

theorem flt_trans {u v w : Word} (huv : flt u v = true) (hvw : flt v w = true) :
    flt u w = true := by
  obtain ⟨⟨hu, _⟩, hkey⟩ := flt_iff.1 huv
  obtain ⟨⟨_, hw⟩, hkey'⟩ := flt_iff.1 hvw
  exact flt_iff.2 ⟨⟨hu, hw⟩, hkey.trans hkey'⟩

theorem flt_of_flt_of_fle {u v w : Word} (huv : flt u v = true) (hvw : fle v w = true) :
    flt u w = true := by
  obtain ⟨⟨hu, _⟩, hkey⟩ := flt_iff.1 huv
  obtain ⟨⟨_, hw⟩, hkey'⟩ := fle_iff.1 hvw
  exact flt_iff.2 ⟨⟨hu, hw⟩, hkey.trans_le hkey'⟩

/-- One of two values that are not NaNs is at most the other. -/
theorem fle_of_not_flt {u v : Word} (hu : isNaN u = false) (hv : isNaN v = false)
    (h : ¬ flt u v = true) : fle v u = true :=
  fle_iff.2 ⟨⟨hv, hu⟩, not_lt.1 fun hkey => h (flt_iff.2 ⟨⟨hu, hv⟩, hkey⟩)⟩

/-- A number's place in the order, without its sign, is its magnitude pattern (R80). -/
theorem natAbs_orderKey (v : Word) : (orderKey v).natAbs = v.toNat % 2 ^ 31 := by
  rw [orderKey_eq]
  split <;> omega

/-- A clamped number lies between the bounds (R94). -/
theorem clampf_mem {v lo hi : Word} (hv : isNaN v = false) (hlohi : fle lo hi = true) :
    fle lo (clampf v lo hi) = true ∧ fle (clampf v lo hi) hi = true := by
  obtain ⟨⟨hlo, hhi⟩, _⟩ := fle_iff.1 hlohi
  unfold clampf
  split_ifs with hbelow habove
  · exact ⟨fle_iff.2 ⟨⟨hlo, hlo⟩, le_rfl⟩, hlohi⟩
  · exact ⟨hlohi, fle_iff.2 ⟨⟨hhi, hhi⟩, le_rfl⟩⟩
  · exact ⟨fle_of_not_flt hv hlo hbelow, fle_of_not_flt hhi hv habove⟩

/-- A number whose magnitude is at most a finite number's is finite. -/
theorem isFinite_of_natAbs_orderKey_le {v hi : Word} (hhi : isFinite hi = true)
    (h : (orderKey (flush v)).natAbs ≤ (orderKey (flush hi)).natAbs) : isFinite v = true := by
  rw [natAbs_orderKey, natAbs_orderKey] at h
  rw [← isFinite_flush, isFinite_iff] at hhi ⊢
  omega

/-- What lies between a positive number and a finite one is positive and normal. -/
theorem positiveNormal_of_fle {v lo hi : Word} (hlo : flt posZero lo = true)
    (hhi : isFinite hi = true) (h : fle lo v = true ∧ fle v hi = true) : PositiveNormal v := by
  have hpos := flt_of_flt_of_fle hlo h.1
  refine finite_and_flt_posZero_iff.1 ⟨isFinite_of_natAbs_orderKey_le hhi ?_, hpos⟩
  have hzero : orderKey (flush posZero) = 0 := by decide
  obtain ⟨_, hkey⟩ := flt_iff.1 hpos
  obtain ⟨_, hkey'⟩ := fle_iff.1 h.2
  omega

/-- Positive normal numbers compare as their values do (R80, R92). -/
theorem PositiveNormal.units_lt {u v : Word} (hu : PositiveNormal u) (hv : PositiveNormal v)
    (h : flt u v = true) : units u < units v := by
  rw [units_eq_magUnits, units_eq_magUnits, magUnits_lt_iff]
  exact (hu.flt_iff (isNaN_of_isFinite hv.finite) hv.normal hv.positive).1 h

end Sys2Proof.Machine
end

/-! ## The calculator call of a band update (R152, R158)

Each operand passes the tests of R111 for a reason of its own: the rate is above 24000 Hz, the
frequency and the shelves' Q are constants, the live Q is clamped to [0.1, 5], and the linear gain
is a power of ten with an exponent in [-0.6, 0.6]. -/

section
namespace Sys2Proof.Machine

theorem positiveNormal_shelfQ : PositiveNormal shelfQ := positiveNormal_iff.2 (by decide)

/-- Each band's fixed frequency (R146). -/
def bandFreq : Band → Word
  | .low => fLow
  | .mid => fMid
  | .high => fHigh

/-- The Q of a band's calculator call (R146, R152). -/
def bandQ (q : Word) : Band → Word
  | .low => shelfQ
  | .mid => clampf q qMin qMax
  | .high => shelfQ

/-- A band update's calculator call is rejected by the validity test alone (R111, R149). -/
theorem exists_designBand {b : Band} {fs q g : Word}
    (h : calcValid fs (bandFreq b) (bandQ q b) g = true) : ∃ r, designBand b fs q g = some r := by
  cases b with
  | low => exact ⟨_, calcLs_of_valid h⟩
  | mid => exact ⟨_, calcPeak_of_valid h⟩
  | high => exact ⟨_, calcHs_of_valid h⟩

theorem positiveNormal_bandFreq (b : Band) : PositiveNormal (bandFreq b) := by
  cases b <;> exact positiveNormal_iff.2 (by decide)

theorem positiveNormal_bandQ {b : Band} {q : Word} (hq : b = .mid → isNaN q = false) :
    PositiveNormal (bandQ q b) := by
  cases b with
  | low => exact positiveNormal_shelfQ
  | mid => exact positiveNormal_of_fle (by decide) (by decide) (clampf_mem (hq rfl) (by decide))
  | high => exact positiveNormal_shelfQ

/-- No band's frequency is above 12000 Hz, half the bound on the rate (R95). -/
theorem two_mul_units_bandFreq_le (b : Band) : 2 * units (bandFreq b) ≤ units srMinExcl := by
  cases b <;> decide

theorem positiveNormal_of_rate {fs : Word} (hfinite : isFinite fs = true)
    (habove : flt srMinExcl fs = true) : PositiveNormal fs :=
  finite_and_flt_posZero_iff.1 ⟨hfinite, flt_trans (by decide) habove⟩

theorem bandFreq_below_half_rate {fs : Word} (hfinite : isFinite fs = true)
    (habove : flt srMinExcl fs = true) (b : Band) :
    flt (bandFreq b) (fmul fs half) = true := by
  have hfs := positiveNormal_of_rate hfinite habove
  have hmin : PositiveNormal srMinExcl := positiveNormal_iff.2 (by decide)
  rw [flt_fmul_half_iff hfs (positiveNormal_bandFreq b)]
  exact (two_mul_units_bandFreq_le b).trans_lt (hmin.units_lt hfs habove)

/-- The quotient of finite numbers by one that is not a zero is that of the flushed ones, rounded
once (R83, R89). -/
theorem fdiv_eq_roundResult {a b : Word} (ha : isFinite a = true) (hb : isFinite b = true)
    (hz : isZero (flush b) = false) :
    fdiv a b = roundResult (signBit (flush a) ^^ signBit (flush b))
      (units (flush a) * 2 ^ 149) (units (flush b)) := by
  have h := fdiv_of_isFinite (a := flush a) (b := flush b) (by rwa [isFinite_flush])
    (by rwa [isFinite_flush]) (isSubnormal_flush a) (isSubnormal_flush b) hz
  rwa [fdiv, flush_flush, flush_flush] at h

/-- A dividend of no greater magnitude gives a quotient of no greater magnitude (R82, R89). -/
theorem natAbs_orderKey_fdiv_mono {u v d : Word} (hu : isFinite u = true) (hv : isFinite v = true)
    (hd : isFinite d = true) (hz : isZero (flush d) = false)
    (h : (orderKey (flush u)).natAbs ≤ (orderKey (flush v)).natAbs) :
    (orderKey (fdiv u d)).natAbs ≤ (orderKey (fdiv v d)).natAbs := by
  have hpos : 0 < units (flush d) := by
    rw [Nat.pos_iff_ne_zero, ne_eq, units_eq_zero_iff, hz]
    decide
  have hunits : units (flush u) ≤ units (flush v) := by
    rw [natAbs_orderKey, natAbs_orderKey] at h
    rwa [units_eq_magUnits, units_eq_magUnits, ← not_lt, magUnits_lt_iff, not_lt]
  rw [natAbs_orderKey, natAbs_orderKey, fdiv_eq_roundResult hu hd hz, fdiv_eq_roundResult hv hd hz,
    roundResult_toNat_mod, roundResult_toNat_mod]
  exact resultMag_mono hpos hpos (Nat.mul_le_mul_right _ (Nat.mul_le_mul_right _ hunits))

/-- A gain between -12 and 12 dB is an exponent between -0.6 and 0.6 (R99, R100). -/
theorem fdiv_twenty_mem {v : Word} (h : fle gainMin v = true ∧ fle v gainMax = true) :
    fle 0xBF19999A#32 (fdiv v twenty) = true ∧ fle (fdiv v twenty) 0x3F19999A#32 = true := by
  obtain ⟨_, hlo⟩ := fle_iff.1 h.1
  obtain ⟨_, hhi⟩ := fle_iff.1 h.2
  have hbounds : orderKey (flush gainMin) = -0x41400000 ∧
      orderKey (flush gainMax) = 0x41400000 := by decide
  have hmag : (orderKey (flush v)).natAbs ≤ (orderKey (flush gainMax)).natAbs := by omega
  have hfinite : isFinite v = true := isFinite_of_natAbs_orderKey_le (by decide) hmag
  have hquot : (orderKey (fdiv v twenty)).natAbs ≤ 0x3F19999A :=
    (natAbs_orderKey_fdiv_mono hfinite (v := gainMax) (by decide) (by decide) (by decide)
      hmag).trans_eq (by decide)
  have hnan : isNaN (fdiv v twenty) = false := by
    rw [fdiv_eq_roundResult hfinite (by decide) (by decide)]
    exact (roundResult_class _ _ _).1
  have hends : orderKey (flush 0xBF19999A#32) = -0x3F19999A ∧
      orderKey (flush 0x3F19999A#32) = 0x3F19999A := by decide
  have hflush := flush_of_not_subnormal (isResult_fdiv v twenty).not_subnormal
  refine ⟨fle_iff.2 ⟨⟨by decide, hnan⟩, ?_⟩, fle_iff.2 ⟨⟨hnan, by decide⟩, ?_⟩⟩ <;>
    rw [hflush] <;> omega

/-- The linear gain of a clamped gain is a power of ten from 0.25 to 4 (R99, R100, R152). -/
theorem positiveNormal_linearGain {g : Word} (hg : isNaN g = false) :
    PositiveNormal (linearGain g) := by
  obtain ⟨hlo, hhi⟩ := fdiv_twenty_mem (clampf_mem hg (by decide))
  obtain ⟨_, hmem⟩ := fexp10_ok.range _ hlo hhi
  exact positiveNormal_of_fle (by decide) (by decide) hmem

theorem calcValid_of_band {fs g q : Word} {b : Band} (hfinite : isFinite fs = true)
    (habove : flt srMinExcl fs = true) (hg : isNaN g = false)
    (hq : b = .mid → isNaN q = false) :
    calcValid fs (bandFreq b) (bandQ q b) (linearGain g) = true := by
  refine calcValid_iff.2 ⟨?_, bandFreq_below_half_rate hfinite habove b⟩
  simp only [List.mem_cons, List.not_mem_nil, or_false, forall_eq_or_imp, forall_eq]
  exact ⟨positiveNormal_of_rate hfinite habove, positiveNormal_bandFreq b,
    positiveNormal_bandQ hq, positiveNormal_linearGain hg⟩

end Sys2Proof.Machine

namespace Sys2Proof.Safety
open Sys2Proof.Machine

/-- Settles O36: a prepared core has a valid rate, and the other operands are valid always. -/
theorem calculatorNeverRejectsABandUpdate : Obligations.CalculatorNeverRejectsABandUpdate := by
  intro s hinv hlife b g q hg hq
  obtain ⟨hfinite, habove, _⟩ := hinv.1 hlife
  exact exists_designBand (calcValid_of_band hfinite habove hg hq)

end Sys2Proof.Safety
end

/-! ## `UPDATE` (R149, R150, R155) -/

section
namespace Sys2Proof.Machine

theorem exec_update_of_uninitialized {s : State} (h : s.life = .uninitialized) (b : Band) :
    exec (.update b) s = .next (raiseError .uninitializedState (encode (.update b)) s) := if_pos h

theorem exec_update_of_initialized {s : State} (h : s.life ≠ .uninitialized) (b : Band) :
    exec (.update b) s =
      .next (updateBand b (liveGain s b) s.midQ (encode (.update b)) s) := if_neg h

theorem paramNaN_iff {b : Band} {g q : Word} :
    paramNaN b g q = true ↔ isNaN g = true ∨ (b = .mid ∧ isNaN q = true) := by
  simp only [paramNaN, Bool.or_eq_true, Bool.and_eq_true, beq_iff_eq]

theorem paramNaN_eq_false {b : Band} {g q : Word} (hg : isNaN g = false)
    (hq : b = .mid → isNaN q = false) : paramNaN b g q = false := by
  rw [Bool.eq_false_iff, ne_eq, paramNaN_iff]
  rintro (hnan | ⟨hb, hnan⟩)
  · exact Bool.eq_false_iff.1 hg hnan
  · exact Bool.eq_false_iff.1 (hq hb) hnan

theorem cacheHit_iff {b : Band} {g q : Word} {s : State} : cacheHit b g q s = true ↔
    s.valid.get b = true ∧ s.lastGain.get b = g ∧ (b = .mid → s.lastQ = q) := by
  simp only [cacheHit, Bool.and_eq_true, Bool.or_eq_true, beq_iff_eq, bne_iff_ne, and_assoc,
    ne_eq, Decidable.imp_iff_not_or]

section Update
variable {b : Band} {s : State} (hlife : s.life ≠ .uninitialized)

include hlife

theorem exec_update_of_paramNaN (hnan : paramNaN b (liveGain s b) s.midQ = true) :
    exec (.update b) s = .next (raiseError .invalidParameter (encode (.update b)) s) := by
  rw [exec_update_of_initialized hlife, updateBand, if_pos hnan]

variable (hnan : paramNaN b (liveGain s b) s.midQ = false)

include hnan

theorem exec_update_of_cacheHit (hhit : cacheHit b (liveGain s b) s.midQ s = true) :
    exec (.update b) s = .next s := by
  simp only [exec_update_of_initialized hlife, updateBand, hnan, hhit, Bool.false_eq_true, if_false,
    if_true]

theorem exec_update_of_design (hmiss : cacheHit b (liveGain s b) s.midQ s = false) {r : CoefSet}
    (hr : designBand b s.fs s.midQ (linearGain (liveGain s b)) = some r) :
    exec (.update b) s =
      .next (applyBand b (liveGain s b) s.midQ r (countInvocation s)) := by
  simp only [exec_update_of_initialized hlife, updateBand, hnan, hmiss, hr, Bool.false_eq_true,
    if_false]

end Update

@[simp] theorem liveGain_applyBand (b b' : Band) (g q : Word) (r : CoefSet) (s : State) :
    liveGain (applyBand b g q r s) b' = liveGain s b' := by
  cases b' <;> rfl

@[simp] theorem liveGain_countInvocation (s : State) (b : Band) :
    liveGain (countInvocation s) b = liveGain s b := by
  cases b <;> rfl

end Sys2Proof.Machine

namespace Sys2Proof.Safety
open Sys2Proof.Machine

/-- Settles O35: the tests of R149 in their order, and the calculator's set where none holds. -/
theorem updateRecomputesOnChange : Obligations.UpdateRecomputesOnChange := by
  refine fun b s hinv => ⟨fun hlife => exec_update_of_uninitialized hlife b,
    fun hlife hnan => exec_update_of_paramNaN hlife (paramNaN_iff.2 hnan),
    fun hlife hg hq hcache =>
      exec_update_of_cacheHit hlife (paramNaN_eq_false hg hq) (cacheHit_iff.2 hcache),
    fun hlife hg hq hcache => ?_⟩
  obtain ⟨r, hr⟩ := calculatorNeverRejectsABandUpdate s hinv hlife b (liveGain s b) s.midQ hg hq
  have hmiss : cacheHit b (liveGain s b) s.midQ s = false :=
    Bool.eq_false_iff.2 (mt cacheHit_iff.1 hcache)
  refine ⟨r, ?_, exec_update_of_design hlife (paramNaN_eq_false hg hq) hmiss hr⟩
  rw [← hr]
  cases b <;> rfl

/-- Settles O37: whether the first `UPDATE` changes nothing or recomputes, the cache then holds the
live patterns. -/
theorem updateIsIdempotent : Obligations.UpdateIsIdempotent := by
  intro b s hinv hlife hg hq
  have hnan := paramNaN_eq_false hg hq
  cases hhit : cacheHit b (liveGain s b) s.midQ s
  case true =>
    have hsame := exec_update_of_cacheHit hlife hnan hhit
    exact ⟨s, hsame, hsame⟩
  case false =>
    obtain ⟨r, hr⟩ := calculatorNeverRejectsABandUpdate s hinv hlife b (liveGain s b) s.midQ hg hq
    refine ⟨_, exec_update_of_design hlife hnan hhit hr, exec_update_of_cacheHit hlife ?_ ?_⟩
    · simpa using hnan
    · simpa using cacheHit_applyBand b (liveGain s b) s.midQ r (countInvocation s)

end Sys2Proof.Safety
end

/-! ## What the other commands leave of the cache (R20, R25, R155) -/

section
namespace Sys2Proof.Machine

/-- The outcome is a next state, with the change-detection cache and the count of invocations that s
has. -/
def NextKeepsCache (s : State) (o : Host.Outcome State Fault Refusal) : Prop :=
  ∃ t, o = .next t ∧ t.valid = s.valid ∧ t.lastGain = s.lastGain ∧ t.lastQ = s.lastQ ∧
    t.calcCount = s.calcCount

theorem nextKeepsCache_raiseError (k : ErrorKind) (w : Word) (s : State) :
    NextKeepsCache s (.next (raiseError k w s)) :=
  ⟨_, rfl, by simp, by simp, by simp, by simp⟩

theorem nextKeepsCache_chsample (ch : BitVec 4) (s : State) :
    NextKeepsCache s (exec (.chsample ch) s) := by
  simp only [exec, execChsample]
  split_ifs
  · exact nextKeepsCache_raiseError _ _ s
  · exact nextKeepsCache_raiseError _ _ s
  · exact ⟨_, rfl, rfl, rfl, rfl, rfl⟩

theorem nextKeepsCache_bqstep (b : Band) (ch : BitVec 4) (s : State) :
    NextKeepsCache s (exec (.bqstep b ch) s) := by
  simp only [exec, execBqstep]
  split_ifs
  · exact ⟨_, rfl, rfl, rfl, rfl, rfl⟩
  · exact nextKeepsCache_raiseError _ _ s

theorem nextKeepsCache_bqreset (b : Band) (ch : BitVec 4) (s : State) :
    NextKeepsCache s (exec (.bqreset b ch) s) := by
  simp only [exec, execBqreset]
  split_ifs
  · exact ⟨_, rfl, rfl, rfl, rfl, rfl⟩
  · exact nextKeepsCache_raiseError _ _ s

/-- A calculator command counts its invocation, whatever the verdict, and leaves the cache
(R117). -/
theorem nextKeepsCache_finishCalc (w : Word) (r : Option CoefSet) (s : State) :
    NextKeepsCache (countInvocation s) (.next (finishCalc w r s)) := by
  cases r with
  | none => exact nextKeepsCache_raiseError _ w (countInvocation s)
  | some c => exact ⟨_, rfl, rfl, rfl, rfl, rfl⟩

/-- `PREPARE` clears every `VALID` and leaves the rest of the cache (R153). -/
theorem exec_prepare_cache (s : State) : ∃ t, exec .prepare s = .next t ∧
    t.lastGain = s.lastGain ∧ t.lastQ = s.lastQ ∧ t.calcCount = s.calcCount := by
  by_cases h : prepareAccepts s = true
  · exact ⟨_, exec_prepare_of_accepts h, rfl, rfl, rfl⟩
  · exact ⟨_, exec_prepare_of_rejects h, by simp, by simp, by simp⟩

/-- Settles O38: the three commands on a channel may raise an error instead, which leaves the cache
too; `PREPARE` and the calculator commands have their own clauses. -/
theorem onlyBandUpdatesMoveTheCache : Obligations.OnlyBandUpdatesMoveTheCache := by
  intro i s hupdate hblock
  cases i with
  | update b => exact absurd rfl (hupdate b)
  | block m n => exact absurd rfl (hblock m n)
  | prepare => simpa using exec_prepare_cache s
  | chsample ch => simpa [NextKeepsCache] using nextKeepsCache_chsample ch s
  | bqstep b ch => simpa [NextKeepsCache] using nextKeepsCache_bqstep b ch s
  | bqreset b ch => simpa [NextKeepsCache] using nextKeepsCache_bqreset b ch s
  | calcls => simpa [NextKeepsCache, exec_calcls] using nextKeepsCache_finishCalc _ _ s
  | calchs => simpa [NextKeepsCache, exec_calchs] using nextKeepsCache_finishCalc _ _ s
  | calcpk => simpa [NextKeepsCache, exec_calcpk] using nextKeepsCache_finishCalc _ _ s
  | nop | reset | ldcoef b | sat | clrerr => exact ⟨_, rfl, fun _ => rfl, rfl, rfl, by simp⟩

end Sys2Proof.Machine
end

/-! # Saturation Stage (44_saturation.md)

The soft clip is doubling, `ftanh` and a clamp between two bounds of opposite sign. Each of the
three keeps the order and commutes with negation, so the clip does; its bounds are the clamp's. -/

/-! ## Doubling (R88): order and sign -/

section
namespace Sys2Proof.Machine

/-- Doubling gives every number its sign and twice its flushed magnitude; an infinity stays one. -/
theorem fmul_two_of_not_isNaN {x : Word} (h : isNaN x = false) :
    fmul two x = packSign (signBit x) (min (doubleMag ((flush x).toNat % 2 ^ 31)) 0x7F800000) := by
  rw [← fmul_flush_right, ← signBit_flush x]
  have hresult := isResult_of_not_isNaN ((isNaN_flush x).trans h) (isSubnormal_flush x)
  rcases hresult.cases with hqnan | hinf | ⟨hfin, hsub⟩
  · rw [← isNaN_flush, hqnan] at h
    exact absurd h (by decide)
  · rw [hinf]
    cases signBit (flush x) <;> decide
  · exact fmul_two hfin hsub

theorem isNaN_packSign (s : Bool) {m : Nat} (hm : m ≤ 0x7F800000) :
    isNaN (packSign s m) = false := by
  rw [Bool.eq_false_iff, ne_eq, isNaN_iff, packSign_mod _ _ (by omega)]
  omega

theorem isNaN_fmul_two (x : Word) : isNaN (fmul two x) = isNaN x := by
  cases h : isNaN x
  case true => rw [fmul_of_isNaN (.inr h)]; decide
  case false => rw [fmul_two_of_not_isNaN h, isNaN_packSign _ (Nat.min_le_right _ _)]

theorem orderKey_fmul_two {x : Word} (h : isNaN x = false) :
    orderKey (fmul two x) =
      (if signBit (flush x) then -1 else 1) *
        (min (doubleMag ((flush x).toNat % 2 ^ 31)) 0x7F800000 : Nat) := by
  rw [fmul_two_of_not_isNaN h, orderKey_eq, signBit_packSign _ _ (by omega),
    packSign_mod _ _ (by omega), signBit_flush]
  split <;> ring

theorem doubleMag_mono {m n : Nat} (h : m ≤ n) : doubleMag m ≤ doubleMag n := by
  unfold doubleMag
  split_ifs <;> omega

/-- Doubling keeps the order (R88, R92). -/
theorem fle_fmul_two {u v : Word} (h : fle u v = true) : fle (fmul two u) (fmul two v) = true := by
  obtain ⟨⟨hu, hv⟩, hkey⟩ := fle_iff.1 h
  refine fle_iff.2 ⟨⟨by rwa [isNaN_fmul_two], by rwa [isNaN_fmul_two]⟩, ?_⟩
  rw [flush_of_not_subnormal (isResult_fmul two u).not_subnormal,
    flush_of_not_subnormal (isResult_fmul two v).not_subnormal,
    orderKey_fmul_two hu, orderKey_fmul_two hv]
  rw [orderKey_eq, orderKey_eq] at hkey
  generalize (flush u).toNat % 2 ^ 31 = m at hkey ⊢
  generalize (flush v).toNat % 2 ^ 31 = n at hkey ⊢
  cases hsu : signBit (flush u) <;> cases hsv : signBit (flush v) <;>
    simp only [hsu, hsv, Bool.false_eq_true, if_true, if_false] at hkey ⊢
  case false.false =>
    have hmono := doubleMag_mono (m := m) (n := n) (by omega)
    omega
  case false.true =>
    obtain ⟨rfl, rfl⟩ : m = 0 ∧ n = 0 := by omega
    decide
  case true.false => omega
  case true.true =>
    have hmono := doubleMag_mono (m := n) (n := m) (by omega)
    omega

/-- Doubling commutes with negation (R88, R91). -/
theorem fmul_two_fneg {x : Word} (h : isNaN x = false) :
    fmul two (fneg x) = fneg (fmul two x) := by
  have hresult := isResult_of_not_isNaN ((isNaN_flush x).trans h) (isSubnormal_flush x)
  rw [← fmul_flush_right, flush_fneg, hresult.fmul_two_fneg, fmul_flush_right]

end Sys2Proof.Machine
end

/-! ## The clamp (R94): order and sign -/

section
namespace Sys2Proof.Machine

theorem orderKey_fneg {v : Word} (h : isNaN v = false) : orderKey (fneg v) = -orderKey v := by
  rw [orderKey_eq, orderKey_eq, fneg_toNat_mod h, signBit_fneg h]
  cases signBit v <;> simp

/-- Negation reverses the order (R91, R92). -/
theorem flt_fneg (u v : Word) : flt (fneg u) (fneg v) = flt v u := by
  rw [Bool.eq_iff_iff, flt_iff, flt_iff, isNaN_fneg, isNaN_fneg, and_comm (a := isNaN v = false)]
  refine and_congr_right fun ⟨hu, hv⟩ => ?_
  rw [flush_fneg, flush_fneg, orderKey_fneg ((isNaN_flush u).trans hu),
    orderKey_fneg ((isNaN_flush v).trans hv), Int.neg_lt_neg_iff]

/-- No value lies below the lower bound and above the upper one. -/
theorem flt_upper_eq_false_of_flt_lower {v lo hi : Word} (hlohi : fle lo hi = true)
    (h : flt v lo = true) : flt hi v = false := by
  obtain ⟨_, hbounds⟩ := fle_iff.1 hlohi
  obtain ⟨_, hbelow⟩ := flt_iff.1 h
  rw [Bool.eq_false_iff, ne_eq, flt_iff]
  omega

/-- A clamped number's place in the order is the clamped place. -/
theorem orderKey_clampf {v lo hi : Word} (hv : isNaN v = false) (hlohi : fle lo hi = true) :
    orderKey (flush (clampf v lo hi)) =
      max (orderKey (flush lo)) (min (orderKey (flush v)) (orderKey (flush hi))) := by
  obtain ⟨⟨hlo, hhi⟩, hbounds⟩ := fle_iff.1 hlohi
  unfold clampf
  simp only [flt_iff, hv, hlo, hhi, and_self, true_and]
  split_ifs <;> omega

/-- Clamping keeps the order (R92, R94). -/
theorem fle_clampf {u v lo hi : Word} (hlohi : fle lo hi = true) (h : fle u v = true) :
    fle (clampf u lo hi) (clampf v lo hi) = true := by
  obtain ⟨⟨hu, hv⟩, hkey⟩ := fle_iff.1 h
  obtain ⟨⟨_, hcu⟩, _⟩ := fle_iff.1 (clampf_mem hu hlohi).1
  obtain ⟨⟨_, hcv⟩, _⟩ := fle_iff.1 (clampf_mem hv hlohi).1
  refine fle_iff.2 ⟨⟨hcu, hcv⟩, ?_⟩
  rw [orderKey_clampf hu hlohi, orderKey_clampf hv hlohi]
  exact max_le_max le_rfl (min_le_min hkey le_rfl)

/-- Clamping a negated value between the negated bounds negates the clamped value (R91, R94). -/
theorem clampf_fneg {v lo hi : Word} (hlohi : fle lo hi = true) :
    clampf (fneg v) (fneg hi) (fneg lo) = fneg (clampf v lo hi) := by
  unfold clampf
  rw [flt_fneg, flt_fneg]
  by_cases hbelow : flt v lo = true
  · simp [hbelow, flt_upper_eq_false_of_flt_lower hlohi hbelow]
  · simp [hbelow, apply_ite fneg]

end Sys2Proof.Machine
end

/-! ## The soft clip (R166 to R170) -/

section
namespace Sys2Proof.Machine

theorem fneg_maxLt1_le_maxLt1 : fle (fneg maxLt1) maxLt1 = true := by decide

theorem fneg_fneg_maxLt1 : fneg (fneg maxLt1) = maxLt1 := by decide

/-- The soft clip's clamp tests the upper bound first, which makes no difference (R94, R166). -/
theorem clampSat_eq_clampf {r : Word} (h : isNaN r = false) :
    clampSat r = clampf r (fneg maxLt1) maxLt1 := by
  unfold clampSat clampf
  by_cases hbelow : flt r (fneg maxLt1) = true
  · simp [h, hbelow, flt_upper_eq_false_of_flt_lower fneg_maxLt1_le_maxLt1 hbelow]
  · simp [h, hbelow]

theorem isNaN_ftanh {v : Word} (h : isNaN v = false) : isNaN (ftanh v) = false := by
  obtain ⟨⟨_, hnan⟩, _⟩ := fle_iff.1 (ftanh_ok.range v h).1
  exact hnan

/-- The soft clip of a number: the hyperbolic tangent of its double, clamped (R166). -/
theorem sat_of_not_isNaN {x : Word} (h : isNaN x = false) :
    sat x = clampf (ftanh (fmul two x)) (fneg maxLt1) maxLt1 :=
  clampSat_eq_clampf (isNaN_ftanh ((isNaN_fmul_two x).trans h))

/-- Settles O44: the bounds are the clamp's. -/
theorem satIsBounded : Obligations.SatIsBounded := by
  intro x hx
  have hnan := isNaN_ftanh ((isNaN_fmul_two x).trans hx)
  obtain ⟨hlo, hhi⟩ := clampf_mem hnan fneg_maxLt1_le_maxLt1
  rw [sat_of_not_isNaN hx]
  obtain ⟨⟨hclamped, _⟩, _⟩ := fle_iff.1 hhi
  exact ⟨hclamped, hlo, hhi⟩

/-- Settles O45: doubling, `ftanh` and the clamp each keep the order. -/
theorem satIsMonotonic : Obligations.SatIsMonotonic := by
  intro u v h
  obtain ⟨⟨hu, hv⟩, _⟩ := fle_iff.1 h
  rw [sat_of_not_isNaN hu, sat_of_not_isNaN hv]
  exact fle_clampf fneg_maxLt1_le_maxLt1 (ftanh_ok.mono _ _ (fle_fmul_two h))

/-- Settles O46: doubling, `ftanh` and the clamp each commute with negation. -/
theorem satIsOdd : Obligations.SatIsOdd := by
  intro x hx
  have hclamp := clampf_fneg (v := ftanh (fmul two x)) fneg_maxLt1_le_maxLt1
  rw [fneg_fneg_maxLt1] at hclamp
  rw [sat_of_not_isNaN ((isNaN_fneg x).trans hx), sat_of_not_isNaN hx, fmul_two_fneg hx,
    ftanh_ok.odd _ ((isNaN_fmul_two x).trans hx), hclamp]

end Sys2Proof.Machine
end

/-! ## The command and the fixed points (R166, R167, R172) -/

section
namespace Sys2Proof.Machine

theorem exec_sat (s : State) :
    exec .sat s = .next { s with resY := saturate s.satEn s.opX } := rfl

theorem saturate_of_disabled (x : Word) : saturate false x = x := rfl

theorem saturate_of_enabled (x : Word) : saturate true x = sat x := rfl

/-- The soft clip with its constants written out (R85, R95, R166). -/
theorem sat_eq (x : Word) :
    sat x = if isNaN (ftanh (fmul two x)) then 0x7FC00000#32
      else if flt 0x3F7FFFFF#32 (ftanh (fmul two x)) then 0x3F7FFFFF#32
      else if flt (ftanh (fmul two x)) 0xBF7FFFFF#32 then 0xBF7FFFFF#32
      else ftanh (fmul two x) := by
  rw [sat, clampSat, show fneg maxLt1 = 0xBF7FFFFF#32 by decide]
  rfl

/-- Settles O42: the two values of the enable bit. -/
theorem satWritesTheResult : Obligations.SatWritesTheResult := by
  intro s
  constructor
  · intro hdisabled
    rw [exec_sat, hdisabled, saturate_of_disabled]
  · intro henabled
    dsimp only
    rw [exec_sat, henabled, saturate_of_enabled, sat_eq]

theorem sat_of_isNaN {x : Word} (h : isNaN x = true) : sat x = qnan := by
  rw [sat, fmul_of_isNaN (.inr h)]
  decide

theorem sat_of_fmul_two_eq_signedInf {x : Word} {s : Bool} (h : fmul two x = signedInf s) :
    sat x = packSign s 0x3F7FFFFF := by
  rw [sat, h]
  cases s <;> decide

theorem sat_of_isZero_flush {x : Word} (h : isZero (flush x) = true) : sat x = flush x := by
  rw [sat, ← fmul_flush_right]
  rcases isZero_cases h with hzero | hzero <;> rw [hzero] <;> decide

/-- Settles O43: what acts as a zero gives that zero, what doubles to an infinity the bound of its
sign, a NaN the canonical NaN. -/
theorem satAtTheSpecialPoints : Obligations.SatAtTheSpecialPoints :=
  ⟨sat_of_isZero_flush (by decide), sat_of_isZero_flush (by decide),
    sat_of_isZero_flush (by decide), sat_of_fmul_two_eq_signedInf (s := false) (by decide),
    sat_of_fmul_two_eq_signedInf (s := true) (by decide), sat_of_isNaN (by decide),
    sat_of_fmul_two_eq_signedInf (s := false) (by decide)⟩

end Sys2Proof.Machine
end

/-! # The Block Processor (45_block_processor.md)

A block is the three band updates of the live parameters, on a state that has the snapshot and the
zero fill, and then the loops over channels and samples. The band updates and the loops share no
field, so each is described on its own. -/

/-! ## Housekeeping commands, and that every run goes on (R182, R183, R185, R195) -/

section
namespace Sys2Proof.Machine

theorem exec_nop (s : State) : exec .nop s = .next s := rfl

theorem exec_clrerr (s : State) : exec .clrerr s = .next (acknowledgeErrors s) := rfl

/-- Settles O47. -/
theorem housekeepingCommands : Obligations.HousekeepingCommands :=
  fun s => ⟨exec_nop s, exec_clrerr s⟩

theorem exists_next_ite {p : Prop} [Decidable p] {o o' : Host.Outcome State Fault Refusal}
    (h : ∃ t, o = .next t) (h' : ∃ t, o' = .next t) : ∃ t, (if p then o else o') = .next t := by
  split
  · exact h
  · exact h'

/-- Every command ends in a next state, that of its effect or of an error it records (R195). -/
theorem exists_exec_eq_next (i : Instr) (s : State) : ∃ t, exec i s = .next t := by
  cases i with
  | prepare | update b | bqstep b ch | bqreset b ch => exact exists_next_ite ⟨_, rfl⟩ ⟨_, rfl⟩
  | chsample ch => exact exists_next_ite ⟨_, rfl⟩ (exists_next_ite ⟨_, rfl⟩ ⟨_, rfl⟩)
  | block nin n =>
    exact exists_next_ite ⟨_, rfl⟩ (exists_next_ite ⟨_, rfl⟩ (exists_next_ite ⟨_, rfl⟩ ⟨_, rfl⟩))
  | nop | reset | ldcoef b | calcls | calchs | calcpk | sat | clrerr => exact ⟨_, rfl⟩

theorem exists_hostEvent_eq_next (e : HostEvent) (s : State) : ∃ t, hostEvent e s = .next t := by
  cases e with
  | busRead a => exact ⟨_, rfl⟩
  | hwReset => exact ⟨_, rfl⟩
  | busWrite a v =>
    refine exists_next_ite ?_ ⟨_, rfl⟩
    cases hdec : decode v with
    | ok i =>
      rw [runCommand_of_decode hdec]
      exact exists_exec_eq_next i s
    | error e => exact ⟨_, runCommand_of_error hdec s⟩

theorem exists_step_eq_next (s : State) : ∃ t, step s = .next t := by
  cases hpend : s.pending with
  | nil => exact ⟨s, step_of_idle hpend⟩
  | cons e rest =>
    rw [step_of_pending hpend]
    exact exists_hostEvent_eq_next e _

end Sys2Proof.Machine

namespace Sys2Proof.Safety
open Sys2Proof.Machine

theorem runs_succ_of_step {k : Nat} {s t : State} (hstep : step s = .next t) (h : Runs k t) :
    Runs (k + 1) s := by
  obtain ⟨u, hu⟩ := h
  have hcore : Sys2Proof.core.step s = .next t := hstep
  refine ⟨u, ?_⟩
  simp only [Host.Core.run, hcore]
  exact hu

/-- Every number of steps can be taken from every state (R185). -/
theorem runs_all (k : Nat) (s : State) : Runs k s := by
  induction k generalizing s with
  | zero => exact ⟨s, rfl⟩
  | succ k ih =>
    obtain ⟨t, hstep⟩ := exists_step_eq_next s
    exact runs_succ_of_step hstep (ih t)

/-- Settles O17. -/
theorem everyRunContinues : Obligations.EveryRunContinues :=
  ⟨exists_exec_eq_next, runs_all⟩

end Sys2Proof.Safety
end

/-! ## A channel's loop as a recurrence (R147, R179, R180)

The loop of a block feeds the channel's words to the chain one by one. `delaysAfter` and `outputAt`
say what the chain then holds and gives; the laws after them say that the loop does just that. -/

section
namespace Sys2Proof.Machine

/-- The delays of a channel after the first n samples of x, from the delays d. -/
def delaysAfter (co : PerBand CoefSet) (x : Nat → Word) (d : PerBand Delay) : Nat → PerBand Delay
  | 0 => d
  | n + 1 => (chainStep co (delaysAfter co x d n) (x n)).2

/-- The chain's output for sample n of x, from the delays d. -/
def outputAt (co : PerBand CoefSet) (x : Nat → Word) (d : PerBand Delay) (n : Nat) : Word :=
  (chainStep co (delaysAfter co x d n) (x n)).1

section Recurrence
variable (co : PerBand CoefSet) {x x' : Nat → Word} (d : PerBand Delay)

theorem delaysAfter_congr {n : Nat} (h : ∀ i < n, x i = x' i) :
    delaysAfter co x d n = delaysAfter co x' d n := by
  induction n with
  | zero => rfl
  | succ n ih => rw [delaysAfter, delaysAfter, ih fun i hi => h i (by omega), h n (by omega)]

theorem outputAt_congr {n : Nat} (h : ∀ i ≤ n, x i = x' i) :
    outputAt co x d n = outputAt co x' d n := by
  rw [outputAt, outputAt, delaysAfter_congr co d fun i hi => h i hi.le, h n le_rfl]

/-- m samples and then k more are m + k samples (R190). -/
theorem delaysAfter_add (m k : Nat) : delaysAfter co x d (m + k) =
    delaysAfter co (fun j => x (m + j)) (delaysAfter co x d m) k := by
  induction k with
  | zero => rfl
  | succ k ih => rw [← Nat.add_assoc, delaysAfter, delaysAfter, ih]

theorem outputAt_add (m k : Nat) : outputAt co x d (m + k) =
    outputAt co (fun j => x (m + j)) (delaysAfter co x d m) k := by
  rw [outputAt, outputAt, delaysAfter_add]

end Recurrence

@[simp] theorem blockChannel_coef (c n : Nat) (s : State) :
    (blockChannel c n s).coef = s.coef := by
  rw [blockChannel_frame]

@[simp] theorem blockChannel_snapSat (c n : Nat) (s : State) :
    (blockChannel c n s).snapSat = s.snapSat := by
  rw [blockChannel_frame]

theorem chanDelay_blockChannel_same {c n : Nat} (hc : c < Config.nch) (hn : n ≤ 0x1000)
    (s : State) : chanDelay (blockChannel c n s) c =
      delaysAfter s.coef (readBuf s c) (chanDelay s c) n := by
  induction n with
  | zero => rfl
  | succ i ih =>
    rw [blockChannel, chanDelay_blockSample_same hc, blockChannel_coef, ih (by omega),
      readBuf_blockChannel_other (by omega) (by omega) (.inr le_rfl), delaysAfter]

/-- Every word of the loop is its sample's output: the sample reads the word before it is written,
and no later sample writes it. -/
theorem readBuf_blockChannel_same {c n i : Nat} (hc : c < Config.nch) (hn : n ≤ 0x1000)
    (hi : i < n) (s : State) : readBuf (blockChannel c n s) c i =
      saturate s.snapSat (outputAt s.coef (readBuf s c) (chanDelay s c) i) := by
  induction n with
  | zero => omega
  | succ m ih =>
    rw [blockChannel]
    rcases Nat.lt_succ_iff_lt_or_eq.1 hi with hlt | rfl
    · rw [readBuf_blockSample_other (by omega) (by omega) (by omega), ih (by omega) hlt]
    · rw [readBuf_blockSample_same, blockChannel_snapSat, blockChannel_coef,
        chanDelay_blockChannel_same hc (by omega),
        readBuf_blockChannel_other (by omega) (by omega) (.inr le_rfl), outputAt]

/-! The two channels, one after the other. -/

@[simp] theorem blockChannels_coef (n k : Nat) (s : State) :
    (blockChannels n k s).coef = s.coef := by
  rw [blockChannels_frame]

@[simp] theorem blockChannels_snapSat (n k : Nat) (s : State) :
    (blockChannels n k s).snapSat = s.snapSat := by
  rw [blockChannels_frame]

section Channels
variable {n k c : Nat} (hn : n ≤ 0x1000)

/-- A channel whose turn has not come is as it was. -/
theorem chanDelay_blockChannels_later (hkc : k ≤ c) (s : State) :
    chanDelay (blockChannels n k s) c = chanDelay s c := by
  induction k with
  | zero => rfl
  | succ m ih => rw [blockChannels, chanDelay_blockChannel_other (by omega), ih (by omega)]

include hn

theorem readBuf_blockChannels_later (hkc : k ≤ c) {i : Nat} (hi : i < 0x1000) (s : State) :
    readBuf (blockChannels n k s) c i = readBuf s c i := by
  induction k with
  | zero => rfl
  | succ m ih =>
    rw [blockChannels, readBuf_blockChannel_other hn hi (.inl (by omega)), ih (by omega)]

/-- A channel whose turn has come holds the delays of its samples. -/
theorem chanDelay_blockChannels (hk : k ≤ Config.nch) (hc : c < k) (s : State) :
    chanDelay (blockChannels n k s) c =
      delaysAfter s.coef (readBuf s c) (chanDelay s c) n := by
  induction k with
  | zero => omega
  | succ m ih =>
    rw [blockChannels]
    rcases Nat.lt_succ_iff_lt_or_eq.1 hc with hlt | rfl
    · rw [chanDelay_blockChannel_other (by omega), ih (by omega) hlt]
    · rw [chanDelay_blockChannel_same (by omega) hn, blockChannels_coef,
        chanDelay_blockChannels_later le_rfl]
      exact delaysAfter_congr _ _ fun i hi => readBuf_blockChannels_later hn le_rfl (by omega) s

/-- The words of such a channel are its samples' outputs. -/
theorem readBuf_blockChannels (hk : k ≤ Config.nch) (hc : c < k) {i : Nat} (hi : i < n)
    (s : State) : readBuf (blockChannels n k s) c i =
      saturate s.snapSat (outputAt s.coef (readBuf s c) (chanDelay s c) i) := by
  induction k with
  | zero => omega
  | succ m ih =>
    rw [blockChannels]
    rcases Nat.lt_succ_iff_lt_or_eq.1 hc with hlt | rfl
    · rw [readBuf_blockChannel_other hn (by omega) (.inl (by omega)), ih (by omega) hlt]
    · rw [readBuf_blockChannel_same (by omega) hn hi, blockChannels_coef, blockChannels_snapSat,
        chanDelay_blockChannels_later le_rfl]
      exact congrArg _ (outputAt_congr _ _ fun j hj =>
        readBuf_blockChannels_later hn le_rfl (by omega) s)

end Channels

end Sys2Proof.Machine
end

/-! ## The order of the channels (R156, R179) -/

section
namespace Sys2Proof.Machine

theorem Memory.lookup_storeWord_other {a k : Nat} (h : k / 4 ≠ a) (m : Memory) (v : Word) :
    Memory.lookup (Memory.storeWord m a v) k = Memory.lookup m k := by
  simp only [Memory.storeWord, Memory.lookup_store]
  rw [if_neg (by omega), if_neg (by omega), if_neg (by omega), if_neg (by omega)]

/-- A byte of the word written does not depend on what was listed before. -/
theorem Memory.lookup_storeWord_same {a k : Nat} (h : k / 4 = a) (m m' : Memory) (v : Word) :
    Memory.lookup (Memory.storeWord m a v) k = Memory.lookup (Memory.storeWord m' a v) k := by
  obtain rfl | rfl | rfl | rfl : k = 4 * a ∨ k = 4 * a + 1 ∨ k = 4 * a + 2 ∨ k = 4 * a + 3 := by
    omega
  all_goals simp [Memory.storeWord, Memory.lookup_store]

/-- Writes of two different words commute on canonical memories. -/
theorem Memory.storeWord_comm {m : Memory} (hm : Memory.wf m) {a b : Nat} (hab : a ≠ b)
    (v w : Word) : Memory.storeWord (Memory.storeWord m a v) b w =
      Memory.storeWord (Memory.storeWord m b w) a v := by
  refine Memory.ext_lookup (wf_storeWord (wf_storeWord hm a v) b w)
    (wf_storeWord (wf_storeWord hm b w) a v) fun k => ?_
  by_cases hb : k / 4 = b
  · rw [lookup_storeWord_other (a := a) (by omega)]
    exact lookup_storeWord_same hb _ _ w
  · rw [lookup_storeWord_other hb]
    by_cases ha : k / 4 = a
    · exact lookup_storeWord_same ha _ _ v
    · rw [lookup_storeWord_other ha, lookup_storeWord_other ha, lookup_storeWord_other hb]

/-- What a sample of a block computes: the chain's output and new delays (R176). -/
def sampleResult (c i : Nat) (s : State) : Word × PerBand Delay :=
  chainStep s.coef (chanDelay s c) (readBuf s c i)

theorem blockSample_eq (c i : Nat) (s : State) : blockSample c i s = { s with
    buf := Memory.storeWord s.buf (bufAddr c i) (saturate s.snapSat (sampleResult c i s).1)
    delay := s.delay.setIfInBounds c (sampleResult c i s).2 } := rfl

section Order
variable {c c' i j : Nat} (hne : c ≠ c') (hi : i < 0x1000) (hj : j < 0x1000)
include hne hi hj

/-- A sample of one channel computes the same before and after a sample of another (R29). -/
theorem sampleResult_blockSample_other (s : State) :
    sampleResult c i (blockSample c' j s) = sampleResult c i s := by
  rw [sampleResult, chanDelay_blockSample_other hne,
    readBuf_blockSample_other hj hi (fun h => hne h.1)]
  rfl

theorem blockSample_comm {s : State} (hm : Memory.wf s.buf) :
    blockSample c i (blockSample c' j s) = blockSample c' j (blockSample c i s) := by
  have haddr : bufAddr c' j ≠ bufAddr c i := fun h => hne (bufAddr_inj hj hi h).1.symm
  rw [blockSample_eq c i (blockSample c' j s), sampleResult_blockSample_other hne hi hj,
    blockSample_eq c' j (blockSample c i s), sampleResult_blockSample_other hne.symm hj hi]
  simp only [blockSample_eq]
  rw [Memory.storeWord_comm hm haddr, Vector.setIfInBound_comm _ _ hne.symm]

end Order

theorem wf_blockChannel (c n : Nat) {s : State} (hm : Memory.wf s.buf) :
    Memory.wf (blockChannel c n s).buf := by
  induction n with
  | zero => exact hm
  | succ i ih => exact Memory.wf_storeWord ih _ _

/-- A sample of one channel may be moved past the loop of another. -/
theorem blockSample_blockChannel_comm {c c' i n : Nat} (hne : c ≠ c') (hi : i < 0x1000)
    (hn : n ≤ 0x1000) {s : State} (hm : Memory.wf s.buf) :
    blockSample c i (blockChannel c' n s) = blockChannel c' n (blockSample c i s) := by
  induction n with
  | zero => rfl
  | succ j ih =>
    rw [blockChannel, blockChannel, ← ih (by omega),
      blockSample_comm hne hi (by omega) (wf_blockChannel c' j hm)]

/-- The loops of two channels commute. -/
theorem blockChannel_comm {c c' m n : Nat} (hne : c ≠ c') (hm : m ≤ 0x1000) (hn : n ≤ 0x1000)
    {s : State} (hwf : Memory.wf s.buf) :
    blockChannel c m (blockChannel c' n s) = blockChannel c' n (blockChannel c m s) := by
  induction m with
  | zero => rfl
  | succ i ih =>
    rw [blockChannel, blockChannel, ih (by omega),
      blockSample_blockChannel_comm hne (by omega) hn (wf_blockChannel c i hwf)]

/-- Settles O52: the two channels' loops commute sample by sample. -/
theorem channelOrderIsImmaterial : Obligations.ChannelOrderIsImmaterial :=
  fun _ _ hn hinv => blockChannel_comm (by decide) hn hn hinv.1

end Sys2Proof.Machine
end

/-! ## The bytes a block leaves alone (R176, R178, R180) -/

section
namespace Sys2Proof.Machine

section Bytes
variable {a n : Nat}

theorem readByte_zeroFill {c : Nat} (h : ∀ i < n, a / 4 ≠ bufAddr c i) (s : State) :
    readByte (zeroFill c n s) a = readByte s a := by
  induction n with
  | zero => rfl
  | succ i ih =>
    rw [zeroFill, writeBuf, readByte_writeMemWord_other _ _ _ _ (h i (by omega)),
      ih fun j hj => h j (by omega)]

theorem readByte_zeroFillFrom {c k : Nat} (h : ∀ c' < c + k, ∀ i < n, a / 4 ≠ bufAddr c' i)
    (s : State) : readByte (zeroFillFrom n c k s) a = readByte s a := by
  induction k generalizing c s with
  | zero => rfl
  | succ k ih =>
    rw [zeroFillFrom, ih fun c' hc' => h c' (by omega), readByte_zeroFill (h c (by omega))]

theorem readByte_blockChannel {c : Nat} (h : ∀ i < n, a / 4 ≠ bufAddr c i) (s : State) :
    readByte (blockChannel c n s) a = readByte s a := by
  induction n with
  | zero => rfl
  | succ i ih =>
    rw [blockChannel, blockSample, writeBuf, readByte_writeMemWord_other _ _ _ _ (h i (by omega))]
    exact ih fun j hj => h j (by omega)

theorem readByte_blockChannels {k : Nat} (h : ∀ c < k, ∀ i < n, a / 4 ≠ bufAddr c i)
    (s : State) : readByte (blockChannels n k s) a = readByte s a := by
  induction k with
  | zero => rfl
  | succ c ih =>
    rw [blockChannels, readByte_blockChannel (h c (by omega)), ih fun c' hc' => h c' (by omega)]

end Bytes

end Sys2Proof.Machine
end

/-! ## The band updates of the live parameters (R149, R176, R189)

A block and the unit commands `UPDATE` both update the three bands from the live parameters; they
differ in the words an error would record. -/

section
namespace Sys2Proof.Machine

/-- The update of one band from the live parameters (R150). -/
def updateLiveBand (b : Band) (w : Word) (s : State) : State :=
  updateBand b (liveGain s b) s.midQ w s

/-- The three updates LOW, MID, HIGH, an error of band b recording the word w b (R176, R189). -/
def updateLiveBands (w : Band → Word) (s : State) : State :=
  updateLiveBand .high (w .high) (updateLiveBand .mid (w .mid) (updateLiveBand .low (w .low) s))

@[simp] theorem updateBand_midQ (b : Band) (g q w : Word) (s : State) :
    (updateBand b g q w s).midQ = s.midQ := by
  rw [updateBand_frame]

@[simp] theorem liveGain_updateBand (b b' : Band) (g q w : Word) (s : State) :
    liveGain (updateBand b g q w s) b' = liveGain s b' := by
  rw [updateBand_frame]
  cases b' <;> rfl

@[simp] theorem updateLiveBand_life (b : Band) (w : Word) (s : State) :
    (updateLiveBand b w s).life = s.life := Safety.updateBand_life b _ _ w s

@[simp] theorem updateLiveBand_midQ (b : Band) (w : Word) (s : State) :
    (updateLiveBand b w s).midQ = s.midQ := updateBand_midQ b _ _ w s

@[simp] theorem liveGain_updateLiveBand (b b' : Band) (w : Word) (s : State) :
    liveGain (updateLiveBand b w s) b' = liveGain s b' := liveGain_updateBand b b' _ _ w s

/-- An update moves no live parameter, so each uses those from before the three. -/
theorem updateLiveBands_eq (w : Band → Word) (s : State) : updateLiveBands w s =
    updateBand .high s.highGainDb s.midQ (w .high)
      (updateBand .mid s.midGainDb s.midQ (w .mid)
        (updateBand .low s.lowGainDb s.midQ (w .low) s)) := by
  simp only [updateLiveBands, updateLiveBand, liveGain_updateBand, updateBand_midQ]
  rfl

/-- The state fields the three updates leave alone. -/
theorem updateLiveBands_frame (w : Band → Word) (s : State) : updateLiveBands w s =
    { s with
      coef := (updateLiveBands w s).coef
      lastGain := (updateLiveBands w s).lastGain
      lastQ := (updateLiveBands w s).lastQ
      valid := (updateLiveBands w s).valid
      calcCount := (updateLiveBands w s).calcCount
      eInvParam := (updateLiveBands w s).eInvParam
      errCause := (updateLiveBands w s).errCause
      errCmd := (updateLiveBands w s).errCmd } := by
  simp only [updateLiveBands, updateLiveBand]
  rw [updateBand_frame .high, updateBand_frame .mid, updateBand_frame .low]

/-- The recorded word is all that an update takes from its own and that it may leave behind. -/
theorem updateLiveBand_setErrCmd (b : Band) (w w' e : Word) (s : State) : ∃ e',
    updateLiveBand b w' { s with errCmd := e } = { updateLiveBand b w s with errCmd := e' } := by
  have hcache : cacheHit b (liveGain s b) s.midQ { s with errCmd := e } =
      cacheHit b (liveGain s b) s.midQ s := rfl
  have hgain : liveGain { s with errCmd := e } b = liveGain s b := by cases b <;> rfl
  unfold updateLiveBand updateBand
  rw [hgain, hcache]
  split_ifs
  · exact ⟨w', rfl⟩
  · exact ⟨e, rfl⟩
  · cases designBand b s.fs s.midQ (linearGain (liveGain s b)) with
    | none => exact ⟨w', rfl⟩
    | some r => exact ⟨e, rfl⟩

/-- Updates that record other words differ in `ERR_CMD` alone (R189). -/
theorem updateLiveBands_of_words (w w' : Band → Word) (s : State) :
    ∃ e, updateLiveBands w' s = { updateLiveBands w s with errCmd := e } := by
  obtain ⟨e₁, hlow⟩ := updateLiveBand_setErrCmd .low (w .low) (w' .low) s.errCmd s
  obtain ⟨e₂, hmid⟩ :=
    updateLiveBand_setErrCmd .mid (w .mid) (w' .mid) e₁ (updateLiveBand .low (w .low) s)
  obtain ⟨e₃, hhigh⟩ := updateLiveBand_setErrCmd .high (w .high) (w' .high) e₂
    (updateLiveBand .mid (w .mid) (updateLiveBand .low (w .low) s))
  refine ⟨e₃, ?_⟩
  rw [updateLiveBands, hlow, hmid, hhigh, updateLiveBands]

end Sys2Proof.Machine

namespace Sys2Proof.Safety
open Sys2Proof.Machine

theorem inv_updateLiveBand {s : State} (h : Inv s) (hlife : s.life ≠ .uninitialized) (b : Band)
    (w : Word) : Inv (updateLiveBand b w s) :=
  inv_updateBand h hlife b _ _ w

/-- The band has a parameter that an update rejects, or its cache holds the live parameters: an
update then changes no coefficient (R149). -/
def BandSettled (b : Band) (s : State) : Prop :=
  paramNaN b (liveGain s b) s.midQ = true ∨ cacheHit b (liveGain s b) s.midQ s = true

/-- The coefficients, the caches and `CALC_COUNT` agree. -/
structure SameBands (s t : State) : Prop where
  coef : t.coef = s.coef
  lastGain : t.lastGain = s.lastGain
  lastQ : t.lastQ = s.lastQ
  valid : t.valid = s.valid
  calcCount : t.calcCount = s.calcCount

theorem SameBands.refl (s : State) : SameBands s s := ⟨rfl, rfl, rfl, rfl, rfl⟩

theorem SameBands.symm {s t : State} (h : SameBands s t) : SameBands t s :=
  ⟨h.coef.symm, h.lastGain.symm, h.lastQ.symm, h.valid.symm, h.calcCount.symm⟩

theorem SameBands.trans {s t u : State} (h : SameBands s t) (h' : SameBands t u) :
    SameBands s u :=
  ⟨h'.coef.trans h.coef, h'.lastGain.trans h.lastGain, h'.lastQ.trans h.lastQ,
    h'.valid.trans h.valid, h'.calcCount.trans h.calcCount⟩

/-- In a prepared state the calculator rejects no update (R158), so three outcomes are left. -/
theorem updateLiveBand_cases {s : State} (h : Inv s) (hlife : s.life ≠ .uninitialized) (b : Band)
    (w : Word) :
    (paramNaN b (liveGain s b) s.midQ = true ∧
      updateLiveBand b w s = raiseError .invalidParameter w s) ∨
    (cacheHit b (liveGain s b) s.midQ s = true ∧ updateLiveBand b w s = s) ∨
    ∃ r, updateLiveBand b w s = applyBand b (liveGain s b) s.midQ r (countInvocation s) := by
  rcases updateBand_cases b (liveGain s b) s.midQ w s with ⟨hnan, heq⟩ | ⟨_, hhit, heq⟩ |
    ⟨hok, _, hnone, _⟩ | ⟨r, _, _, _, heq⟩
  · exact .inl ⟨hnan, heq⟩
  · exact .inr (.inl ⟨hhit, heq⟩)
  · have hparam := mt paramNaN_iff.2 (Bool.eq_false_iff.1 hok)
    rw [not_or, not_and, Bool.not_eq_true, Bool.not_eq_true] at hparam
    obtain ⟨hg, hq⟩ := hparam
    obtain ⟨r, hr⟩ :=
      calculatorNeverRejectsABandUpdate s h.lifecycle hlife b (liveGain s b) s.midQ hg hq
    rw [hr] at hnone
    cases hnone
  · exact .inr (.inr ⟨r, heq⟩)

/-- Without a NaN parameter an update records no error. -/
theorem updateLiveBand_errCmd {s : State} (h : Inv s) (hlife : s.life ≠ .uninitialized) {b : Band}
    (hok : paramNaN b (liveGain s b) s.midQ = false) (w : Word) :
    (updateLiveBand b w s).errCmd = s.errCmd := by
  rcases updateLiveBand_cases h hlife b w with ⟨hnan, _⟩ | ⟨_, heq⟩ | ⟨r, heq⟩
  · rw [hok] at hnan
    cases hnan
  · rw [heq]
  · rw [heq]
    rfl

theorem updateLiveBands_errCmd {s : State} (h : Inv s) (hlife : s.life ≠ .uninitialized)
    (hok : ∀ b, paramNaN b (liveGain s b) s.midQ = false) (w : Band → Word) :
    (updateLiveBands w s).errCmd = s.errCmd := by
  have hlow := inv_updateLiveBand h hlife .low (w .low)
  have hmid := inv_updateLiveBand hlow (by simpa using hlife) .mid (w .mid)
  rw [updateLiveBands, updateLiveBand_errCmd hmid (by simpa using hlife) (by simpa using hok .high),
    updateLiveBand_errCmd hlow (by simpa using hlife) (by simpa using hok .mid),
    updateLiveBand_errCmd h hlife (hok .low)]

/-! Settled bands: an update settles its band, and updates of settled bands change no band. -/

theorem bandSettled_updateLiveBand_self {s : State} (h : Inv s) (hlife : s.life ≠ .uninitialized)
    (b : Band) (w : Word) : BandSettled b (updateLiveBand b w s) := by
  rw [BandSettled, liveGain_updateLiveBand, updateLiveBand_midQ]
  rcases updateLiveBand_cases h hlife b w with ⟨hnan, _⟩ | ⟨hhit, heq⟩ | ⟨r, heq⟩
  · exact .inl hnan
  · exact .inr (by rwa [heq])
  · exact .inr (by rw [heq]; exact cacheHit_applyBand b _ _ r _)

/-- `LAST_Q` belongs to MID alone (R20). -/
theorem updateBand_lastQ_of_ne_mid {b : Band} (hb : b ≠ .mid) (g q w : Word) (s : State) :
    (updateBand b g q w s).lastQ = s.lastQ := by
  rcases updateBand_cases b g q w s with ⟨_, heq⟩ | ⟨_, _, heq⟩ | ⟨_, _, _, heq⟩ |
    ⟨r, _, _, _, heq⟩ <;> rw [heq] <;> simp [hb]

theorem cacheHit_updateBand_other {b b' : Band} (hne : b' ≠ b) (g q w g' q' : Word) (s : State) :
    cacheHit b' g' q' (updateBand b g q w s) = true ↔ cacheHit b' g' q' s = true := by
  obtain ⟨_, hgain, hvalid⟩ := updateBand_other hne g q w s
  rw [cacheHit_iff, cacheHit_iff, hgain, hvalid]
  refine and_congr_right' (and_congr_right' (imp_congr_right fun hmid => ?_))
  rw [updateBand_lastQ_of_ne_mid (hmid ▸ hne.symm)]

theorem bandSettled_updateLiveBand_other {b b' : Band} (hne : b' ≠ b) (w : Word) (s : State) :
    BandSettled b' (updateLiveBand b w s) ↔ BandSettled b' s := by
  rw [BandSettled, BandSettled, liveGain_updateLiveBand, updateLiveBand_midQ, updateLiveBand,
    cacheHit_updateBand_other hne]

theorem bandSettled_updateLiveBands {s : State} (h : Inv s) (hlife : s.life ≠ .uninitialized)
    (w : Band → Word) (b : Band) : BandSettled b (updateLiveBands w s) := by
  have hlow := inv_updateLiveBand h hlife .low (w .low)
  have hmid := inv_updateLiveBand hlow (by simpa using hlife) .mid (w .mid)
  rw [updateLiveBands]
  cases b with
  | low =>
    rw [bandSettled_updateLiveBand_other (by decide), bandSettled_updateLiveBand_other (by decide)]
    exact bandSettled_updateLiveBand_self h hlife _ _
  | mid =>
    rw [bandSettled_updateLiveBand_other (by decide)]
    exact bandSettled_updateLiveBand_self hlow (by simpa using hlife) _ _
  | high => exact bandSettled_updateLiveBand_self hmid (by simpa using hlife) _ _

theorem sameBands_updateLiveBand {b : Band} {s : State} (h : BandSettled b s) (w : Word) :
    SameBands s (updateLiveBand b w s) := by
  rw [updateLiveBand, updateBand]
  split_ifs with hnan hhit
  · exact ⟨rfl, rfl, rfl, rfl, rfl⟩
  · exact .refl s
  · exact absurd h (not_or.2 ⟨hnan, hhit⟩)

theorem sameBands_updateLiveBands {s : State} (h : ∀ b, BandSettled b s) (w : Band → Word) :
    SameBands s (updateLiveBands w s) := by
  have hmid : BandSettled .mid (updateLiveBand .low (w .low) s) :=
    (bandSettled_updateLiveBand_other (by decide) _ _).2 (h .mid)
  have hhigh : BandSettled .high (updateLiveBand .mid (w .mid) (updateLiveBand .low (w .low) s)) :=
    (bandSettled_updateLiveBand_other (by decide) _ _).2
      ((bandSettled_updateLiveBand_other (by decide) _ _).2 (h .high))
  exact ((sameBands_updateLiveBand (h .low) _).trans (sameBands_updateLiveBand hmid _)).trans
    (sameBands_updateLiveBand hhigh _)

theorem sameBands_of_words (w w' : Band → Word) (s : State) :
    SameBands (updateLiveBands w s) (updateLiveBands w' s) := by
  obtain ⟨e, heq⟩ := updateLiveBands_of_words w w' s
  rw [heq]
  exact ⟨rfl, rfl, rfl, rfl, rfl⟩

end Sys2Proof.Safety
end

/-! ## What an accepted block does (R176 to R181) -/

section
namespace Sys2Proof.Machine

theorem exec_block_of_accepted {nin : BitVec 4} {n : BitVec 16} {s : State}
    (hnin : nin.toNat ≤ Config.nch) (hlife : s.life ≠ .uninitialized)
    (hn : n.toNat ≤ s.maxBlock.toNat) : exec (.block nin n) s =
      .next (processBlock nin.toNat n.toNat (encode (.block nin n)) s) := by
  simp only [exec, execBlock, ninLegal_iff.2 hnin, Bool.true_eq_false, if_false, if_neg hlife,
    if_neg hn.not_gt]

/-- The snapshot taken and the buffer filled with m. -/
def prepareBlock (m : Memory) (s : State) : State := { takeSnapshot s with buf := m }

theorem updateBand_prepareBlock (b : Band) (g q w : Word) (m : Memory) (s : State) :
    updateBand b g q w (prepareBlock m s) = prepareBlock m (updateBand b g q w s) := by
  have hcache : cacheHit b g q (prepareBlock m s) = cacheHit b g q s := rfl
  have hfs : (prepareBlock m s).fs = s.fs := rfl
  unfold updateBand
  rw [hcache, hfs]
  split_ifs
  · rfl
  · rfl
  · cases designBand b s.fs q (linearGain g) <;> rfl

/-- The three updates from the snapshot are those from the live parameters it was taken of. -/
theorem updateBands_prepareBlock (w : Word) (m : Memory) (s : State) :
    updateBands w (prepareBlock m s) = prepareBlock m (updateLiveBands (fun _ => w) s) := by
  simp only [updateBands, updateLiveBands_eq, updateBand_prepareBlock]
  rfl

/-- The state in which the loops of a block start: the channels without input are filled with zeros
(R178), the snapshot is taken and the bands are updated. -/
def loopStart (nin n : Nat) (w : Word) (s : State) : State :=
  prepareBlock (zeroFillFrom n nin (Config.nch - nin) (takeSnapshot s)).buf
    (updateLiveBands (fun _ => w) s)

theorem processBlock_eq (nin n : Nat) (w : Word) (s : State) : processBlock nin n w s =
    { blockChannels n Config.nch (loopStart nin n w s) with life := .active } := by
  rw [loopStart, ← updateBands_prepareBlock]
  conv_lhs => rw [processBlock, zeroFillFrom_frame]
  rfl

/-- A block leaves every other field as the three band updates do. -/
theorem processBlock_frame (nin n : Nat) (w : Word) (s : State) : processBlock nin n w s =
    { updateLiveBands (fun _ => w) s with
      snapLowGain := s.lowGainDb, snapMidGain := s.midGainDb, snapHighGain := s.highGainDb
      snapMidQ := s.midQ, snapSat := s.satEn, life := .active
      buf := (processBlock nin n w s).buf, delay := (processBlock nin n w s).delay } := by
  rw [processBlock_eq, blockChannels_frame, loopStart, prepareBlock, updateLiveBands_frame]
  rfl

theorem processBlock_coef (nin n : Nat) (w : Word) (s : State) :
    (processBlock nin n w s).coef = (updateLiveBands (fun _ => w) s).coef := by
  rw [processBlock_frame]

theorem processBlock_satEn (nin n : Nat) (w : Word) (s : State) :
    (processBlock nin n w s).satEn = s.satEn := by
  rw [processBlock_frame, updateLiveBands_frame]

theorem processBlock_maxBlock (nin n : Nat) (w : Word) (s : State) :
    (processBlock nin n w s).maxBlock = s.maxBlock := by
  rw [processBlock_frame, updateLiveBands_frame]

/-! The buffer and the delays at the start of the loops. -/

theorem loopStart_buf (nin n : Nat) (w : Word) (s : State) : (loopStart nin n w s).buf =
    (zeroFillFrom n nin (Config.nch - nin) (takeSnapshot s)).buf := rfl

theorem loopStart_bufEpoch (nin n : Nat) (w : Word) (s : State) : (loopStart nin n w s).bufEpoch =
    (zeroFillFrom n nin (Config.nch - nin) (takeSnapshot s)).bufEpoch := by
  rw [zeroFillFrom_frame, loopStart, prepareBlock, updateLiveBands_frame]
  rfl

theorem loopStart_snapSat (nin n : Nat) (w : Word) (s : State) :
    (loopStart nin n w s).snapSat = s.satEn := by
  rw [loopStart, prepareBlock, updateLiveBands_frame]
  rfl

theorem chanDelay_loopStart (nin n c : Nat) (w : Word) (s : State) :
    chanDelay (loopStart nin n w s) c = chanDelay s c := by
  rw [loopStart, prepareBlock, updateLiveBands_frame]
  rfl

theorem readByte_congr {s t : State} (hbuf : t.buf = s.buf) (hepoch : t.bufEpoch = s.bufEpoch)
    (a : Nat) : readByte t a = readByte s a := by
  rw [readByte, readByte, hbuf, hepoch]

/-- A block writes the words 0 to n-1 of the channels and no other byte. -/
theorem readByte_processBlock {nin n a : Nat} (hnin : nin ≤ Config.nch)
    (h : ∀ c < Config.nch, ∀ i < n, a / 4 ≠ bufAddr c i) (w : Word) (s : State) :
    readByte (processBlock nin n w s) a = readByte s a := calc
  readByte (processBlock nin n w s) a
      = readByte (blockChannels n Config.nch (loopStart nin n w s)) a := by
        rw [processBlock_eq]
        rfl
  _ = readByte (loopStart nin n w s) a := readByte_blockChannels h _
  _ = readByte (zeroFillFrom n nin (Config.nch - nin) (takeSnapshot s)) a :=
        readByte_congr (loopStart_buf nin n w s) (loopStart_bufEpoch nin n w s) a
  _ = readByte s a := readByte_zeroFillFrom (fun c hc => h c (by omega)) _

/-- The input of a channel: +0.0 on the channels without input (R178). -/
def blockInput (nin : Nat) (s : State) (c i : Nat) : Word :=
  if nin ≤ c then posZero else readBuf s c i

section Loops
variable {nin n c i : Nat} (hn : n ≤ 0x1000) (hc : c < Config.nch)
include hn hc

theorem readBuf_loopStart (hi : i < n) (w : Word) (s : State) :
    readBuf (loopStart nin n w s) c i = blockInput nin s c i := by
  rw [readBuf_congr (loopStart_buf nin n w s) (loopStart_bufEpoch nin n w s),
    readBuf_zeroFillFrom n nin _ hn _ c i (by omega), blockInput]
  exact if_congr (by omega) rfl rfl

/-- A channel's delays after a block are those of its n input samples. -/
theorem chanDelay_processBlock (w : Word) (s : State) : chanDelay (processBlock nin n w s) c =
    delaysAfter (processBlock nin n w s).coef (blockInput nin s c) (chanDelay s c) n := by
  have hloops := chanDelay_blockChannels hn le_rfl hc (loopStart nin n w s)
  rw [chanDelay_loopStart,
    delaysAfter_congr _ _ fun i hi => readBuf_loopStart hn hc hi w s] at hloops
  rw [processBlock_coef, processBlock_eq]
  exact hloops

/-- A channel's words after a block are the outputs for its input, the stage as `SAT_EN` was (R180,
R181). -/
theorem readBuf_processBlock (hi : i < n) (w : Word) (s : State) :
    readBuf (processBlock nin n w s) c i = saturate s.satEn
      (outputAt (processBlock nin n w s).coef (blockInput nin s c) (chanDelay s c) i) := by
  have hloops := readBuf_blockChannels hn le_rfl hc hi (loopStart nin n w s)
  rw [chanDelay_loopStart, loopStart_snapSat,
    outputAt_congr _ _ fun j hj => readBuf_loopStart hn hc (hj.trans_lt hi) w s] at hloops
  rw [processBlock_coef, processBlock_eq]
  exact hloops

end Loops

/-- Settles O48. -/
theorem blockTakesTheSnapshotAndKeepsTheRest :
    Obligations.BlockTakesTheSnapshotAndKeepsTheRest := by
  intro nin n s hnin hlife hn
  have hframe := processBlock_frame nin.toNat n.toNat (encode (.block nin n)) s
  refine ⟨_, exec_block_of_accepted hnin hlife hn, congrArg State.snapLowGain hframe,
    congrArg State.snapMidGain hframe, congrArg State.snapHighGain hframe,
    congrArg State.snapMidQ hframe, congrArg State.snapSat hframe, congrArg State.life hframe,
    ?_, fun a ha => ?_⟩
  · rw [← updateLiveBands_eq fun _ => encode (.block nin n)]
    conv_lhs => rw [hframe]
    conv_rhs => rw [hframe]
  · exact readByte_processBlock hnin (fun c hc i hi haddr => ha ⟨c, i, hc, hi, haddr⟩) _ s

/-- Settles O49: the first sample meets the delays the channel had. -/
theorem blockFirstSample : Obligations.BlockFirstSample := by
  intro nin n s hnin hlife hpos hn hbuf
  refine ⟨_, exec_block_of_accepted hnin hlife hn, fun c hc => ⟨?_, ?_⟩⟩
  · rw [readBuf_processBlock hbuf hc hpos]
    rfl
  · rintro rfl
    exact chanDelay_processBlock hbuf hc _ s

end Sys2Proof.Machine
end

/-! ## A block in two parts (R190) -/

section
namespace Sys2Proof.Machine

/-- v stands where the first n₁ samples of a block from s, under the coefficients co, have led, and
holds the next n₂ input samples at index 0. -/
structure Resumes (co : PerBand CoefSet) (nin n₁ n₂ : Nat) (s v : State) : Prop where
  satEn : v.satEn = s.satEn
  delay : ∀ c < Config.nch,
    chanDelay v c = delaysAfter co (blockInput nin s c) (chanDelay s c) n₁
  input : ∀ c, ∀ j < n₂, blockInput nin v c j = blockInput nin s c (n₁ + j)

theorem blockInput_of_loaded {nin n₁ n₂ : Nat} {s v : State}
    (h : ∀ c j, c < nin → j < n₂ → readBuf v c j = readBuf s c (n₁ + j)) (c j : Nat) (hj : j < n₂) :
    blockInput nin v c j = blockInput nin s c (n₁ + j) := by
  rw [blockInput, blockInput]
  split_ifs with hc
  · rfl
  · exact h c j (by omega) hj

section Resume
variable {co : PerBand CoefSet} {nin n₁ n₂ : Nat} {w w' : Word} {s v : State}
  (h : Resumes co nin n₁ n₂ s v) (hn : n₁ + n₂ ≤ 0x1000)
  (hs : (processBlock nin (n₁ + n₂) w s).coef = co) (hv : (processBlock nin n₂ w' v).coef = co)
include h hn hs hv

/-- The block that resumes gives the outputs n₁, n₁ + 1, … of the whole block. -/
theorem readBuf_processBlock_of_resumes {c j : Nat} (hc : c < Config.nch) (hj : j < n₂) :
    readBuf (processBlock nin n₂ w' v) c j =
      readBuf (processBlock nin (n₁ + n₂) w s) c (n₁ + j) := by
  rw [readBuf_processBlock (by omega) hc hj, readBuf_processBlock hn hc (by omega), hs, hv,
    h.satEn, h.delay c hc, outputAt_add,
    outputAt_congr _ _ fun i hi => h.input c i (hi.trans_lt hj)]

/-- It leaves the delays of the whole block. -/
theorem delay_processBlock_of_resumes :
    (processBlock nin n₂ w' v).delay = (processBlock nin (n₁ + n₂) w s).delay := by
  refine delay_ext fun c hc => ?_
  rw [chanDelay_processBlock (by omega) hc, chanDelay_processBlock hn hc, hs, hv, h.delay c hc,
    delaysAfter_add, delaysAfter_congr _ _ (h.input c)]

end Resume

end Sys2Proof.Machine

namespace Sys2Proof.Safety
open Sys2Proof.Machine

theorem sameBands_processBlock (nin n : Nat) (w : Word) (s : State) :
    SameBands (updateLiveBands (fun _ => w) s) (processBlock nin n w s) := by
  rw [processBlock_frame]
  exact ⟨rfl, rfl, rfl, rfl, rfl⟩

/-- Blocks of any two sizes leave the same coefficients, caches and count. -/
theorem sameBands_processBlock_of_sizes (nin n n' : Nat) (w w' : Word) (s : State) :
    SameBands (processBlock nin n w s) (processBlock nin n' w' s) :=
  ((sameBands_processBlock nin n w s).symm.trans (sameBands_of_words _ _ s)).trans
    (sameBands_processBlock nin n' w' s)

/-- A block leaves every band settled, so the next one changes none. -/
theorem bandSettled_processBlock {s : State} (h : Inv s) (hlife : s.life ≠ .uninitialized)
    (nin n : Nat) (w : Word) (b : Band) : BandSettled b (processBlock nin n w s) := by
  have hbands := bandSettled_updateLiveBands h hlife (fun _ => w) b
  rw [processBlock_frame]
  cases b <;> exact hbands

/-- What the host may do between the parts of a block: load the buffer, while its side of the bus
goes on. -/
def hostLoads (m : Memory) (es : List HostEvent) (vs : List Word) (t : State) : State :=
  { t with buf := m, pending := es, readData := vs }

theorem sameBands_hostLoads (m : Memory) (es : List HostEvent) (vs : List Word) (t : State) :
    SameBands t (hostLoads m es vs t) := ⟨rfl, rfl, rfl, rfl, rfl⟩

theorem bandSettled_hostLoads {t : State} {b : Band} (h : BandSettled b t) (m : Memory)
    (es : List HostEvent) (vs : List Word) : BandSettled b (hostLoads m es vs t) := by
  cases b <;> exact h

section HostLoads
variable {nin n₁ n₂ : Nat} {s : State} {m : Memory} {es : List HostEvent} {vs : List Word}

/-- The state between the parts of a block, the next input samples loaded, resumes the block. -/
theorem resumes_hostLoads (w w₁ : Word) (hn : n₁ ≤ 0x1000)
    (hload : ∀ c j, c < nin → j < n₂ →
      readBuf (hostLoads m es vs (processBlock nin n₁ w₁ s)) c j = readBuf s c (n₁ + j)) :
    Resumes (processBlock nin (n₁ + n₂) w s).coef nin n₁ n₂ s
      (hostLoads m es vs (processBlock nin n₁ w₁ s)) where
  satEn := processBlock_satEn nin n₁ w₁ s
  delay := fun c hc => by
    rw [(sameBands_processBlock_of_sizes nin n₁ (n₁ + n₂) w₁ w s).coef]
    exact chanDelay_processBlock hn hc w₁ s
  input := blockInput_of_loaded hload

/-- The second part of a block changes no coefficient and no cache (R149, R190). -/
theorem sameBands_secondPart (h : Inv s) (hlife : s.life ≠ .uninitialized) (w₁ w₂ : Word) :
    SameBands (processBlock nin n₁ w₁ s)
      (processBlock nin n₂ w₂ (hostLoads m es vs (processBlock nin n₁ w₁ s))) :=
  have hsettled := fun b =>
    bandSettled_hostLoads (bandSettled_processBlock h hlife nin n₁ w₁ b) m es vs
  ((sameBands_hostLoads m es vs _).trans (sameBands_updateLiveBands hsettled _)).trans
    (sameBands_processBlock nin n₂ w₂ _)

end HostLoads

/-- Settles O51: the second part meets settled bands and the delays of the first. -/
theorem blockSplitting : Obligations.BlockSplitting := by
  intro nin n₁ n₂ n s hinv hlife hnin hn hmax
  have hbuf : s.maxBlock.toNat ≤ 0x1000 := (hinv.lifecycle.1 hlife).2.2
  refine ⟨_, _, exec_block_of_accepted hnin hlife hmax,
    exec_block_of_accepted hnin hlife (by omega), fun c i hc hi => ?_, fun v hv hload => ?_⟩
  · rw [readBuf_processBlock (by omega) hc hi, readBuf_processBlock (by omega) hc (by omega),
      (sameBands_processBlock_of_sizes nin.toNat n.toNat n₁.toNat _ _ s).coef]
  · rw [hn]
    obtain ⟨m, es, vs, rfl⟩ : ∃ m es vs, v = hostLoads m es vs
      (processBlock nin.toNat n₁.toNat (encode (.block nin n₁)) s) := ⟨_, _, _, hv⟩
    have hsum : n₁.toNat + n₂.toNat ≤ 0x1000 := by omega
    have hresumes := resumes_hostLoads (encode (.block nin n)) _ (by omega) hload
    have hsame := (sameBands_processBlock_of_sizes nin.toNat (n₁.toNat + n₂.toNat) n₁.toNat
      (encode (.block nin n)) _ s).trans (sameBands_secondPart (n₂ := n₂.toNat) (m := m) (es := es)
        (vs := vs) hinv hlife (encode (.block nin n₁)) (encode (.block nin n₂)))
    have hfits : n₂.toNat ≤
        (processBlock nin.toNat n₁.toNat (encode (.block nin n₁)) s).maxBlock.toNat := by
      rw [processBlock_maxBlock]
      omega
    refine ⟨_, exec_block_of_accepted hnin (nomatch ·) hfits, fun c j hc hj =>
      readBuf_processBlock_of_resumes hresumes hsum rfl hsame.coef hc hj,
      delay_processBlock_of_resumes hresumes hsum rfl hsame.coef, hsame.coef, hsame.lastGain,
      hsame.lastQ, hsame.valid, hsame.calcCount⟩

end Sys2Proof.Safety
end

/-! ## A block and its unit commands (R189)

The unit commands move registers that a block leaves alone, and the block registers that they leave
alone. `asBlock` puts the block's values there; through it one sample by unit commands is one sample
of a block, and so are the loops. -/

section
namespace Sys2Proof.Machine

/-- The registers in which a block and its unit commands may differ, but for `SNAP_SAT` (R189). -/
structure BlockSide where
  opX : Word
  resY : Word
  snapLowGain : Word
  snapMidGain : Word
  snapHighGain : Word
  snapMidQ : Word
  errCmd : Word
  life : Life

/-- The state of a block that has these values where unit commands have led to u. A block in
progress has `SAT_EN` in `SNAP_SAT`. -/
def asBlock (f : BlockSide) (u : State) : State :=
  { u with
    opX := f.opX, resY := f.resY, snapLowGain := f.snapLowGain, snapMidGain := f.snapMidGain
    snapHighGain := f.snapHighGain, snapMidQ := f.snapMidQ, snapSat := u.satEn
    errCmd := f.errCmd, life := f.life }

@[simp] theorem andThen_next (s : State) (f : State → Host.Outcome State Fault Refusal) :
    andThen (.next s) f = f s := rfl

/-- The two operand registers that unit commands move. -/
def setUnitRegs (x y : Word) (u : State) : State := { u with opX := x, resY := y }

/-- `CHSAMPLE` on buffer word i: what a block computes, with the delays written (R147, R148). -/
def unitChsample (c i : Nat) (u : State) : State :=
  setUnitRegs (readBuf u c i) (sampleResult c i u).1
    (setChanDelay c (sampleResult c i u).2 { u with life := .active })

theorem runEvents_chsample {c : Nat} (hc : c < 2) (i : Nat) {u : State}
    (hlife : u.life ≠ .uninitialized) :
    runEvents [wr .opX (readBuf u c i), cmdLine (.chsample (BitVec.ofNat 4 c))] u =
      .next (unitChsample c i u) := by
  have hcmd := hostEvent_chsample hc (s := setUnitRegs (readBuf u c i) u.resY u) hlife
  exact congrArg (andThen · (runEvents [])) hcmd

/-- The optional `SAT` of R189 puts the value of `RES_Y` through the stage. -/
theorem exists_unitStage (u : State) : ∃ x,
    (if u.satEn then runEvents [wr .opX u.resY, cmdLine .sat] u else .next u) =
      .next (setUnitRegs x (saturate u.satEn u.resY) u) := by
  cases hsat : u.satEn
  · exact ⟨u.opX, rfl⟩
  · refine ⟨u.resY, ?_⟩
    rw [if_pos rfl, ← hsat]
    rfl

/-- The value that one sample stores: the chain's output after the stage. -/
def unitOutput (c i : Nat) (u : State) : Word := saturate u.satEn (sampleResult c i u).1

/-- One sample of a channel by unit commands (R189). -/
theorem exists_unitSample_eq {c i : Nat} (hc : c < 2) (hi : i < 0x1000) {u : State}
    (hlife : u.life ≠ .uninitialized) : ∃ x, unitSample c i u = .next
      (writeBuf c i (unitOutput c i u)
        (setUnitRegs x (unitOutput c i u) (unitChsample c i u))) := by
  obtain ⟨x, hstage⟩ := exists_unitStage (unitChsample c i u)
  refine ⟨x, ?_⟩
  rw [unitSample, runEvents_chsample hc i hlife, andThen_next, hstage, andThen_next, runEvents,
    hostEvent_wr_buf hc hi]
  rfl

/-- The same sample in a block. -/
theorem blockSample_asBlock (f : BlockSide) (c i : Nat) (u : State) (x : Word) :
    blockSample c i (asBlock f u) = asBlock f (writeBuf c i (unitOutput c i u)
      (setUnitRegs x (unitOutput c i u) (unitChsample c i u))) := by
  have hresult : sampleResult c i (asBlock f u) = sampleResult c i u := rfl
  rw [blockSample_eq, hresult]
  rfl

/-- Where unit commands have led from u when a block has been led to t; an initialized core has
become Active if they took a sample. -/
structure UnitsReach (f : BlockSide) (u t u' : State) (sampled : Prop) : Prop where
  block : t = asBlock f u'
  errCmd : u'.errCmd = u.errCmd
  initialized : u'.life ≠ .uninitialized
  active : sampled → u'.life = .active

section Units
variable {f : BlockSide} {u : State} (hlife : u.life ≠ .uninitialized)
include hlife

theorem unitsReach_unitSample {c i : Nat} (hc : c < 2) (hi : i < 0x1000) :
    ∃ u', unitSample c i u = .next u' ∧
      UnitsReach f u (blockSample c i (asBlock f u)) u' True := by
  obtain ⟨x, hrun⟩ := exists_unitSample_eq hc hi hlife
  exact ⟨_, hrun, blockSample_asBlock f c i u x, rfl, Life.noConfusion, fun _ => rfl⟩

theorem unitsReach_unitChannel {c n : Nat} (hc : c < 2) (hn : n ≤ 0x1000) :
    ∃ u', unitChannel c n u = .next u' ∧
      UnitsReach f u (blockChannel c n (asBlock f u)) u' (0 < n) := by
  induction n with
  | zero => exact ⟨u, rfl, rfl, rfl, hlife, nofun⟩
  | succ i ih =>
    obtain ⟨v, hrun, hv⟩ := ih (by omega)
    obtain ⟨v', hrun', hv'⟩ := unitsReach_unitSample (f := f) hv.initialized hc (i := i) (by omega)
    refine ⟨v', ?_, ?_, hv'.errCmd.trans hv.errCmd, hv'.initialized, fun _ => hv'.active trivial⟩
    · rw [unitChannel, hrun, andThen_next, hrun']
    · rw [blockChannel, hv.block, hv'.block]

theorem unitsReach_unitChannels {n k : Nat} (hk : k ≤ 2) (hn : n ≤ 0x1000) :
    ∃ u', unitChannels n k u = .next u' ∧
      UnitsReach f u (blockChannels n k (asBlock f u)) u' (0 < k ∧ 0 < n) := by
  induction k with
  | zero => exact ⟨u, rfl, rfl, rfl, hlife, fun h => absurd h.1 (Nat.lt_irrefl 0)⟩
  | succ c ih =>
    obtain ⟨v, hrun, hv⟩ := ih (by omega)
    obtain ⟨v', hrun', hv'⟩ := unitsReach_unitChannel (f := f) hv.initialized (c := c) hk hn
    refine ⟨v', ?_, ?_, hv'.errCmd.trans hv.errCmd, hv'.initialized, fun h => hv'.active h.2⟩
    · rw [unitChannels, hrun, andThen_next, hrun']
    · rw [blockChannels, hv.block, hv'.block]

/-- `UPDATEALL` is the three updates of the live parameters, each recording its own word (R67). -/
theorem runEvents_pseudoUpdateAll : runEvents pseudoUpdateAll u =
    .next (updateLiveBands (fun b => encode (.update b)) u) := by
  have hlow := hostEvent_update .low hlife
  have hmid := hostEvent_update .mid (s := updateLiveBand .low (encode (.update .low)) u)
    (by simpa using hlife)
  have hhigh := hostEvent_update .high (s := updateLiveBand .mid (encode (.update .mid))
    (updateLiveBand .low (encode (.update .low)) u)) (by simpa using hlife)
  rw [pseudoUpdateAll, runEvents, hlow, andThen_next, runEvents]
  exact (congrArg (andThen · _) hmid).trans (congrArg (andThen · (runEvents [])) hhigh)

end Units

end Sys2Proof.Machine

namespace Sys2Proof.Safety
open Sys2Proof.Machine

/-- What a block has in the registers that unit commands move: the old operand registers and `LIFE`,
the snapshot, and the word its own error would record. -/
def blockSide (w : Word) (s : State) : BlockSide where
  opX := s.opX
  resY := s.resY
  snapLowGain := s.lowGainDb
  snapMidGain := s.midGainDb
  snapHighGain := s.highGainDb
  snapMidQ := s.midQ
  errCmd := (updateLiveBands (fun _ => w) s).errCmd
  life := s.life

/-- After its band updates a block with all inputs stands where the three `UPDATE`s lead. -/
theorem loopStart_eq_asBlock (n : Nat) (w : Word) (w' : Band → Word) (s : State) :
    loopStart Config.nch n w s = asBlock (blockSide w s) (updateLiveBands w' s) := by
  obtain ⟨e, hwords⟩ := updateLiveBands_of_words (fun _ => w) w' s
  rw [hwords, loopStart, prepareBlock, asBlock, blockSide, updateLiveBands_frame]
  rfl

/-- Settles O50: the loops start and go on side by side. -/
theorem blockEqualsUnitCommands : Obligations.BlockEqualsUnitCommands := by
  intro n s hinv hlife hmax
  have hn : n.toNat ≤ 0x1000 := hmax.trans (hinv.lifecycle.1 hlife).2.2
  have hlife' : (updateLiveBands (fun b => encode (.update b)) s).life ≠ .uninitialized := by
    rwa [updateLiveBands_frame]
  obtain ⟨u, hrun, hu⟩ := unitsReach_unitChannels (f := blockSide (encode (.block 2#4 n)) s) hlife'
    le_rfl hn
  have hblock : processBlock 2 n.toNat (encode (.block 2#4 n)) s =
      { asBlock (blockSide (encode (.block 2#4 n)) s) u with life := .active } := by
    rw [← hu.block, ← loopStart_eq_asBlock n.toNat]
    exact processBlock_eq _ _ _ s
  have hexec := exec_block_of_accepted (nin := 2#4) (by decide) hlife hmax
  refine ⟨_, u, hexec.trans (congrArg _ hblock), ?_, fun c i _ _ => rfl, fun hpos => ?_,
    fun hlow hmid hhigh hq => ?_, ?_⟩
  · rw [unitBlock, runEvents_pseudoUpdateAll hlife, andThen_next]
    exact hrun
  · exact (hu.active ⟨by decide, hpos⟩).symm
  · have hok : ∀ b, paramNaN b (liveGain s b) s.midQ = false := by
      intro b
      cases b <;> exact paramNaN_eq_false (by assumption) fun _ => hq
    rw [hu.errCmd, updateLiveBands_errCmd hinv hlife hok]
    exact updateLiveBands_errCmd hinv hlife hok _
  · have hsat : u.satEn = s.satEn := by
      rw [← processBlock_satEn 2 n.toNat (encode (.block 2#4 n)) s, hblock]
      rfl
    rw [← hsat]
    rfl

end Sys2Proof.Safety
end

/-! # Exceptions (60_exceptions.md)

Error entry is said first. Every command but `CLRERR` then commutes with laying the error record
over an older one, so it neither looks at the record nor takes anything from it; that the flags are
sticky follows. The conditions of `UPDATE`, `CHSAMPLE` and `BLOCK` come last. -/

/-! ## Error entry, and the idle step (R205, R213) -/

section
namespace Sys2Proof.Machine

/-- Settles O6: the first case of `stepOnce`. -/
theorem idleCoreHoldsItsState : Obligations.IdleCoreHoldsItsState :=
  fun _ hidle => step_of_idle hidle

@[simp] theorem errorFlag_raiseError (k k' : ErrorKind) (w : Word) (s : State) :
    errorFlag (raiseError k w s) k' = (errorFlag s k' || decide (k = k')) := by
  cases k' <;> cases k <;> simp [errorFlag]

/-- The only fields that error entry may write are those of the error record. -/
theorem raiseError_frame (k : ErrorKind) (w : Word) (s : State) :
    raiseError k w s = { s with
      eInvParam := errorFlag (raiseError k w s) .invalidParameter
      eUninit := errorFlag (raiseError k w s) .uninitializedState
      eBadCmd := errorFlag (raiseError k w s) .badCommand
      errCause := some k
      errCmd := w } := by
  cases k <;> rfl

/-- Settles O14: the frame of error entry, with its flags and the cause code read off. -/
theorem errorEntryRecordsOnlyTheError : Obligations.ErrorEntryRecordsOnlyTheError := by
  refine fun k w s =>
    ⟨Safety.errorFlag_raiseError_self k w s, fun k' hne => ?_, raiseError_frame k w s, ?_⟩
  · rw [errorFlag_raiseError, decide_eq_false hne.symm, Bool.or_false]
  · cases k <;> rfl

end Sys2Proof.Machine
end

/-! ## The error record laid over another (R204, R205)

An operation that commutes with `overRecord r` behaves alike on every record: what it adds to the
blank one is what it lays over r. -/

section
namespace Sys2Proof.Machine
open Sys2Proof.Safety

/-- The state s with its errors recorded on top of those that r has: the flags of both, and the
cause and word of s where it has a cause, else those of r. -/
def overRecord (r s : State) : State :=
  { s with
    eInvParam := r.eInvParam || s.eInvParam
    eUninit := r.eUninit || s.eUninit
    eBadCmd := r.eBadCmd || s.eBadCmd
    errCause := if s.errCause = none then r.errCause else s.errCause
    errCmd := if s.errCause = none then r.errCmd else s.errCmd }

/-- A state is its own error record over the blank one. -/
@[simp] theorem overRecord_eraseErrors (s : State) : overRecord s (eraseErrors s) = s := by
  simp [overRecord, eraseErrors]

@[simp] theorem eraseErrors_overRecord (r s : State) :
    eraseErrors (overRecord r s) = eraseErrors s := rfl

@[simp] theorem errorFlag_overRecord (r s : State) (k : ErrorKind) :
    errorFlag (overRecord r s) k = (errorFlag r k || errorFlag s k) := by
  cases k <;> rfl

/-! ### Shared operations -/

section Operations
variable (r : State)

theorem raiseError_overRecord (k : ErrorKind) (w : Word) (s : State) :
    raiseError k w (overRecord r s) = overRecord r (raiseError k w s) := by
  cases k <;> simp [raiseError, setErrorFlag, overRecord]

theorem finishCalc_overRecord (w : Word) (c : Option CoefSet) (s : State) :
    finishCalc w c (overRecord r s) = overRecord r (finishCalc w c s) := by
  cases c with
  | none => exact raiseError_overRecord r _ w (countInvocation s)
  | some c => rfl

/-- The tests of a band update look at its operands, the cache and the rate alone (R149). -/
theorem updateBand_overRecord (b : Band) (g q w : Word) (s : State) :
    updateBand b g q w (overRecord r s) = overRecord r (updateBand b g q w s) := by
  have hcache : cacheHit b g q (overRecord r s) = cacheHit b g q s := rfl
  have hfs : (overRecord r s).fs = s.fs := rfl
  unfold updateBand
  rw [hcache, hfs]
  split_ifs
  · exact raiseError_overRecord r _ w s
  · rfl
  · cases designBand b s.fs q (linearGain g) with
    | none => exact raiseError_overRecord r _ w (countInvocation s)
    | some c => rfl

theorem updateBands_overRecord (w : Word) (s : State) :
    updateBands w (overRecord r s) = overRecord r (updateBands w s) := by
  simp only [updateBands, ← updateBand_overRecord]
  rfl

theorem zeroFill_overRecord (c n : Nat) (s : State) :
    zeroFill c n (overRecord r s) = overRecord r (zeroFill c n s) := by
  induction n with
  | zero => rfl
  | succ i ih => rw [zeroFill, ih]; rfl

theorem zeroFillFrom_overRecord (n c k : Nat) (s : State) :
    zeroFillFrom n c k (overRecord r s) = overRecord r (zeroFillFrom n c k s) := by
  induction k generalizing c s with
  | zero => rfl
  | succ k ih => rw [zeroFillFrom, zeroFill_overRecord, ih, zeroFillFrom]

theorem blockChannel_overRecord (c n : Nat) (s : State) :
    blockChannel c n (overRecord r s) = overRecord r (blockChannel c n s) := by
  induction n with
  | zero => rfl
  | succ i ih => rw [blockChannel, ih]; rfl

theorem blockChannels_overRecord (n k : Nat) (s : State) :
    blockChannels n k (overRecord r s) = overRecord r (blockChannels n k s) := by
  induction k with
  | zero => rfl
  | succ c ih => rw [blockChannels, ih, blockChannel_overRecord, blockChannels]

theorem processBlock_overRecord (nin n : Nat) (w : Word) (s : State) :
    processBlock nin n w (overRecord r s) = overRecord r (processBlock nin n w s) := by
  have hsnap : takeSnapshot (overRecord r s) = overRecord r (takeSnapshot s) := rfl
  simp only [processBlock, hsnap, zeroFillFrom_overRecord, updateBands_overRecord,
    blockChannels_overRecord]
  rfl

end Operations

/-! ### Commands -/

/-- The command ends in a next state, and from s laid over any record in that state laid over it. -/
def CommutesOverRecord (f : State → Host.Outcome State Fault Refusal) (s : State) : Prop :=
  ∃ t, f s = .next t ∧ ∀ r, f (overRecord r s) = .next (overRecord r t)

theorem commutesOverRecord_next {g : State → State} {s : State}
    (h : ∀ r, g (overRecord r s) = overRecord r (g s)) :
    CommutesOverRecord (fun s => .next (g s)) s :=
  ⟨g s, rfl, fun r => congrArg _ (h r)⟩

theorem commutesOverRecord_raiseError (k : ErrorKind) (w : Word) (s : State) :
    CommutesOverRecord (fun s => .next (raiseError k w s)) s :=
  commutesOverRecord_next fun r => raiseError_overRecord r k w s

/-- A test that does not look at the error record. -/
theorem commutesOverRecord_ite {p : State → Prop} [DecidablePred p] {s : State}
    {f g : State → Host.Outcome State Fault Refusal} (hp : ∀ r, p (overRecord r s) = p s)
    (hf : CommutesOverRecord f s) (hg : CommutesOverRecord g s) :
    CommutesOverRecord (fun s => if p s then f s else g s) s := by
  by_cases h : p s
  · simpa only [CommutesOverRecord, hp, h, if_true] using hf
  · simpa only [CommutesOverRecord, hp, h, if_false] using hg

/-- No command but `CLRERR` looks at the error record or takes anything from it (R204). -/
theorem commutesOverRecord_exec {i : Instr} (hi : i ≠ .clrerr) (s : State) :
    CommutesOverRecord (exec i) s := by
  have hraise := commutesOverRecord_raiseError (s := s)
  cases i with
  | clrerr => exact absurd rfl hi
  | nop | reset | ldcoef b | sat => exact ⟨_, rfl, fun _ => rfl⟩
  | calcls | calchs | calcpk =>
    exact commutesOverRecord_next fun r => finishCalc_overRecord r _ _ s
  | prepare =>
    exact commutesOverRecord_ite (fun _ => rfl) (commutesOverRecord_next fun _ => rfl) (hraise _ _)
  | update b =>
    refine commutesOverRecord_ite (fun _ => rfl) (hraise _ _) (commutesOverRecord_next fun r => ?_)
    have hgain : liveGain (overRecord r s) b = liveGain s b := by cases b <;> rfl
    rw [hgain]
    exact updateBand_overRecord r b _ s.midQ _ s
  | chsample ch =>
    exact commutesOverRecord_ite (fun _ => rfl) (hraise _ _) <|
      commutesOverRecord_ite (fun _ => rfl) (hraise _ _) (commutesOverRecord_next fun _ => rfl)
  | block nin n =>
    exact commutesOverRecord_ite (fun _ => rfl) (hraise _ _) <|
      commutesOverRecord_ite (fun _ => rfl) (hraise _ _) <|
      commutesOverRecord_ite (fun _ => rfl) (hraise _ _) <|
      commutesOverRecord_next fun r => processBlock_overRecord r _ _ _ s
  | bqstep b ch | bqreset b ch =>
    exact commutesOverRecord_ite (fun _ => rfl) (commutesOverRecord_next fun _ => rfl) (hraise _ _)

/-- A command's result is what it makes of the state with a blank record, laid over the record that
the state has. -/
theorem exec_eq_overRecord {i : Instr} (hi : i ≠ .clrerr) (s : State) : ∃ t',
    exec i (eraseErrors s) = .next t' ∧ exec i s = .next (overRecord s t') := by
  obtain ⟨t', hblank, hover⟩ := commutesOverRecord_exec hi (eraseErrors s)
  have hs := hover s
  rw [overRecord_eraseErrors] at hs
  exact ⟨t', hblank, hs⟩

/-- Settles O16: `CLRERR` forgets whatever was recorded, and each other command lays its errors over
those. -/
theorem errorRecordInfluencesNoCommand : Obligations.ErrorRecordInfluencesNoCommand := by
  intro i s
  by_cases hi : i = .clrerr
  · subst hi
    exact ⟨_, _, exec_clrerr s, exec_clrerr _, rfl, fun hne => absurd rfl hne, fun _ => rfl⟩
  · obtain ⟨t', hblank, hs⟩ := exec_eq_overRecord hi s
    exact ⟨_, t', hs, hblank, rfl, fun _ => ⟨rfl, rfl, errorFlag_overRecord s t'⟩,
      fun hclr => absurd hclr hi⟩

end Sys2Proof.Machine
end

/-! ## Sticky flags (R204) -/

section
namespace Sys2Proof.Machine

/-- Every flag of s is set in the state that the outcome goes on to, if any. -/
def NextKeepsFlags (s : State) (o : Host.Outcome State Fault Refusal) : Prop :=
  ∀ t k, o = .next t → errorFlag s k = true → errorFlag t k = true

theorem nextKeepsFlags_next {s t : State}
    (h : ∀ k, errorFlag s k = true → errorFlag t k = true) : NextKeepsFlags s (.next t) := by
  intro t' k ht
  cases ht
  exact h k

theorem nextKeepsFlags_exec {i : Instr} (hi : i ≠ .clrerr) (s : State) :
    NextKeepsFlags s (exec i s) := by
  obtain ⟨t', _, hs⟩ := exec_eq_overRecord hi s
  rw [hs]
  exact nextKeepsFlags_next fun k hk => by rw [errorFlag_overRecord, hk, Bool.true_or]

/-- The word of `CLRERR` is the only one that the decoder reads as `CLRERR` (R183). -/
theorem nextKeepsFlags_runCommand {w : Word} (hw : w ≠ encode .clrerr) (s : State) :
    NextKeepsFlags s (runCommand w s) := by
  cases hdec : decode w with
  | ok i =>
    rw [runCommand_of_decode hdec]
    refine nextKeepsFlags_exec ?_ s
    rintro rfl
    obtain ⟨_, henc⟩ := encodeOfDecodeIsTheWord w _ hdec
    exact hw henc.symm
  | error e =>
    rw [runCommand_of_error hdec]
    exact nextKeepsFlags_next fun k hk => by rw [errorFlag_raiseError, hk, Bool.true_or]

theorem errorFlag_writeReg (r : Reg) (v : Word) (s : State) (k : ErrorKind) :
    errorFlag (writeReg r v s) k = errorFlag s k := by
  cases r <;> rfl

/-- `STATUS` is read-only, and no other location holds a flag (R32). -/
theorem errorFlag_memWrite (a : Addr) (v : Word) (s : State) (k : ErrorKind) :
    errorFlag (memWrite a v s) k = errorFlag s k := by
  rcases regAt_eq_none_or_standsAt a.toNat with hnone | ⟨r, hr⟩
  · rw [memWrite_of_none hnone]
  · rw [memWrite_of_standsAt hr, errorFlag_writeReg]

theorem nextKeepsFlags_hostEvent {e : HostEvent} (hreset : e ≠ .hwReset)
    (hclr : e ≠ .busWrite cmdAddr (encode .clrerr)) (s : State) :
    NextKeepsFlags s (hostEvent e s) := by
  cases e with
  | hwReset => exact absurd rfl hreset
  | busRead a => exact nextKeepsFlags_next fun _ hk => hk
  | busWrite a v =>
    by_cases ha : a = cmdAddr
    · subst ha
      rw [hostEvent_cmd]
      exact nextKeepsFlags_runCommand (fun hv => hclr (congrArg _ hv)) s
    · rw [hostEvent_busWrite_of_ne ha]
      exact nextKeepsFlags_next fun k hk => (errorFlag_memWrite a v s k).trans hk

/-- Settles O15: an idle step holds the state, and each event other than the two keeps the flags. -/
theorem errorFlagsAreSticky : Obligations.ErrorFlagsAreSticky := by
  intro s t k hstep hflag hreset hclr
  cases hpend : s.pending with
  | nil =>
    rw [step_of_idle hpend] at hstep
    cases hstep
    exact hflag
  | cons e rest =>
    rw [hpend, List.head?_cons, ne_eq, Option.some.injEq] at hreset hclr
    rw [step_of_pending hpend] at hstep
    exact nextKeepsFlags_hostEvent hreset hclr _ t k hstep hflag

end Sys2Proof.Machine
end

/-! ## Before `PREPARE` (R198) -/

section
namespace Sys2Proof.Machine

theorem exec_chsample_of_uninitialized {ch : BitVec 4} (hch : ch.toNat < Config.nch) {s : State}
    (hlife : s.life = .uninitialized) : exec (.chsample ch) s =
      .next (raiseError .uninitializedState (encode (.chsample ch)) s) := by
  simp only [exec, execChsample, chLegal_iff.2 hch, Bool.true_eq_false, if_false, if_pos hlife]

theorem exec_block_of_uninitialized {nin : BitVec 4} (hnin : nin.toNat ≤ Config.nch)
    {s : State} (hlife : s.life = .uninitialized) (n : BitVec 16) : exec (.block nin n) s =
      .next (raiseError .uninitializedState (encode (.block nin n)) s) := by
  simp only [exec, execBlock, ninLegal_iff.2 hnin, Bool.true_eq_false, if_false, if_pos hlife]

/-- The outcome is a next state in which UninitializedState is recorded only where s has it. -/
def NextWithoutUninit (s : State) (o : Host.Outcome State Fault Refusal) : Prop :=
  ∃ t, o = .next t ∧ (t.eUninit = true → s.eUninit = true) ∧
    (t.errCause = some .uninitializedState → s.errCause = some .uninitializedState)

/-- A command that leaves the flag and the cause. -/
theorem nextWithoutUninit_of_eq {s t : State} (hflag : t.eUninit = s.eUninit)
    (hcause : t.errCause = s.errCause) : NextWithoutUninit s (.next t) :=
  ⟨t, rfl, fun h => hflag ▸ h, fun h => hcause ▸ h⟩

theorem nextWithoutUninit_raiseError {k : ErrorKind} (hk : k ≠ .uninitializedState) (w : Word)
    (s : State) : NextWithoutUninit s (.next (raiseError k w s)) :=
  ⟨_, rfl, by simp [hk], by simp [hk]⟩

theorem nextWithoutUninit_finishCalc (w : Word) (c : Option CoefSet) (s : State) :
    NextWithoutUninit s (.next (finishCalc w c s)) := by
  cases c with
  | none => exact nextWithoutUninit_raiseError (by decide) w (countInvocation s)
  | some c => exact nextWithoutUninit_of_eq rfl rfl

theorem nextWithoutUninit_ite {p : Prop} [Decidable p] {s : State}
    {o o' : Host.Outcome State Fault Refusal} (h : NextWithoutUninit s o)
    (h' : NextWithoutUninit s o') : NextWithoutUninit s (if p then o else o') := by
  split
  · exact h
  · exact h'

/-- Settles O18: a well-formed `CHSAMPLE` or `BLOCK` passes its channel test and meets the lifecycle
test next, and the other commands raise InvalidParameter and BadCommand alone. -/
theorem uninitializedCommandsAreNoOps : Obligations.UninitializedCommandsAreNoOps := by
  intro i s hwf hlife
  refine ⟨?_, fun hother => ?_⟩
  · rintro (⟨b, rfl⟩ | ⟨ch, rfl⟩ | ⟨nin, n, rfl⟩)
    · exact exec_update_of_uninitialized hlife b
    · exact exec_chsample_of_uninitialized (chLegal_iff.1 hwf) hlife
    · exact exec_block_of_uninitialized (ninLegal_iff.1 hwf) hlife n
  · change NextWithoutUninit s (exec i s)
    cases i with
    | update b => exact absurd (.inl ⟨b, rfl⟩) hother
    | chsample ch => exact absurd (.inr (.inl ⟨ch, rfl⟩)) hother
    | block nin n => exact absurd (.inr (.inr ⟨nin, n, rfl⟩)) hother
    | prepare | bqstep b ch | bqreset b ch =>
      exact nextWithoutUninit_ite (nextWithoutUninit_of_eq rfl rfl)
        (nextWithoutUninit_raiseError (by decide) _ s)
    | calcls | calchs | calcpk => exact nextWithoutUninit_finishCalc _ _ s
    | nop | reset | ldcoef b | sat => exact nextWithoutUninit_of_eq rfl rfl
    | clrerr => exact ⟨_, rfl, nofun, nofun⟩

end Sys2Proof.Machine
end

/-! ## The order of the conditions of `BLOCK` (R60, R176, R201) -/

section
namespace Sys2Proof

/-- Words are or-ed together field by field. -/
theorem assemble_or (o o' : BitVec 8) (b b' c c' : BitVec 4) (n n' : BitVec 16) :
    assemble o b c n ||| assemble o' b' c' n' =
      assemble (o ||| o') (b ||| b') (c ||| c') (n ||| n') := by
  apply BitVec.eq_of_getLsbD_eq
  intro i _
  simp only [BitVec.getLsbD_or, getLsbD_assemble]
  split_ifs <;> rfl

theorem assemble_ch (ch : BitVec 4) : assemble 0#8 0#4 ch 0#16 = ch.setWidth 32 <<< 16 := by
  revert ch
  decide

theorem assemble_n (n : BitVec 16) : assemble 0#8 0#4 0#4 n = n.setWidth 32 :=
  (BitVec.setWidth_eq_append (x := n) (show 16 ≤ 32 by decide)).symm

/-- The word of a `BLOCK` is its three fields, each in its place (R60). -/
theorem encode_block (nin : BitVec 4) (n : BitVec 16) : encode (.block nin n) =
    0x05000000#32 ||| (nin.setWidth 32 <<< 16) ||| n.setWidth 32 := by
  have hop : 0x05000000#32 = assemble 0x05#8 0#4 0#4 0#16 := rfl
  rw [hop, ← assemble_ch, ← assemble_n]
  simp only [encode, assemble_or, BitVec.zero_or, BitVec.or_zero]

end Sys2Proof

namespace Sys2Proof.Machine
open Sys2Proof.Safety

/-- More inputs than channels make a `BLOCK` illegal (R64). -/
theorem illegalWord_block {nin : BitVec 4} (hnin : Config.nch < nin.toNat) (n : BitVec 16) :
    IllegalWord (encode (.block nin n)) := by
  rw [illegalWord_iff]
  rintro ⟨fmt, hfmt, hlegal⟩
  rw [encode, opField_assemble] at hfmt
  cases hfmt
  rw [encode, bandField_assemble, chField_assemble] at hlegal
  obtain ⟨_, hlegal⟩ := hlegal
  exact absurd (ninLegal_iff.1 hlegal) hnin.not_ge

/-- The step of a `BLOCK` word that decodes is the command. -/
theorem step_block {nin : BitVec 4} (hnin : nin.toNat ≤ Config.nch) {n : BitVec 16} {s : State}
    {rest : List HostEvent}
    (hpend : s.pending = .busWrite 0x001F#16 (encode (.block nin n)) :: rest) :
    step s = exec (.block nin n) { s with pending := rest } := by
  have hdec := decodeOfEncodeIsTheCommand (.block nin n) (ninLegal_iff.2 hnin)
  obtain ⟨hstep, _⟩ := stepRunsTheDecodedCommand _ _ s hdec
  exact hstep rest hpend

theorem exec_block_of_oversized {nin : BitVec 4} (hnin : nin.toNat ≤ Config.nch) {s : State}
    (hlife : s.life ≠ .uninitialized) {n : BitVec 16} (hn : s.maxBlock.toNat < n.toNat) :
    exec (.block nin n) s = .next (raiseError .badCommand (encode (.block nin n)) s) := by
  simp only [exec, execBlock, ninLegal_iff.2 hnin, Bool.true_eq_false, if_false, if_neg hlife,
    if_pos hn]

/-- Settles O19: the decoder's test, then those of `BLOCK` in their order. -/
theorem blockErrorPriority : Obligations.BlockErrorPriority := by
  intro nin n s rest hpend
  rw [← encode_block] at hpend ⊢
  refine ⟨fun hnin => ?_, fun hnin hlife => ?_, fun hnin hlife hn => ?_⟩
  · obtain ⟨hillegal, _⟩ := illegalWordRaisesBadCommand _ s rest hpend
    exact hillegal (illegalWord_block hnin n)
  · rw [step_block hnin hpend]
    exact exec_block_of_uninitialized (s := { s with pending := rest }) hnin hlife n
  · rw [step_block hnin hpend]
    exact exec_block_of_oversized (s := { s with pending := rest }) hnin hlife hn

end Sys2Proof.Machine
end

/-! # Reset and lifecycle (70_reset_and_hazards.md)

What the reset state holds comes first, then the pulse that restores it from any state, then `LIFE`
after each command, and last that Prepared and Active differ for no command. -/

/-! ## The reset state (R221, R222) -/

section
namespace Sys2Proof.Safety
open Sys2Proof.Machine

/-- Settles O21: hardware reset gives the invariant, and the number of the reset, in which the reset
state differs from it, is in no clause. -/
theorem resetMeetsTheInvariant : Obligations.ResetMeetsTheInvariant := by
  obtain ⟨hlifecycle, herrors, hmemory⟩ := inv_hardwareReset State.reset
  exact ⟨hlifecycle, herrors, hmemory⟩

end Sys2Proof.Safety

namespace Sys2Proof.Machine

/-- The addresses of `MID_Q`, `SNAP_MID_Q`, `CS_B0` and the three `COEF[b].b0`: those that read 1.0
after reset (R221). -/
def resetOnes : List Addr := [0x0003#16, 0x003B#16, 0x0010#16, 0x0020#16, 0x0028#16, 0x0030#16]

/-- Each of them is the address of a register. -/
theorem register_of_mem_resetOnes :
    ∀ a ∈ resetOnes, regAt a.toNat ≠ none ∧ a.toNat < 0x1000 := by
  simp only [resetOnes, List.forall_mem_cons]
  exact ⟨by decide, by decide, by decide, by decide, by decide, by decide, nofun⟩

/-- What each location outside the sample buffer holds after reset (R221). -/
theorem readReg_reset {r : Reg} (hpres : r.present = true) (hbuf : ∀ ch i, r ≠ .buf ch i) :
    readReg State.reset r =
      if BitVec.ofNat 16 (regAddr r) ∈ resetOnes then 0x3F800000#32 else 0#32 := by
  cases r with
  | buf ch i => exact absurd rfl (hbuf ch i)
  | cs f => cases f <;> rfl
  | coef b f => cases b <;> cases f <;> rfl
  | lastGain b => cases b <;> rfl
  | valid b => cases b <;> rfl
  | delay ch b f =>
    have hch : ch < 2 := present_delay_iff.1 hpres
    obtain rfl | rfl : ch = 0 ∨ ch = 1 := by omega
    all_goals cases b <;> cases f <;> rfl
  | _ => rfl

/-- The words of the sample buffer stand between 0x1000 and 0x2FFF (R41). -/
theorem range_of_standsAt_buf {ch i a : Nat} (h : StandsAt (.buf ch i) a) :
    0x1000 ≤ a ∧ a < 0x3000 := by
  obtain ⟨hpres, rfl⟩ := h
  obtain ⟨hch, hi⟩ : ch < 2 ∧ i < 0x1000 := present_buf_iff.1 hpres
  simp only [regAddr, bufAddr]
  omega

theorem ne_buf_of_standsAt {r : Reg} {a : Nat} (h : StandsAt r a) (ha : a < 0x1000 ∨ 0x3000 ≤ a)
    (ch i : Nat) : r ≠ .buf ch i := by
  rintro rfl
  obtain ⟨hlow, hhigh⟩ := range_of_standsAt_buf h
  omega

/-- An address in the range of the sample buffer reads the word of memory there (R41). -/
theorem memRead_of_buffer {a : Addr} (hlow : 0x1000 ≤ a.toNat) (hhigh : a.toNat < 0x3000)
    (s : State) : memRead s a = readMemWord s a.toNat := by
  have hword := standsAt_of_regAt (regAt_buf hlow hhigh)
  exact (memRead_of_standsAt hword s).trans (congrArg (readMemWord s) hword.2)

/-- The addresses outside the sample buffer, reserved ones among them (R43, R221). -/
theorem memRead_reset_outside {a : Addr} (ha : a.toNat < 0x1000 ∨ 0x3000 ≤ a.toNat) :
    memRead State.reset a = if a ∈ resetOnes then 0x3F800000#32 else 0#32 := by
  rcases regAt_eq_none_or_standsAt a.toNat with hnone | ⟨r, hr⟩
  · rw [memRead_of_none hnone, if_neg fun hmem => (register_of_mem_resetOnes a hmem).1 hnone]
  · rw [memRead_of_standsAt hr, readReg_reset hr.1 (ne_buf_of_standsAt hr ha), hr.2,
      BitVec.ofNat_toNat, BitVec.setWidth_eq]

/-- Settles O12: nothing of the buffer is listed after reset, so its words read the free values; the
other addresses have their locations' reset values. -/
theorem resetValues : Obligations.ResetValues := by
  intro a
  change memRead State.reset a = if a ∈ resetOnes then _ else _
  by_cases hbuf : 0x1000 ≤ a.toNat ∧ a.toNat < 0x3000
  · rw [if_neg fun hmem => (register_of_mem_resetOnes a hmem).2.not_ge hbuf.1, if_pos hbuf,
      memRead_of_buffer hbuf.1 hbuf.2]
    rfl
  · rw [if_neg hbuf]
    exact memRead_reset_outside (by omega)

end Sys2Proof.Machine
end

/-! ## Hardware reset (R220) -/

section
namespace Sys2Proof.Machine

theorem step_hwReset {s : State} {rest : List HostEvent} (h : s.pending = .hwReset :: rest) :
    step s = .next (hardwareReset { s with pending := rest }) := step_of_pending h

/-- The fields that hardware reset does not restore show in the sample buffer alone. -/
theorem readReg_hardwareReset {r : Reg} (hbuf : ∀ ch i, r ≠ .buf ch i) (s : State) :
    readReg (hardwareReset s) r = readReg State.reset r := by
  cases r with
  | buf ch i => exact absurd rfl (hbuf ch i)
  | _ => rfl

/-- Settles O13: a reserved address reads zero in both states, and each location outside the buffer
has its reset value. -/
theorem hardwareResetRestoresEveryRegister : Obligations.HardwareResetRestoresEveryRegister := by
  refine fun s rest hpend => ⟨_, step_hwReset hpend, rfl, rfl, rfl, fun a ha => ?_⟩
  rcases regAt_eq_none_or_standsAt a.toNat with hnone | ⟨r, hr⟩
  · rw [memRead_of_none hnone, memRead_of_none hnone]
  · rw [memRead_of_standsAt hr, memRead_of_standsAt hr,
      readReg_hardwareReset (ne_buf_of_standsAt hr ha)]

end Sys2Proof.Machine
end

/-! ## `LIFE` after each command (R224) -/

section
namespace Sys2Proof.Machine

/-- The outcome is a next state with this `LIFE`. -/
def NextHasLife (l : Life) (o : Host.Outcome State Fault Refusal) : Prop :=
  ∃ t, o = .next t ∧ t.life = l

theorem nextHasLife_raiseError (k : ErrorKind) (w : Word) (s : State) :
    NextHasLife s.life (.next (raiseError k w s)) := ⟨_, rfl, raiseError_life k w s⟩

/-- A test between two outcomes with the same `LIFE`. -/
theorem nextHasLife_ite {p : Prop} [Decidable p] {l : Life}
    {o o' : Host.Outcome State Fault Refusal} (h : NextHasLife l o) (h' : NextHasLife l o') :
    NextHasLife l (if p then o else o') := by
  split
  · exact h
  · exact h'

theorem nextHasLife_prepare (s : State) : NextHasLife
    (if isFinite s.sampleRateIn = true ∧ flt srMinExcl s.sampleRateIn = true ∧
      s.maxBlockIn.toNat ≤ 4096 then .prepared else s.life) (exec .prepare s) := by
  by_cases hacc : prepareAccepts s = true
  · rw [if_pos (prepareAccepts_iff.1 hacc)]
    exact ⟨_, exec_prepare_of_accepts hacc, rfl⟩
  · rw [if_neg (mt prepareAccepts_iff.2 hacc), exec_prepare_of_rejects hacc]
    exact nextHasLife_raiseError _ _ s

theorem nextHasLife_chsample {ch : BitVec 4} (hch : ch.toNat < Config.nch) (s : State) :
    NextHasLife (if s.life ≠ .uninitialized then .active else s.life) (exec (.chsample ch) s) := by
  by_cases hlife : s.life = .uninitialized
  · rw [if_neg (not_not.2 hlife), exec_chsample_of_uninitialized hch hlife]
    exact nextHasLife_raiseError _ _ s
  · rw [if_pos hlife]
    exact ⟨_, exec_chsample_of_legal hch hlife, rfl⟩

theorem nextHasLife_block {nin : BitVec 4} (hnin : nin.toNat ≤ Config.nch) (n : BitVec 16)
    (s : State) : NextHasLife
      (if s.life ≠ .uninitialized ∧ n.toNat ≤ s.maxBlock.toNat then .active else s.life)
      (exec (.block nin n) s) := by
  by_cases hlife : s.life = .uninitialized
  · rw [if_neg fun h => h.1 hlife, exec_block_of_uninitialized hnin hlife]
    exact nextHasLife_raiseError _ _ s
  by_cases hn : n.toNat ≤ s.maxBlock.toNat
  · rw [if_pos ⟨hlife, hn⟩]
    exact ⟨_, exec_block_of_accepted hnin hlife hn, rfl⟩
  · rw [if_neg fun h => hn h.2, exec_block_of_oversized hnin hlife (not_le.1 hn)]
    exact nextHasLife_raiseError _ _ s

theorem nextHasLife_update (b : Band) (s : State) : NextHasLife s.life (exec (.update b) s) :=
  nextHasLife_ite (nextHasLife_raiseError _ _ s) ⟨_, rfl, Safety.updateBand_life b _ _ _ s⟩

theorem finishCalc_life (w : Word) (r : Option CoefSet) (s : State) :
    (finishCalc w r s).life = s.life := by
  cases r with
  | none => exact raiseError_life _ w (countInvocation s)
  | some c => rfl

end Sys2Proof.Machine
end

/-! ## Prepared and Active behave alike (R224)

An operation that commutes with `setLife l` neither looks at `LIFE` nor moves it. The commands test
`LIFE` only for Uninitialized, and give it a new value only from its old one. -/

section
namespace Sys2Proof.Machine

/-- The state with another `LIFE`. -/
def setLife (l : Life) (s : State) : State := { s with life := l }

/-! ### Shared operations -/

section Operations
variable (l : Life)

theorem raiseError_setLife (k : ErrorKind) (w : Word) (s : State) :
    raiseError k w (setLife l s) = setLife l (raiseError k w s) := by
  cases k <;> rfl

theorem finishCalc_setLife (w : Word) (c : Option CoefSet) (s : State) :
    finishCalc w c (setLife l s) = setLife l (finishCalc w c s) := by
  cases c <;> rfl

theorem updateBand_setLife (b : Band) (g q w : Word) (s : State) :
    updateBand b g q w (setLife l s) = setLife l (updateBand b g q w s) := by
  have hcache : cacheHit b g q (setLife l s) = cacheHit b g q s := rfl
  have hfs : (setLife l s).fs = s.fs := rfl
  unfold updateBand
  rw [hcache, hfs]
  split_ifs
  · rfl
  · rfl
  · cases designBand b s.fs q (linearGain g) <;> rfl

theorem updateBands_setLife (w : Word) (s : State) :
    updateBands w (setLife l s) = setLife l (updateBands w s) := by
  simp only [updateBands, ← updateBand_setLife]
  rfl

theorem zeroFill_setLife (c n : Nat) (s : State) :
    zeroFill c n (setLife l s) = setLife l (zeroFill c n s) := by
  induction n with
  | zero => rfl
  | succ i ih => rw [zeroFill, ih]; rfl

theorem zeroFillFrom_setLife (n c k : Nat) (s : State) :
    zeroFillFrom n c k (setLife l s) = setLife l (zeroFillFrom n c k s) := by
  induction k generalizing c s with
  | zero => rfl
  | succ k ih => rw [zeroFillFrom, zeroFill_setLife, ih, zeroFillFrom]

theorem blockChannel_setLife (c n : Nat) (s : State) :
    blockChannel c n (setLife l s) = setLife l (blockChannel c n s) := by
  induction n with
  | zero => rfl
  | succ i ih => rw [blockChannel, ih]; rfl

theorem blockChannels_setLife (n k : Nat) (s : State) :
    blockChannels n k (setLife l s) = setLife l (blockChannels n k s) := by
  induction k with
  | zero => rfl
  | succ c ih => rw [blockChannels, ih, blockChannel_setLife, blockChannels]

/-- A block ends Active whatever `LIFE` it began with (R176). -/
theorem processBlock_setLife (nin n : Nat) (w : Word) (s : State) :
    processBlock nin n w (setLife l s) = processBlock nin n w s := by
  have hsnap : takeSnapshot (setLife l s) = setLife l (takeSnapshot s) := rfl
  simp only [processBlock, hsnap, zeroFillFrom_setLife, updateBands_setLife,
    blockChannels_setLife]
  rfl

end Operations

/-! ### Commands -/

/-- From Prepared and from Active, what the command does to s differs in `LIFE` at most. -/
def AlikeInLife (f : State → Host.Outcome State Fault Refusal) (s : State) : Prop :=
  ∃ t, ∀ l, l ≠ .uninitialized → ∃ l', f (setLife l s) = .next (setLife l' t)

theorem alikeInLife_next {g : State → State} {s : State}
    (h : ∀ l, ∃ l', g (setLife l s) = setLife l' (g s)) :
    AlikeInLife (fun s => .next (g s)) s :=
  ⟨g s, fun l _ => (h l).imp fun _ hl => congrArg _ hl⟩

theorem alikeInLife_raiseError (k : ErrorKind) (w : Word) (s : State) :
    AlikeInLife (fun s => .next (raiseError k w s)) s :=
  alikeInLife_next fun l => ⟨l, raiseError_setLife l k w s⟩

/-- A test that does not look at `LIFE`. -/
theorem alikeInLife_ite {p : State → Prop} [DecidablePred p] {s : State}
    {f g : State → Host.Outcome State Fault Refusal} (hp : ∀ l, p (setLife l s) = p s)
    (hf : AlikeInLife f s) (hg : AlikeInLife g s) :
    AlikeInLife (fun s => if p s then f s else g s) s := by
  by_cases h : p s
  · simpa only [AlikeInLife, hp, h, if_true] using hf
  · simpa only [AlikeInLife, hp, h, if_false] using hg

/-- The lifecycle test, which Prepared and Active both pass (R198). -/
theorem alikeInLife_initialized {s : State} {f g : State → Host.Outcome State Fault Refusal}
    (hg : AlikeInLife g s) :
    AlikeInLife (fun s => if s.life = .uninitialized then f s else g s) s := by
  obtain ⟨t, ht⟩ := hg
  exact ⟨t, fun l hl => (ht l hl).imp fun _ heq => (if_neg hl).trans heq⟩

theorem alikeInLife_exec (i : Instr) (s : State) : AlikeInLife (exec i) s := by
  have hraise := alikeInLife_raiseError (s := s)
  cases i with
  | nop | ldcoef b | sat | clrerr => exact alikeInLife_next fun l => ⟨l, rfl⟩
  | reset => exact alikeInLife_next fun _ => ⟨_, rfl⟩
  | calcls | calchs | calcpk => exact alikeInLife_next fun l => ⟨l, finishCalc_setLife l _ _ s⟩
  | prepare =>
    exact alikeInLife_ite (fun _ => rfl) (alikeInLife_next fun _ => ⟨.prepared, rfl⟩) (hraise _ _)
  | update b =>
    refine alikeInLife_initialized (alikeInLife_next fun l => ⟨l, ?_⟩)
    have hgain : liveGain (setLife l s) b = liveGain s b := by cases b <;> rfl
    rw [hgain]
    exact updateBand_setLife l b _ s.midQ _ s
  | chsample ch =>
    exact alikeInLife_ite (fun _ => rfl) (hraise _ _) <|
      alikeInLife_initialized (alikeInLife_next fun _ => ⟨.active, rfl⟩)
  | block nin n =>
    exact alikeInLife_ite (fun _ => rfl) (hraise _ _) <| alikeInLife_initialized <|
      alikeInLife_ite (fun _ => rfl) (hraise _ _) <|
      alikeInLife_next fun l => ⟨.active, processBlock_setLife l _ _ _ s⟩
  | bqstep b ch | bqreset b ch =>
    exact alikeInLife_ite (fun _ => rfl) (alikeInLife_next fun l => ⟨l, rfl⟩) (hraise _ _)

/-- Settles O20: the row of each command, the reset value, and the two runs side by side. -/
theorem lifecycleTransitions : Obligations.LifecycleTransitions := by
  refine ⟨fun i s hwf => ?_, fun _ => rfl, fun i s => ?_⟩
  · cases i with
    | prepare => exact nextHasLife_prepare s
    | chsample ch => exact nextHasLife_chsample (chLegal_iff.1 hwf) s
    | block nin n => exact nextHasLife_block (ninLegal_iff.1 hwf) n s
    | update b => exact nextHasLife_update b s
    | bqstep b ch | bqreset b ch =>
      exact nextHasLife_ite ⟨_, rfl, rfl⟩ (nextHasLife_raiseError _ _ s)
    | calcls | calchs | calcpk => exact ⟨_, rfl, finishCalc_life _ _ s⟩
    | nop | reset | ldcoef b | sat | clrerr => exact ⟨_, rfl, rfl⟩
  · obtain ⟨t, ht⟩ := alikeInLife_exec i s
    obtain ⟨l, hprepared⟩ := ht .prepared (by decide)
    obtain ⟨l', hactive⟩ := ht .active (by decide)
    exact ⟨_, _, hprepared, hactive, rfl⟩

end Sys2Proof.Machine
end
